-- ==== Sys2Proof/Word.lean ====
section
/-! DEFINITION. The word types of the HFC and nothing else: the widths of rules R8, R22 and R101.
Arithmetic on them (composition of bytes, rounding up to whole bytes, bit order) stands in
Machine/Operands.lean. -/

namespace Sys2Proof

/-- A register of the register block, and a command word: 32 bits (R21, R100). -/
abbrev Word := BitVec 32

/-- A byte of IN or OUT, and a Symbol: "one byte value (0–255)" (R6, R10). -/
abbrev Byte := BitVec 8

/-- A node handle: 9 bits, values 0..510, with 0x1FF for "no node" (R8, R49). -/
abbrev Handle := BitVec 9

/-- A node weight: 40 bits (R8, R49, R159). -/
abbrev Weight := BitVec 40

/-- A code held as a value: 255 bits (R8, R50). -/
abbrev CodeBits := BitVec 255

end Sys2Proof
end

