-- ==== Sys2Proof/Config.lean ====
section
/-! DEFINITION. What one instance of the HFC fixes (the parameters of rules R7 and R9) and what the spec leaves
unspecified (the draws of rule R12): every draw is an opaque constant, so that no proof can see its value. -/

namespace Sys2Proof

/-- The named parameters of one HFC: the capacities of rule R7, each between 2 and 2^29 - 1, and the base addresses of
rule R9 in the host's address space, "left OPEN", of regions that do not overlap (decision D5). -/
structure Params where
  /-- `IN_CAP`: capacity of the IN buffer in bytes. -/
  inCap : Nat
  /-- `OUT_CAP`: capacity of the OUT buffer in bytes. -/
  outCap : Nat
  /-- The constraint column of rule R7. -/
  bounded : (2 ≤ inCap ∧ inCap ≤ 536870911) ∧ (2 ≤ outCap ∧ outCap ≤ 536870911)
  /-- `REG_BASE`: the host address of register offset 0 (R22). -/
  regBase : Nat
  /-- Whether IN and OUT are windows of the host's address space at all, or "filled by some other transport" (R85). -/
  windowsMapped : Bool
  /-- `IN_BASE`: the host address of `IN[0]` (R85). -/
  inBase : Nat
  /-- `OUT_BASE`: the host address of `OUT[0]` (R85). -/
  outBase : Nat
  /-- "the three regions do not overlap" (D5): the register block is 256 bytes (R22), a window as long as its buffer
  (R54). -/
  disjoint : windowsMapped = true →
    (regBase + 256 ≤ inBase ∨ inBase + inCap ≤ regBase) ∧ (regBase + 256 ≤ outBase ∨ outBase + outCap ≤ regBase) ∧
    (inBase + inCap ≤ outBase ∨ outBase + outCap ≤ inBase)
deriving DecidableEq, Repr

/-- The parameters `State.reset` has: the largest capacities rule R7 allows (log 1), and the register block, IN and OUT
mapped in that order from the host address 0 on, a window every 2^29 bytes (log 11).
DESIGN CHOICE: the spec leaves all of them open. Statements quantify over every `Params`. -/
def Config.params : Params :=
  { inCap := 536870911, outCap := 536870911, bounded := by decide, regBase := 0, windowsMapped := true
    inBase := 0x20000000, outBase := 0x40000000, disjoint := by decide }

/-! ## Unspecified values (R12)

`d` is the number of the draw, read from `State.draw`; the other argument is the place drawn for. -/

/-- PEND after reset (R30, R56). -/
opaque Config.freePend : Nat → Word
/-- `FREQ[s]` after `havoc` (R287) and reset (R56). -/
opaque Config.freeFreq : Nat → Nat → BitVec 32
/-- `NODE[h].IS_LEAF` after `havoc`, reset, and at a handle at or above NODE_COUNT (R49). -/
opaque Config.freeNodeIsLeaf : Nat → Nat → Bool
/-- `NODE[h].SYM`, likewise. -/
opaque Config.freeNodeSym : Nat → Nat → Byte
/-- `NODE[h].WEIGHT`, likewise. -/
opaque Config.freeNodeWeight : Nat → Nat → Weight
/-- `NODE[h].LEFT`, likewise. -/
opaque Config.freeNodeLeft : Nat → Nat → Handle
/-- `NODE[h].RIGHT`, likewise. -/
opaque Config.freeNodeRight : Nat → Nat → Handle
/-- `CODELEN[s]` after `havoc` and reset. -/
opaque Config.freeCodeLen : Nat → Nat → BitVec 8
/-- `CODEVAL[s]` after `havoc` and reset. -/
opaque Config.freeCodeVal : Nat → Nat → CodeBits
/-- BW_ORG after `havoc` and reset. -/
opaque Config.freeBwOrg : Nat → Word
/-- BW_ACC after `havoc` and reset. -/
opaque Config.freeBwAcc : Nat → BitVec 8
/-- BR_ORG after `havoc` and reset. -/
opaque Config.freeBrOrg : Nat → Word
/-- BR_LIM after `havoc` and reset. -/
opaque Config.freeBrLim : Nat → Word
/-- A byte `IN[a]` nothing has written since reset (R56, R322). -/
opaque Config.freeIn : Nat → Nat → Byte
/-- A byte `OUT[a]` nothing has written since reset or `havoc` (R53, R287). -/
opaque Config.freeOut : Nat → Nat → Byte
/-- What a register read returns while SEQ = EXEC, but for the five registers rule R29 names. -/
opaque Config.freeRegRead : Nat → Word
/-- What a read of the IN or OUT window returns while SEQ = EXEC (R29, R73, R74). -/
opaque Config.freeByteRead : Nat → Byte

end Sys2Proof
end

