-- ==== Sys2Proof/Syntax.lean ====
section
/-! DEFINITION. The instructions of the HFC: its 16 commands (rule R103), the command word's one format
(rule R101), and the two reasons rule R104 rejects a word. -/

namespace Sys2Proof

/-- The 16 commands of rule R103, one constructor per row of `opcode_table.json`.
An operand has exactly the bits of ARG that rule R102 gives the command. -/
inductive Instr where
  /-- NOP, OPC 0x00 (R261). -/
  | nop
  /-- CLEAR, OPC 0x01 (R262). -/
  | clear
  /-- TBL_READ sym, OPC 0x02, `sym = ARG[7:0]` (R263). -/
  | tblRead (sym : Byte)
  /-- NODE_READ h, OPC 0x03, `h = ARG[8:0]` (R264). -/
  | nodeRead (h : Handle)
  /-- FREQ_BUILD, OPC 0x10 (R141). -/
  | freqBuild
  /-- TREE_BUILD, OPC 0x11 (R151). -/
  | treeBuild
  /-- CODE_GEN, OPC 0x12 (R172). -/
  | codeGen
  /-- BW_INIT, OPC 0x20 (R181). -/
  | bwInit
  /-- BW_WRITE_BIT b, OPC 0x21, `b = ARG[0]` (R182). -/
  | bwWriteBit (b : Bool)
  /-- BW_WRITE_CODE sym, OPC 0x22, `sym = ARG[7:0]` (R183). -/
  | bwWriteCode (sym : Byte)
  /-- BW_FINISH, OPC 0x23 (R184). -/
  | bwFinish
  /-- BR_INIT, OPC 0x30 (R191). -/
  | brInit
  /-- BR_READ_BIT, OPC 0x31 (R192). -/
  | brReadBit
  /-- BR_DECODE_SYM, OPC 0x32 (R195). -/
  | brDecodeSym
  /-- COMPRESS, OPC 0x40 (R213). -/
  | compress
  /-- DECOMPRESS, OPC 0x41 (R233). -/
  | decompress
deriving DecidableEq, Repr

/-- Format C, the only format: `w = (RSV << 24) | (ARG << 8) | OPC` (R101). -/
structure Cmd where
  /-- Bits 31:24, reserved, must be 0. -/
  rsv : BitVec 8
  /-- Bits 23:8, the operand; the bits a command does not use must be 0. -/
  arg : BitVec 16
  /-- Bits 7:0, the opcode. -/
  opc : BitVec 8
deriving DecidableEq, Repr

/-- The decoder's two rejections (R104); their error is IllegalCommandError. -/
inductive Reject where
  /-- OPC is not one of the 16 values of rule R103. -/
  | badOpcode
  /-- RSV is not 0, or a bit of ARG the command does not use is not 0. -/
  | reservedBits
deriving DecidableEq, Repr

end Sys2Proof
end

