-- ==== Sys2Proof/Machine/State.lean ====
section
/-! DEFINITION. The state of one HFC instance (rule R20), as plain data, the state after reset (rule R56), and the
ways a step can stop. Behind the HFC's own state stand three fields of the MODEL: `agenda` (the moves still to be
made by the host, the platform and the HFC, in order), `resp` (the bus response of the last host read) and `draw`
(the number of the next unspecified value). -/

namespace Sys2Proof.Machine

/-- The sequencer state SEQ (R26). -/
inductive Seq where
  /-- No command is executing. -/
  | idle
  /-- The command in PEND is executing. -/
  | exec
deriving DecidableEq, Repr

/-- One entry of the arena (R49). -/
structure Node where
  /-- IS_LEAF. -/
  isLeaf : Bool
  /-- SYM: a leaf's Symbol; 0 in an internal node. -/
  sym : Byte
  /-- WEIGHT: a leaf's frequency; the sum of the children's weights in an internal node. -/
  weight : Weight
  /-- LEFT: the child reached by bit 0; 0x1FF in a leaf. -/
  left : Handle
  /-- RIGHT: the child reached by bit 1; 0x1FF in a leaf. -/
  right : Handle
deriving DecidableEq, Repr

/-- A byte buffer (R53): the bytes written since the buffer's last `havoc`, in strictly rising order of address
(`Memory.wf`). An address no cell lists reads as the unspecified byte of draw `epoch` (log 2). -/
structure Memory where
  /-- The number of the draw that gave every byte of the buffer an unspecified value. -/
  epoch : Nat
  /-- The bytes written since. -/
  cells : List Host.Cell
deriving DecidableEq, Repr

/-- The host's moves (R70 to R75). -/
inductive HostMove where
  /-- `RegRead(off)` (R70). -/
  | regRead (off : Nat)
  /-- `RegWrite(off, v)` (R71). -/
  | regWrite (off : Nat) (v : Word)
  /-- `InWrite(a, b)` (R72). -/
  | inWrite (a : Nat) (b : Byte)
  /-- `InRead(a)` (R73). -/
  | inRead (a : Nat)
  /-- `OutRead(a)` (R74). -/
  | outRead (a : Nat)
  /-- A host write to the OUT window (R75). -/
  | outWrite (a : Nat) (b : Byte)
deriving DecidableEq, Repr

/-- An access of the host at an address of its own address space, where the three regions stand at the bases of rule R9
(R54): 32 bits wide as the register block takes them (R80), or a byte as the windows do (R72 to R75). -/
inductive BusAccess where
  /-- A 32-bit read at the host address `a`. -/
  | readWord (a : Nat)
  /-- A 32-bit write of `v` at the host address `a`. -/
  | writeWord (a : Nat) (v : Word)
  /-- A byte read at the host address `a`. -/
  | readByte (a : Nat)
  /-- A byte write of `b` at the host address `a`. -/
  | writeByte (a : Nat) (b : Byte)
deriving DecidableEq, Repr

/-- Who moves next, and how (R76). -/
inductive Move where
  /-- A move of the host, by its offset. -/
  | host (m : HostMove)
  /-- A move of the host, by its address: the move its region and offset make it (R9, R54). -/
  | bus (x : BusAccess)
  /-- The platform's move `Reset` (R320). -/
  | reset
  /-- The HFC's one move, the complete step, if it is enabled (R27). -/
  | hfc
deriving DecidableEq, Repr

/-- The HFC's bus response to the last host move that read something. -/
inductive Resp where
  /-- No read since reset. -/
  | none
  /-- The 32-bit value of a register read. -/
  | word (v : Word)
  /-- The byte of a window read. -/
  | byte (b : Byte)
deriving DecidableEq, Repr

/-- Sub-causes of CorruptHeaderError (R282, ERRCODE 2). -/
inductive HeaderCause where
  | hdrShort
  | badVersion
  | badFlags
  | badCount
  | dupSymbol
  | zeroFreq
  | bitcountMismatch
  | trailingBytes
  | countMismatch
  | invalidCode
deriving DecidableEq, Repr

/-- Sub-causes of TruncatedPayloadError (R282, ERRCODE 3). -/
inductive TruncationCause where
  | payloadBytesShort
  | endsMidCode
deriving DecidableEq, Repr

/-- Sub-causes of CapacityError (R282, ERRCODE 6). -/
inductive CapacityCause where
  | inLenOver
  | outOver
  | baseOver
deriving DecidableEq, Repr

/-- Sub-causes of PreconditionError (R282, ERRCODE 7). -/
inductive PreconditionCause where
  | freqNotValid
  | treeNotValid
  | codeNotValid
  | bwNotOpen
  | brNotOpen
  | noCodeForSymbol
  | badNodeIndex
  | brRange
deriving DecidableEq, Repr

/-- What a command raises: the seven errors of rule R281, each with its sub-causes of rule R282.
"Every other (ERRCODE, ERRINFO) pair is never written": no other pair is a value of this type. -/
inductive Cause where
  /-- EmptyInputError, ERRCODE 1. -/
  | emptyInput
  /-- CorruptHeaderError, ERRCODE 2. -/
  | corruptHeader (sub : HeaderCause)
  /-- TruncatedPayloadError, ERRCODE 3. -/
  | truncatedPayload (sub : TruncationCause)
  /-- EndOfStreamError, ERRCODE 4. -/
  | endOfStream
  /-- IllegalCommandError, ERRCODE 5. -/
  | illegalCommand (why : Reject)
  /-- CapacityError, ERRCODE 6. -/
  | capacity (sub : CapacityCause)
  /-- PreconditionError, ERRCODE 7. -/
  | precondition (sub : PreconditionCause)
deriving DecidableEq, Repr

/-- Why the machine stops with a fault. No command faults: every error of a command is a NEXT state (R288, R334).
These stops are made by host moves to addresses the spec says do not exist, which "is not a move of the host
interface" (R82). They are safe: a run that makes one ends. -/
inductive Fault where
  /-- A host register access at an offset at or beyond 0x100 (R22, R82). Safe. -/
  | outsideRegisterBlock
  /-- A host access to IN at an address at or beyond IN_CAP (R82). Safe. -/
  | outsideIn
  /-- A host access to OUT at an address at or beyond OUT_CAP (R82). Safe. -/
  | outsideOut
  /-- A host access at an address of none of the three regions (R9, R54, U8). Raised by `busStep`. Safe. -/
  | outsideRegions
deriving DecidableEq, Repr

/-- Why the model refuses a step. -/
inductive Refusal where
  /-- An instruction with no meaning yet; raised by `exec` only, and by no arm of this model. Safe. -/
  | notModelled (mnemonic : String)
  /-- A host register access at an offset that is not a multiple of 4: "a narrower, wider or misaligned access to
  the register block is not a move of the interface" (R80). Raised by `hostStep`. Safe. -/
  | misalignedRegisterAccess
  /-- A host access of a width its region does not take: a byte access to the register block, which is no move (R80), or
  a 32-bit access to a window, of which rule R79 says "this spec does not model them": where a platform offers one, the
  agenda holds the byte accesses it equals. Raised by `busStep`. Safe. -/
  | accessWidth
deriving DecidableEq, Repr

/-- The state of one HFC instance (R20), and the model's own fields. -/
structure State where
  /-- SEQ (R26); STATUS.BUSY is 1 exactly when it is `exec`. -/
  seq : Seq
  /-- PEND: the accepted command word (R30). -/
  pend : Word
  /-- The parameters of the instance (R7, R9); IN_CAP and OUT_CAP are hardwired registers (R44). -/
  params : Params
  /-- CTRL.IE (R32). -/
  ie : Bool
  /-- STATUS.DONE (R33). -/
  done : Bool
  /-- STATUS.ERR (R33). -/
  err : Bool
  /-- STATUS.OVR (R33). -/
  ovr : Bool
  /-- STATUS.FREQ_VALID (R46). -/
  freqValid : Bool
  /-- STATUS.TREE_VALID (R46). -/
  treeValid : Bool
  /-- STATUS.CODE_VALID (R46). -/
  codeValid : Bool
  /-- STATUS.BW_OPEN (R46). -/
  bwOpen : Bool
  /-- STATUS.BR_OPEN (R46). -/
  brOpen : Bool
  /-- ERRCODE (R35). -/
  errCode : BitVec 4
  /-- ERRINFO (R36). -/
  errInfo : BitVec 8
  /-- IN_LEN (R37). -/
  inLen : Word
  /-- OUT_LEN (R38). -/
  outLen : Word
  /-- SYM_COUNT (R39). -/
  symCount : BitVec 9
  /-- BITCOUNT (R40). -/
  bitCount : Word
  /-- BW_BASE (R41). -/
  bwBase : Word
  /-- BR_BASE (R41). -/
  brBase : Word
  /-- BR_LIMIT (R41). -/
  brLimit : Word
  /-- NODE_COUNT (R43). -/
  nodeCount : BitVec 9
  /-- ROOT (R43). -/
  root : Handle
  /-- RES[0..9] (R45). -/
  res : Vector Word 10
  /-- FREQ[0..255] (R48). -/
  freq : Vector (BitVec 32) 256
  /-- NODE[0..510] (R49). -/
  node : Vector Node 511
  /-- CODELEN[0..255] (R50). -/
  codeLen : Vector (BitVec 8) 256
  /-- CODEVAL[0..255] (R50). -/
  codeVal : Vector CodeBits 256
  /-- BW_ORG (R51). -/
  bwOrg : Word
  /-- BW_TOTAL (R51); the register BW_BITS reads it (R42). -/
  bwTotal : Word
  /-- BW_ACC (R51). -/
  bwAcc : BitVec 8
  /-- BR_ORG (R52). -/
  brOrg : Word
  /-- BR_LIM (R52). -/
  brLim : Word
  /-- BR_POS (R52); the register BR_POS reads it (R42). -/
  brPos : Word
  /-- IN[0 .. IN_CAP-1] (R53). -/
  inBuf : Memory
  /-- OUT[0 .. OUT_CAP-1] (R53). -/
  outBuf : Memory
  /-- MODEL: the number of the next draw of an unspecified value (log 3). -/
  draw : Nat
  /-- MODEL: the moves to come, first the next one (log 4). -/
  agenda : List Move
  /-- MODEL: the bus response of the last host read (log 5). -/
  resp : Resp
deriving DecidableEq, Repr

/-- The table of rule R56 for an instance with the parameters `params`; the entries it calls unspecified are the
values of draw `d`. -/
def State.afterReset (params : Params) (d : Nat) (agenda : List Move) : State where
  seq := .idle
  pend := Config.freePend d
  params := params
  ie := false
  done := false
  err := false
  ovr := false
  freqValid := false
  treeValid := false
  codeValid := false
  bwOpen := false
  brOpen := false
  errCode := 0
  errInfo := 0
  inLen := 0
  outLen := 0
  symCount := 0
  bitCount := 0
  bwBase := 0
  brBase := 0
  brLimit := 0
  nodeCount := 0
  root := 0
  res := Vector.replicate 10 0
  freq := Vector.ofFn fun k => Config.freeFreq d k
  node := Vector.ofFn fun h =>
    { isLeaf := Config.freeNodeIsLeaf d h, sym := Config.freeNodeSym d h, weight := Config.freeNodeWeight d h,
      left := Config.freeNodeLeft d h, right := Config.freeNodeRight d h }
  codeLen := Vector.ofFn fun k => Config.freeCodeLen d k
  codeVal := Vector.ofFn fun k => Config.freeCodeVal d k
  bwOrg := Config.freeBwOrg d
  bwTotal := 0
  bwAcc := Config.freeBwAcc d
  brOrg := Config.freeBrOrg d
  brLim := Config.freeBrLim d
  brPos := 0
  inBuf := { epoch := d, cells := [] }
  outBuf := { epoch := d, cells := [] }
  draw := d + 1
  agenda := agenda
  resp := .none

/-- The machine right after reset (R56), with no move to come. -/
def State.reset : State := State.afterReset Config.params 0 []

end Sys2Proof.Machine
end

