-- ==== Sys2Proof/Machine/Flags.lean ====
section
/-! DEFINITION. The bits of STATUS and what is computed from them: BUSY (R26), the STATUS word (R33), the five
validity flags and the rules that clear them (R46), and the interrupt line (R55). -/

namespace Sys2Proof.Machine

/-- STATUS.BUSY: 1 exactly when SEQ = EXEC (R26). -/
def State.busy (s : State) : Bool := s.seq = .exec

/-- One bit of a register, at its place. -/
def bitAt (b : Bool) (i : Nat) : Word := (BitVec.ofBool b).setWidth 32 <<< i

/-- The STATUS register (R33): bits 7:4 and 31:13 read 0. -/
def statusWord (s : State) : Word :=
  bitAt s.busy 0 ||| bitAt s.done 1 ||| bitAt s.err 2 ||| bitAt s.ovr 3 |||
  bitAt s.freqValid 8 ||| bitAt s.treeValid 9 ||| bitAt s.codeValid 10 ||| bitAt s.bwOpen 11 ||| bitAt s.brOpen 12

/-- The CTRL register (R32): bit 0 is IE, bits 31:1 read 0. -/
def ctrlWord (s : State) : Word := bitAt s.ie 0

/-- The output `irq = CTRL.IE and STATUS.DONE` (R55, R292). -/
def irq (s : State) : Bool := s.ie && s.done

/-- The five flags to 0, as `clear_derived()` does (R46, R287). -/
def clearFlags (s : State) : State :=
  { s with freqValid := false, treeValid := false, codeValid := false, bwOpen := false, brOpen := false }

/-- What a new FREQ clears: TREE_VALID and CODE_VALID (R46, R141). -/
def dropTree (s : State) : State := { s with treeValid := false, codeValid := false }

/-- What a new tree clears: CODE_VALID (R46, R151). -/
def dropCode (s : State) : State := { s with codeValid := false }

end Sys2Proof.Machine
end

