-- ==== Sys2Proof/Machine/Ops.lean ====
section
/-! DEFINITION. The shared operations: byte memory, the error numbers, `require`, draws of unspecified values,
the accept and complete steps (R27), and THE one error entry (R288). -/

namespace Sys2Proof.Machine

/-! ## Byte memory -/

/-- The canonical form: addresses strictly rising. An unlisted address holds no recorded byte, so no listed byte can
equal what an unlisted address holds, and memories that record the same bytes are equal data (log 2). -/
abbrev Memory.wf (m : Memory) : Prop := m.cells.Pairwise fun x y => x.1 < y.1

/-- Every recorded address is below the buffer's capacity (R82). -/
def Memory.below (cap : Nat) (m : Memory) : Prop := ∀ c ∈ m.cells, c.1 < cap

/-- The byte recorded at `a`; none where nothing was written since the last `havoc`. -/
def lookupCell (a : Nat) : List Host.Cell → Option Byte
  | [] => none
  | (x, b) :: rest => if x = a then some b else lookupCell a rest

/-- Record `b` at `a`, keeping the addresses strictly rising. -/
def insertCell (a : Nat) (b : Byte) : List Host.Cell → List Host.Cell
  | [] => [(a, b)]
  | (x, c) :: rest =>
    if a < x then (a, b) :: (x, c) :: rest
    else if a = x then (a, b) :: rest
    else (x, c) :: insertCell a b rest

/-- Read one byte; `free` gives the unspecified byte an unlisted address reads as. -/
def Memory.read (free : Nat → Nat → Byte) (m : Memory) (a : Nat) : Byte :=
  (lookupCell a m.cells).getD (free m.epoch a)

/-- Write one byte. -/
def Memory.write (m : Memory) (a : Nat) (b : Byte) : Memory := { m with cells := insertCell a b m.cells }

/-- `havoc` of a whole buffer: every byte takes the unspecified value of draw `d` (R12). -/
def Memory.havoc (d : Nat) : Memory := { epoch := d, cells := [] }

/-! ## Errors -/

/-- Sub-cause numbers of ERRCODE 2 (R282). -/
def headerInfo (c : HeaderCause) : BitVec 8 :=
  match c with
  | .hdrShort => 1
  | .badVersion => 2
  | .badFlags => 3
  | .badCount => 4
  | .dupSymbol => 5
  | .zeroFreq => 6
  | .bitcountMismatch => 7
  | .trailingBytes => 8
  | .countMismatch => 9
  | .invalidCode => 10

/-- Sub-cause numbers of ERRCODE 3 (R282). -/
def truncationInfo (c : TruncationCause) : BitVec 8 :=
  match c with
  | .payloadBytesShort => 1
  | .endsMidCode => 2

/-- Sub-cause numbers of ERRCODE 5 (R282). -/
def rejectInfo (c : Reject) : BitVec 8 :=
  match c with
  | .badOpcode => 1
  | .reservedBits => 2

/-- Sub-cause numbers of ERRCODE 6 (R282). -/
def capacityInfo (c : CapacityCause) : BitVec 8 :=
  match c with
  | .inLenOver => 1
  | .outOver => 2
  | .baseOver => 3

/-- Sub-cause numbers of ERRCODE 7 (R282). -/
def preconditionInfo (c : PreconditionCause) : BitVec 8 :=
  match c with
  | .freqNotValid => 1
  | .treeNotValid => 2
  | .codeNotValid => 3
  | .bwNotOpen => 4
  | .brNotOpen => 5
  | .noCodeForSymbol => 6
  | .badNodeIndex => 7
  | .brRange => 8

/-- ERRCODE of an error (R281). -/
def errorCode (c : Cause) : BitVec 4 :=
  match c with
  | .emptyInput => 1
  | .corruptHeader _ => 2
  | .truncatedPayload _ => 3
  | .endOfStream => 4
  | .illegalCommand _ => 5
  | .capacity _ => 6
  | .precondition _ => 7

/-- ERRINFO of an error (R282). -/
def errorInfo (c : Cause) : BitVec 8 :=
  match c with
  | .emptyInput => 0
  | .corruptHeader sub => headerInfo sub
  | .truncatedPayload sub => truncationInfo sub
  | .endOfStream => 0
  | .illegalCommand why => rejectInfo why
  | .capacity sub => capacityInfo sub
  | .precondition sub => preconditionInfo sub

/-- `require c else raise e` (R12). -/
def require (c : Prop) [Decidable c] (e : Cause) : Except Cause Unit := if c then .ok () else .error e

/-! ## Draws (R12) -/

/-- FREQ with every entry unspecified. -/
def freeFreqTable (d : Nat) : Vector (BitVec 32) 256 := Vector.ofFn fun k => Config.freeFreq d k

/-- An arena entry with an unspecified value. -/
def freeNode (d h : Nat) : Node :=
  { isLeaf := Config.freeNodeIsLeaf d h, sym := Config.freeNodeSym d h, weight := Config.freeNodeWeight d h,
    left := Config.freeNodeLeft d h, right := Config.freeNodeRight d h }

/-- NODE with every entry unspecified. -/
def freeNodeTable (d : Nat) : Vector Node 511 := Vector.ofFn fun h => freeNode d h

/-- CODELEN with every entry unspecified. -/
def freeCodeLenTable (d : Nat) : Vector (BitVec 8) 256 := Vector.ofFn fun k => Config.freeCodeLen d k

/-- CODEVAL with every entry unspecified. -/
def freeCodeValTable (d : Nat) : Vector CodeBits 256 := Vector.ofFn fun k => Config.freeCodeVal d k

/-! ## `clear_derived()` and error entry -/

/-- The `havoc` lines of rule R287: the three tables, the hidden stream state and OUT. -/
def havocDerived (s : State) : State :=
  { s with
    freq := freeFreqTable s.draw, node := freeNodeTable s.draw
    codeLen := freeCodeLenTable s.draw, codeVal := freeCodeValTable s.draw
    bwOrg := Config.freeBwOrg s.draw, bwAcc := Config.freeBwAcc s.draw
    brOrg := Config.freeBrOrg s.draw, brLim := Config.freeBrLim s.draw
    outBuf := Memory.havoc s.draw
    draw := s.draw + 1 }

/-- `clear_derived()` (R287). -/
def clearDerived (s : State) : State :=
  { havocDerived (clearFlags s) with
    outLen := 0, symCount := 0, bitCount := 0, nodeCount := 0, root := 0, bwTotal := 0, brPos := 0 }

/-- Error entry (R288), the HFC's one way of taking an exception. It starts from the state before the command:
"After an error the state is a function of the state before the command and the error alone". -/
def errorEntry (c : Cause) (s : State) : State :=
  { clearDerived s with err := true, errCode := errorCode c, errInfo := errorInfo c }

/-- A command's rule "to its end or to its `raise`" (R27): a body that raises becomes error entry. -/
def runBody (s : State) (body : Except Cause State) : Host.Outcome State Fault Refusal :=
  .next (match body with
    | .ok t => t
    | .error c => errorEntry c s)

/-! ## Accept and complete (R27) -/

/-- The accept step of a write of `w` to CMD while SEQ = IDLE (R27). It is also the only way out of an error: "An
error is left by the next accepted command" (R291). -/
def accept (w : Word) (s : State) : State :=
  { s with pend := w, seq := .exec, done := false, err := false, errCode := 0, errInfo := 0 }

/-- The drop of a write to CMD while SEQ = EXEC (R28). -/
def dropCommand (s : State) : State := { s with ovr := true }

/-- The end of the complete step: `SEQ <- IDLE; STATUS.DONE <- 1` (R27). -/
def complete (s : State) : State := { s with seq := .idle, done := true }

/-! ## RES -/

/-- Write all ten result registers: the listed values from RES[0] on, 0 in the others (R45). -/
def setRes (vals : List Word) (s : State) : State :=
  { s with res := Vector.ofFn fun i => vals.getD i 0 }

end Sys2Proof.Machine
end

