-- ==== Sys2Proof/Machine/Operands.lean ====
section
/-! DEFINITION. Operands and effective addresses (rules R77, R78, R92): the bytes a command reads and writes, the
order of bytes in a container field and of bits in a stream byte, and the tables' entries. Every address is a
natural number, so a sum never wraps. -/

namespace Sys2Proof.Machine

/-- `ceil(b/8)` (R10). -/
def ceilDiv8 (b : Nat) : Nat := (b + 7) / 8

/-! ## Buffers -/

/-- `IN[a]` (R12). -/
def State.inAt (s : State) (a : Nat) : Byte := s.inBuf.read Config.freeIn a

/-- `OUT[a]` (R12). -/
def State.outAt (s : State) (a : Nat) : Byte := s.outBuf.read Config.freeOut a

/-- `OUT[a] <- b`. -/
def putOut (a : Nat) (b : Byte) (s : State) : State := { s with outBuf := s.outBuf.write a b }

/-- `IN[a] <- b`, a move of the host only (R72). -/
def putIn (a : Nat) (b : Byte) (s : State) : State := { s with inBuf := s.inBuf.write a b }

/-- The bytes `bs` to `OUT[a], OUT[a+1], ...`, in that order. -/
def putOutBytes (a : Nat) (bs : List Byte) (s : State) : State :=
  match bs with
  | [] => s
  | b :: rest => putOutBytes (a + 1) rest (putOut a b s)

/-- `IN[0], ..., IN[n-1]`. -/
def inBytes (s : State) (n : Nat) : List Byte := (List.range n).map s.inAt

/-! ## Container fields: little-endian (R77) -/

/-- `le32(IN, a)` (R12, R77). -/
def le32In (s : State) (a : Nat) : Nat :=
  (s.inAt a).toNat + 256 * (s.inAt (a + 1)).toNat + 65536 * (s.inAt (a + 2)).toNat +
    16777216 * (s.inAt (a + 3)).toNat

/-- The four bytes of `le32 of v`, lowest offset first (R213). -/
def le32Bytes (v : Nat) : List Byte :=
  [BitVec.ofNat 8 v, BitVec.ofNat 8 (v / 256), BitVec.ofNat 8 (v / 65536), BitVec.ofNat 8 (v / 16777216)]

/-! ## Streams: first bit in bit 7 (R78) -/

/-- The byte offset of stream bit `k` of a stream that starts at `org` (R78, R92). -/
def streamByte (org k : Nat) : Nat := org + k / 8

/-- The bit of its byte that holds stream bit `k`: `7 - (k mod 8)` (R78). -/
def streamBit (k : Nat) : Nat := 7 - k % 8

/-- The writer's byte address `BW_ORG + (BW_TOTAL >> 3)` (R92). -/
def writerAddr (s : State) : Nat := streamByte s.bwOrg.toNat s.bwTotal.toNat

/-- The reader's byte address `BR_ORG + (BR_POS >> 3)` (R92). -/
def readerAddr (s : State) : Nat := streamByte s.brOrg.toNat s.brPos.toNat

/-! ## Table entries -/

/-- `FREQ[sym]`. -/
def State.freqAt (s : State) (sym : Byte) : BitVec 32 := s.freq[sym.toNat]

/-- `CODELEN[sym]`. -/
def State.codeLenAt (s : State) (sym : Byte) : BitVec 8 := s.codeLen[sym.toNat]

/-- `CODEVAL[sym]`. -/
def State.codeValAt (s : State) (sym : Byte) : CodeBits := s.codeVal[sym.toNat]

/-- `NODE[h]`. There is no entry 511: 0x1FF means "no node" (R8), and following it, which no valid tree ever does
(R49), gives an entry nothing is known of (log 7). -/
def State.nodeAt (s : State) (h : Handle) : Node :=
  if hb : h.toNat < 511 then s.node[h.toNat] else freeNode 0 h.toNat

/-- The code of `sym` as a bit sequence, first bit first: bits `CODELEN - 1` down to 0 of CODEVAL (R50, R186). -/
def codeBits (s : State) (sym : Byte) : List Bool :=
  (List.range (s.codeLenAt sym).toNat).map fun i => (s.codeValAt sym).getLsbD ((s.codeLenAt sym).toNat - 1 - i)

end Sys2Proof.Machine
end

