-- ==== Sys2Proof/Machine/HostPort.lean ====
section
/-! DEFINITION. The host's moves on the register block and the two windows (rules R22 to R45 and R70 to R75), idle and
busy (rule R29), by offset and by host address (rules R9, R54, R85). -/

namespace Sys2Proof.Machine

/-- The registers of the register block (R22); the reserved offsets (R23) are one kind. -/
inductive Reg where
  | id
  | ctrl
  | status
  | cmd
  | errcode
  | errinfo
  | inLen
  | outLen
  | symCount
  | bitcount
  | bwBase
  | brBase
  | brLimit
  | bwBits
  | brPos
  | nodeCount
  | root
  | inCap
  | outCap
  | res (i : Fin 10)
  | reserved
deriving DecidableEq, Repr

/-- The register at word offset `k`, that is at byte offset `4k` (R22). -/
def regAt (k : Nat) : Reg :=
  match k with
  | 0x00 => .id
  | 0x01 => .ctrl
  | 0x02 => .status
  | 0x03 => .cmd
  | 0x04 => .errcode
  | 0x05 => .errinfo
  | 0x06 => .inLen
  | 0x07 => .outLen
  | 0x08 => .symCount
  | 0x09 => .bitcount
  | 0x0A => .bwBase
  | 0x0B => .brBase
  | 0x0C => .brLimit
  | 0x0D => .bwBits
  | 0x0E => .brPos
  | 0x0F => .nodeCount
  | 0x10 => .root
  | 0x11 => .inCap
  | 0x12 => .outCap
  | k => if h : 0x14 ≤ k ∧ k < 0x1E then .res ⟨k - 0x14, by omega⟩ else .reserved

/-- The value of a register while SEQ = IDLE (R22, R31 to R45, R70): 0 for CMD (WO) and the reserved offsets. -/
def regValue (s : State) (r : Reg) : Word :=
  match r with
  | .id => 0x48464301
  | .ctrl => ctrlWord s
  | .status => statusWord s
  | .cmd => 0
  | .errcode => s.errCode.setWidth 32
  | .errinfo => s.errInfo.setWidth 32
  | .inLen => s.inLen
  | .outLen => s.outLen
  | .symCount => s.symCount.setWidth 32
  | .bitcount => s.bitCount
  | .bwBase => s.bwBase
  | .brBase => s.brBase
  | .brLimit => s.brLimit
  | .bwBits => s.bwTotal
  | .brPos => s.brPos
  | .nodeCount => s.nodeCount.setWidth 32
  | .root => s.root.setWidth 32
  | .inCap => BitVec.ofNat 32 s.params.inCap
  | .outCap => BitVec.ofNat 32 s.params.outCap
  | .res i => s.res[i]
  | .reserved => 0

/-- The registers whose value is defined while SEQ = EXEC (R29). -/
def readableWhileBusy (r : Reg) : Bool :=
  match r with
  | .id | .ctrl | .status | .inCap | .outCap => true
  | .cmd | .errcode | .errinfo | .inLen | .outLen | .symCount | .bitcount | .bwBase | .brBase | .brLimit | .bwBits
  | .brPos | .nodeCount | .root | .res _ | .reserved => false

/-- A read whose value is defined: the response, and nothing else (R24, R84). -/
def respond (r : Resp) (s : State) : State := { s with resp := r }

/-- A register read that returns an unspecified value (R29): a draw. -/
def respondFreeWord (s : State) : State := { s with resp := .word (Config.freeRegRead s.draw), draw := s.draw + 1 }

/-- A window read that returns an unspecified byte (R73, R74): a draw. -/
def respondFreeByte (s : State) : State := { s with resp := .byte (Config.freeByteRead s.draw), draw := s.draw + 1 }

/-- `RegRead` of register `r` (R70). -/
def readReg (r : Reg) (s : State) : State :=
  if s.busy = true ∧ readableWhileBusy r = false then respondFreeWord s else respond (.word (regValue s r)) s

/-- A write to STATUS (R33, R71): 1 in bit 1 clears DONE while SEQ = IDLE, 1 in bit 3 clears OVR at any time. -/
def writeStatus (v : Word) (s : State) : State :=
  { s with
    done := s.done && !(v.getLsbD 1 && !s.busy)
    ovr := s.ovr && !v.getLsbD 3 }

/-- A write to CMD: accept while SEQ = IDLE, the drop while SEQ = EXEC (R27, R28, R34). -/
def writeCmd (v : Word) (s : State) : State := if s.busy then dropCommand s else accept v s

/-- `RegWrite` of register `r` (R71). While SEQ = EXEC only CTRL, STATUS and CMD do anything (R29); a write to an RO
or reserved place does nothing at any time (R22, R23). -/
def writeReg (r : Reg) (v : Word) (s : State) : State :=
  match r with
  | .ctrl => { s with ie := v.getLsbD 0 }
  | .status => writeStatus v s
  | .cmd => writeCmd v s
  | .inLen => if s.busy then s else { s with inLen := v }
  | .bwBase => if s.busy then s else { s with bwBase := v }
  | .brBase => if s.busy then s else { s with brBase := v }
  | .brLimit => if s.busy then s else { s with brLimit := v }
  | .id | .errcode | .errinfo | .outLen | .symCount | .bitcount | .bwBits | .brPos | .nodeCount | .root | .inCap
  | .outCap | .res _ | .reserved => s

/-- `InWrite(a, b)` (R72). -/
def inWrite (a : Nat) (b : Byte) (s : State) : State := if s.busy then s else putIn a b s

/-- `InRead(a)` (R73). -/
def inRead (a : Nat) (s : State) : State := if s.busy then respondFreeByte s else respond (.byte (s.inAt a)) s

/-- `OutRead(a)` (R74). -/
def outRead (a : Nat) (s : State) : State := if s.busy then respondFreeByte s else respond (.byte (s.outAt a)) s

/-- A register access: at a multiple of 4 in 0..0xFC; nothing else is a move of the interface (R24, R80, R82). -/
def regAccess (off : Nat) (act : Reg → State) : Host.Outcome State Fault Refusal :=
  if off ≥ 0x100 then .fault .outsideRegisterBlock
  else if off % 4 ≠ 0 then .refused .misalignedRegisterAccess
  else .next (act (regAt (off / 4)))

/-- One move of the host (R70 to R75); an address at or beyond a window's capacity is not one (R82). -/
def hostStep (m : HostMove) (s : State) : Host.Outcome State Fault Refusal :=
  match m with
  | .regRead off => regAccess off fun r => readReg r s
  | .regWrite off v => regAccess off fun r => writeReg r v s
  | .inWrite a b => if a < s.params.inCap then .next (inWrite a b s) else .fault .outsideIn
  | .inRead a => if a < s.params.inCap then .next (inRead a s) else .fault .outsideIn
  | .outRead a => if a < s.params.outCap then .next (outRead a s) else .fault .outsideOut
  | .outWrite a _ => if a < s.params.outCap then .next s else .fault .outsideOut

/-! ## Host addresses (R9, R54, R85) -/

/-- The three regions of the host's address space (R54). -/
inductive Region where
  /-- The register block, 256 bytes at REG_BASE. -/
  | registers
  /-- The IN window, IN_CAP bytes at IN_BASE. -/
  | inWindow
  /-- The OUT window, OUT_CAP bytes at OUT_BASE. -/
  | outWindow
deriving DecidableEq, Repr

/-- The region a host address lies in, and its offset there: "byte a is at window base + a" (R85). -/
def regionAt (p : Params) (addr : Nat) : Option (Region × Nat) :=
  if p.regBase ≤ addr ∧ addr < p.regBase + 0x100 then some (.registers, addr - p.regBase)
  else if p.windowsMapped = true ∧ p.inBase ≤ addr ∧ addr < p.inBase + p.inCap then
    some (.inWindow, addr - p.inBase)
  else if p.windowsMapped = true ∧ p.outBase ≤ addr ∧ addr < p.outBase + p.outCap then
    some (.outWindow, addr - p.outBase)
  else none

/-- The host address of an access. -/
def BusAccess.address (x : BusAccess) : Nat :=
  match x with
  | .readWord a => a
  | .writeWord a _ => a
  | .readByte a => a
  | .writeByte a _ => a

/-- The move an access is at offset `off` of a region; none where the region does not take its width (R79, R80). -/
def BusAccess.moveIn (x : BusAccess) (r : Region) (off : Nat) : Option HostMove :=
  match r, x with
  | .registers, .readWord _ => some (.regRead off)
  | .registers, .writeWord _ v => some (.regWrite off v)
  | .registers, .readByte _ => none
  | .registers, .writeByte _ _ => none
  | .inWindow, .readWord _ => none
  | .inWindow, .writeWord _ _ => none
  | .inWindow, .readByte _ => some (.inRead off)
  | .inWindow, .writeByte _ b => some (.inWrite off b)
  | .outWindow, .readWord _ => none
  | .outWindow, .writeWord _ _ => none
  | .outWindow, .readByte _ => some (.outRead off)
  | .outWindow, .writeByte _ b => some (.outWrite off b)

/-- One access of the host by address: the move it stands for, or a stop by name (R54, R79, R80, U8). -/
def busStep (x : BusAccess) (s : State) : Host.Outcome State Fault Refusal :=
  match regionAt s.params x.address with
  | none => .fault .outsideRegions
  | some (r, off) =>
    match x.moveIn r off with
    | none => .refused .accessWidth
    | some m => hostStep m s

end Sys2Proof.Machine
end

