-- ==== Sys2Proof/WellFormed.lean ====
section
/-! DEFINITION. When a command word is a legal encoding (rules R101, R102, R103, R105), as three checks, each
written as the rule lists it and independently of the decoder. Every `Instr` is well formed by its types:
an operand has no bit the rule does not give it. -/

namespace Sys2Proof

/-- The OPC column of rule R103. -/
def Cmd.legalOpcodes : List (BitVec 8) :=
  [0x00, 0x01, 0x02, 0x03, 0x10, 0x11, 0x12, 0x20, 0x21, 0x22, 0x23, 0x30, 0x31, 0x32, 0x40, 0x41]

/-- The ARG bits rule R102 gives a command, by opcode; none for every command the rule's table does not name. -/
def Cmd.usedArgBits (opc : BitVec 8) : BitVec 16 :=
  if opc = 0x21 then 0x0001 else if opc = 0x22 ∨ opc = 0x02 then 0x00FF else if opc = 0x03 then 0x01FF else 0x0000

/-- OPC is one of the 16 values (R103, R105). -/
def Cmd.opcodeOk (c : Cmd) : Bool := Cmd.legalOpcodes.contains c.opc

/-- RSV is 0 (R101). -/
def Cmd.reservedOk (c : Cmd) : Bool := c.rsv = 0

/-- "the bits a command does not use must be 0" (R101, R102). -/
def Cmd.argOk (c : Cmd) : Bool := c.arg &&& ~~~(Cmd.usedArgBits c.opc) = 0

/-- A well-formed command word passes all three checks. -/
def Cmd.wellFormed (c : Cmd) : Bool := c.opcodeOk && c.reservedOk && c.argOk

end Sys2Proof
end

