-- ==== Sys2Proof/Decode.lean ====
section
/-! DEFINITION. The decoder of rule R104, total on every 32-bit word and rejecting by name, and after it the
encoder, written from the same tables (rules R101 to R103). -/

namespace Sys2Proof

/-- The three fields of a word (R101). -/
def Cmd.ofWord (w : Word) : Cmd :=
  { rsv := w.extractLsb' 24 8, arg := w.extractLsb' 8 16, opc := w.extractLsb' 0 8 }

/-- The word of three fields: `(RSV << 24) | (ARG << 8) | OPC` (R101). -/
def Cmd.toWord (c : Cmd) : Word := c.rsv ++ c.arg ++ c.opc

/-- The opcode map of rule R103, with the operand rule R102 assembles from ARG. -/
def selectCommand (opc : BitVec 8) (arg : BitVec 16) : Option Instr :=
  match opc.toNat with
  | 0x00 => some .nop
  | 0x01 => some .clear
  | 0x02 => some (.tblRead (arg.extractLsb' 0 8))
  | 0x03 => some (.nodeRead (arg.extractLsb' 0 9))
  | 0x10 => some .freqBuild
  | 0x11 => some .treeBuild
  | 0x12 => some .codeGen
  | 0x20 => some .bwInit
  | 0x21 => some (.bwWriteBit (arg.getLsbD 0))
  | 0x22 => some (.bwWriteCode (arg.extractLsb' 0 8))
  | 0x23 => some .bwFinish
  | 0x30 => some .brInit
  | 0x31 => some .brReadBit
  | 0x32 => some .brDecodeSym
  | 0x40 => some .compress
  | 0x41 => some .decompress
  | _ => none

/-- `used`: the mask of the ARG bits rule R102 gives the command (R104). -/
def argMask (i : Instr) : BitVec 16 :=
  match i with
  | .nop => 0x0000
  | .clear => 0x0000
  | .tblRead _ => 0x00FF
  | .nodeRead _ => 0x01FF
  | .freqBuild => 0x0000
  | .treeBuild => 0x0000
  | .codeGen => 0x0000
  | .bwInit => 0x0000
  | .bwWriteBit _ => 0x0001
  | .bwWriteCode _ => 0x00FF
  | .bwFinish => 0x0000
  | .brInit => 0x0000
  | .brReadBit => 0x0000
  | .brDecodeSym => 0x0000
  | .compress => 0x0000
  | .decompress => 0x0000

/-- Decode (R104): the first failing test decides the error, BAD_OPCODE before RESERVED_BITS. -/
def decodeCmd (c : Cmd) : Except Reject Instr :=
  match selectCommand c.opc c.arg with
  | none => .error .badOpcode
  | some i => if c.rsv ≠ 0 ∨ c.arg &&& ~~~(argMask i) ≠ 0 then .error .reservedBits else .ok i

/-- Decode a command word (R104). -/
def decode (w : Word) : Except Reject Instr := decodeCmd (Cmd.ofWord w)

/-- The instruction the decoder reads from a table row's word; the bits above `nbits` are 0. -/
def decodeTableWord (nbits w : Nat) : Option Instr :=
  match decode (BitVec.ofNat 32 (w % 2 ^ nbits)) with
  | .ok i => some i
  | .error _ => none

/-- The OPC column of rule R103. -/
def opcodeOf (i : Instr) : BitVec 8 :=
  match i with
  | .nop => 0x00
  | .clear => 0x01
  | .tblRead _ => 0x02
  | .nodeRead _ => 0x03
  | .freqBuild => 0x10
  | .treeBuild => 0x11
  | .codeGen => 0x12
  | .bwInit => 0x20
  | .bwWriteBit _ => 0x21
  | .bwWriteCode _ => 0x22
  | .bwFinish => 0x23
  | .brInit => 0x30
  | .brReadBit => 0x31
  | .brDecodeSym => 0x32
  | .compress => 0x40
  | .decompress => 0x41

/-- ARG of a command: "unsigned and never extended, scaled or shifted"; the unused bits are 0 (R102). -/
def argOf (i : Instr) : BitVec 16 :=
  match i with
  | .nop => 0
  | .clear => 0
  | .tblRead sym => sym.setWidth 16
  | .nodeRead h => h.setWidth 16
  | .freqBuild => 0
  | .treeBuild => 0
  | .codeGen => 0
  | .bwInit => 0
  | .bwWriteBit b => (BitVec.ofBool b).setWidth 16
  | .bwWriteCode sym => sym.setWidth 16
  | .bwFinish => 0
  | .brInit => 0
  | .brReadBit => 0
  | .brDecodeSym => 0
  | .compress => 0
  | .decompress => 0

/-- The command word as the host writes it (R103): RSV = 0. -/
def encode (i : Instr) : Word := Cmd.toWord { rsv := 0, arg := argOf i, opc := opcodeOf i }

end Sys2Proof
end

