-- ==== Sys2Proof/Machine/Code.lean ====
section
/-! DEFINITION. The CodeTable unit and its command CODE_GEN (rules R170 to R176). -/

namespace Sys2Proof.Machine

/-- The two halves of the CODE table (R50). -/
structure Codes where
  /-- CODELEN. -/
  len : Vector (BitVec 8) 256
  /-- CODEVAL. -/
  val : Vector CodeBits 256
deriving DecidableEq, Repr

/-- The table in which no symbol has a code. -/
def noCodes : Codes := { len := Vector.replicate 256 0, val := Vector.replicate 256 0 }

/-- `CODELEN[sym] <- len; CODEVAL[sym] <- val` (R174). -/
def setCode (sym : Byte) (len val : Nat) (c : Codes) : Codes :=
  { len := c.len.set sym.toNat (BitVec.ofNat 8 len), val := c.val.set sym.toNat (BitVec.ofNat 255 val) }

/-- The depth-first walk of rule R174, left before right, from handle `h` at depth `len` with path value `val`.
`fuel` bounds the depth; 256 levels reach every leaf of a tree of at most 256 leaves (R160 (c)). -/
def codeWalk (node : Handle → Node) : Nat → Handle → Nat → Nat → Codes → Codes
  | 0, _, _, _, c => c
  | fuel + 1, h, len, val, c =>
    if (node h).isLeaf then setCode (node h).sym len val c
    else
      codeWalk node fuel (node h).right (len + 1) (2 * val + 1)
        (codeWalk node fuel (node h).left (len + 1) (2 * val) c)

/-- The code table of the tree with root `root` (R173, R174): a single leaf gets the 1-bit code "0". -/
def treeCodes (node : Handle → Node) (root : Handle) : Codes :=
  if (node root).isLeaf then setCode (node root).sym 1 0 noCodes else codeWalk node 256 root 0 0 noCodes

/-- Procedure `code_gen()` (R174). -/
def codeGen (s : State) : State :=
  let c := treeCodes s.nodeAt s.root
  { s with codeLen := c.len, codeVal := c.val, codeValid := true }

/-- The body of CODE_GEN (R172). -/
def codeGenBody (s : State) : Except Cause State := do
  require (s.treeValid = true) (.precondition .treeNotValid)
  return codeGen s

/-- CODE_GEN (R172). -/
def execCodeGen (s : State) : Host.Outcome State Fault Refusal := runBody s (codeGenBody s)

end Sys2Proof.Machine
end

