-- ==== Sys2Proof/Machine/Frequency.lean ====
section
/-! DEFINITION. The FrequencyTable unit and its command FREQ_BUILD (rules R140 to R143). -/

namespace Sys2Proof.Machine

/-- One step of the counting pass: `FREQ[b] <- FREQ[b] + 1`, 32 bits (R142). -/
def bumpFreq (f : Vector (BitVec 32) 256) (b : Byte) : Vector (BitVec 32) 256 :=
  f.set b.toNat (f[b.toNat] + 1)

/-- The counters of a byte sequence, from all zeros (R142). -/
def countBytes (bs : List Byte) : Vector (BitVec 32) 256 := bs.foldl bumpFreq (Vector.replicate 256 0)

/-- The number of s in 0..255 with `FREQ[s] != 0` (R39, R142). -/
def symbolCount (f : Vector (BitVec 32) 256) : Nat := f.toList.countP fun c => c ≠ 0

/-- Procedure `freq_build()` (R142). -/
def freqBuild (s : State) : State :=
  let f := countBytes (inBytes s s.inLen.toNat)
  { s with freq := f, symCount := BitVec.ofNat 9 (symbolCount f), freqValid := true }

/-- The body of FREQ_BUILD (R141). -/
def freqBuildBody (s : State) : Except Cause State := do
  require (s.inLen.toNat ≤ s.params.inCap) (.capacity .inLenOver)
  return dropTree (freqBuild s)

/-- FREQ_BUILD (R141). -/
def execFreqBuild (s : State) : Host.Outcome State Fault Refusal := runBody s (freqBuildBody s)

end Sys2Proof.Machine
end

