-- ==== Sys2Proof/Machine/Tree.lean ====
section
/-! DEFINITION. The HuffmanTree unit and its command TREE_BUILD (rules R150 to R161). -/

namespace Sys2Proof.Machine

/-- A (symbol, frequency) list in insertion order: the `L` of rules R151, R152, R213 and R233. -/
abbrev SymFreqs := List (Byte × BitVec 32)

/-- The handle field of a leaf: 0x1FF, "none" (R49). -/
def noHandle : Handle := 0x1FF

/-- The leaf of one entry of the list; its weight is the frequency (R152). -/
def leafNode (e : Byte × BitVec 32) : Node :=
  { isLeaf := true, sym := e.1, weight := e.2.setWidth 40, left := noHandle, right := noHandle }

/-- The weight of the node with handle `x` in the arena built so far. -/
def arenaWeight (arena : List Node) (x : Nat) : Weight := (arena[x]?.map Node.weight).getD 0

/-- The internal node that combines `a`, extracted first, as LEFT and `b` as RIGHT (R152, R155). -/
def mergeNode (arena : List Node) (a b : Nat) : Node :=
  { isLeaf := false, sym := 0, weight := arenaWeight arena a + arenaWeight arena b,
    left := BitVec.ofNat 9 a, right := BitVec.ofNat 9 b }

/-- The priority order (R153): by weight, then by handle. -/
def comesBefore (arena : List Node) (x y : Nat) : Bool :=
  arenaWeight arena x < arenaWeight arena y || (arenaWeight arena x = arenaWeight arena y && decide (x < y))

/-- The element of a set of handles least in the order of rule R153. -/
def leastHandle (arena : List Node) : List Nat → Option Nat
  | [] => none
  | x :: rest =>
    match leastHandle arena rest with
    | none => some x
    | some y => if comesBefore arena x y then some x else some y

/-- The merge loop of rule R152 on the arena and the set Q of handles, `fuel` iterations at most; a new node takes
the next handle, the arena's length (R156). -/
def mergeLoop : Nat → List Node → List Nat → List Node × List Nat
  | 0, arena, q => (arena, q)
  | fuel + 1, arena, q =>
    match leastHandle arena q with
    | none => (arena, q)
    | some a =>
      match leastHandle arena (q.erase a) with
      | none => (arena, q)
      | some b => mergeLoop fuel (arena ++ [mergeNode arena a b]) ((q.erase a).erase b ++ [arena.length])

/-- The arena and the final Q of `tree_build(L)`: "The loop runs exactly K - 1 times" (R152). -/
def buildArena (l : SymFreqs) : List Node × List Nat :=
  mergeLoop (l.length - 1) (l.map leafNode) (List.range l.length)

/-- NODE holding `arena` from handle 0 on; the entries at handles at or above NODE_COUNT are unspecified (R49, log 6). -/
def arenaTable (d : Nat) (arena : List Node) : Vector Node 511 :=
  Vector.ofFn fun h => arena.getD h (freeNode d h)

/-- Procedure `tree_build(L)` (R152). -/
def treeBuild (l : SymFreqs) (s : State) : State :=
  let r := buildArena l
  { s with
    node := arenaTable s.draw r.1, nodeCount := BitVec.ofNat 9 r.1.length, root := BitVec.ofNat 9 (r.2.headD 0)
    treeValid := true, draw := s.draw + 1 }

/-- The present symbols with their counts, in ascending symbol value (R143, R151, R154). -/
def presentSymbols (f : Vector (BitVec 32) 256) : SymFreqs :=
  (f.toList.zipIdx.filter fun p => p.1 ≠ 0).map fun p => (BitVec.ofNat 8 p.2, p.1)

/-- The body of TREE_BUILD (R151). -/
def treeBuildBody (s : State) : Except Cause State := do
  require (s.freqValid = true) (.precondition .freqNotValid)
  require (presentSymbols s.freq ≠ []) .emptyInput
  return dropCode (treeBuild (presentSymbols s.freq) s)

/-- TREE_BUILD (R151). -/
def execTreeBuild (s : State) : Host.Outcome State Fault Refusal := runBody s (treeBuildBody s)

end Sys2Proof.Machine
end

