-- ==== Sys2Proof/Machine/Writer.lean ====
section
/-! DEFINITION. The BitWriter unit and its commands BW_INIT, BW_WRITE_BIT, BW_WRITE_CODE and BW_FINISH (rules R180
to R188). -/

namespace Sys2Proof.Machine

/-- Procedure `bw_init(org)` (R187). -/
def bwInit (org : Word) (s : State) : State := { s with bwOrg := org, bwTotal := 0, bwAcc := 0, bwOpen := true }

/-- The number of bits in the partial byte: `BW_TOTAL[2:0]` (R185). -/
def partialBits (s : State) : Nat := s.bwTotal.toNat % 8

/-- The partial byte with `b` in its next place, bit `7 - k` (R185). -/
def nextAcc (b : Bool) (s : State) : BitVec 8 :=
  s.bwAcc ||| (BitVec.ofBool b).setWidth 8 <<< streamBit s.bwTotal.toNat

/-- The three assignments of `bw_write_bit` after its range test (R185). -/
def pushBit (b : Bool) (s : State) : State :=
  if partialBits s = 7 then
    { putOut (writerAddr s) (nextAcc b s) s with bwAcc := 0, bwTotal := s.bwTotal + 1 }
  else { s with bwAcc := nextAcc b s, bwTotal := s.bwTotal + 1 }

/-- Procedure `bw_write_bit(b)` (R185): the bit that opens a new byte is range-checked first. -/
def bwWriteBit (b : Bool) (s : State) : Except Cause State := do
  require (partialBits s = 0 → writerAddr s < s.params.outCap) (.capacity .outOver)
  return pushBit b s

/-- Bits in order, the first one first. -/
def bwWriteBits (bs : List Bool) (s : State) : Except Cause State := bs.foldlM (fun t b => bwWriteBit b t) s

/-- Procedure `bw_write_code(sym)`: the code of `sym`, first bit first (R186). -/
def bwWriteCode (sym : Byte) (s : State) : Except Cause State := bwWriteBits (codeBits s sym) s

/-- The first component of `bw_finish()`: the valid bits of the last byte (R188). -/
def lastByteValid (total : Nat) : Nat := if total % 8 ≠ 0 then total % 8 else if total = 0 then 0 else 8

/-- The second component of `bw_finish()`: the padding bits of the last byte (R188). -/
def lastBytePad (total : Nat) : Nat := if total % 8 ≠ 0 then 8 - total % 8 else 0

/-- The effect of `bw_finish()` on the state (R188): the padded partial byte, if there is one, and BW_OPEN. -/
def bwFinish (s : State) : State :=
  if partialBits s ≠ 0 then { putOut (writerAddr s) s.bwAcc s with bwAcc := 0, bwOpen := false }
  else { s with bwOpen := false }

/-- The body of BW_INIT (R181). -/
def bwInitBody (s : State) : Except Cause State := do
  require (s.bwBase.toNat ≤ s.params.outCap) (.capacity .baseOver)
  return { bwInit s.bwBase s with outLen := s.bwBase }

/-- BW_INIT (R181). -/
def execBwInit (s : State) : Host.Outcome State Fault Refusal := runBody s (bwInitBody s)

/-- The body of BW_WRITE_BIT b (R182). -/
def bwWriteBitBody (b : Bool) (s : State) : Except Cause State := do
  require (s.bwOpen = true) (.precondition .bwNotOpen)
  bwWriteBit b s

/-- BW_WRITE_BIT b (R182). -/
def execBwWriteBit (b : Bool) (s : State) : Host.Outcome State Fault Refusal := runBody s (bwWriteBitBody b s)

/-- The body of BW_WRITE_CODE sym (R183). -/
def bwWriteCodeBody (sym : Byte) (s : State) : Except Cause State := do
  require (s.bwOpen = true) (.precondition .bwNotOpen)
  require (s.codeValid = true) (.precondition .codeNotValid)
  require (s.codeLenAt sym ≠ 0) (.precondition .noCodeForSymbol)
  bwWriteCode sym s

/-- BW_WRITE_CODE sym (R183). -/
def execBwWriteCode (sym : Byte) (s : State) : Host.Outcome State Fault Refusal :=
  runBody s (bwWriteCodeBody sym s)

/-- The body of BW_FINISH (R184). -/
def bwFinishBody (s : State) : Except Cause State := do
  require (s.bwOpen = true) (.precondition .bwNotOpen)
  let total := s.bwTotal.toNat
  return setRes [BitVec.ofNat 32 (lastByteValid total), BitVec.ofNat 32 (lastBytePad total)]
    { bwFinish s with bitCount := s.bwTotal, outLen := BitVec.ofNat 32 (s.bwOrg.toNat + ceilDiv8 total) }

/-- BW_FINISH (R184). -/
def execBwFinish (s : State) : Host.Outcome State Fault Refusal := runBody s (bwFinishBody s)

end Sys2Proof.Machine
end

