-- ==== Sys2Proof/Machine/Encoder.lean ====
section
/-! DEFINITION. The container encoder and its command COMPRESS (rules R210 to R219), over the layout of rule R110. -/

namespace Sys2Proof.Machine

/-- `sum over (s, f) in L of f × CODELEN[s]`, exact (R215, R240). -/
def bitTotal (s : State) (l : SymFreqs) : Nat := (l.map fun e => e.2.toNat * (s.codeLenAt e.1).toNat).sum

/-- One entry of the container's list: the symbol byte, then its count, little-endian (R110, R214). -/
def entryBytes (e : Byte × BitVec 32) : List Byte := e.1 :: le32Bytes e.2.toNat

/-- The container's bytes before the payload (R110): version 1, flags 0, S, the entries, B. -/
def headerBytes (l : SymFreqs) (bits : Nat) : List Byte :=
  [0x01, 0x00] ++ le32Bytes l.length ++ l.flatMap entryBytes ++ le32Bytes bits

/-- The length of that header, `10 + 5 × S` (R110). -/
def headerSize (symbols : Nat) : Nat := 10 + 5 * symbols

/-- COMPRESS of a non-empty input, once FREQ is built (R213): tree, code table, capacity test, header, payload. -/
def compressFull (s : State) : Except Cause State := do
  let l := presentSymbols s.freq
  let t := codeGen (treeBuild l s)
  let bits := bitTotal t l
  let need := headerSize l.length + ceilDiv8 bits
  require (need ≤ t.params.outCap) (.capacity .outOver)
  let u := bwInit (BitVec.ofNat 32 (headerSize l.length)) (putOutBytes 0 (headerBytes l bits) t)
  let v ← (inBytes s s.inLen.toNat).foldlM (fun x b => bwWriteCode b x) u
  return { bwFinish v with outLen := BitVec.ofNat 32 need, bitCount := BitVec.ofNat 32 bits }

/-- The body of COMPRESS (R213); an empty input gives the two bytes `01 01` (R111). -/
def compressBody (s : State) : Except Cause State := do
  let c := clearDerived s
  require (c.inLen.toNat ≤ c.params.inCap) (.capacity .inLenOver)
  let f := freqBuild c
  if f.inLen = 0 then return { putOutBytes 0 [0x01, 0x01] f with outLen := 2 }
  else compressFull f

/-- COMPRESS (R213). -/
def execCompress (s : State) : Host.Outcome State Fault Refusal := runBody s (compressBody s)

end Sys2Proof.Machine
end

