-- ==== Sys2Proof/Machine/Reader.lean ====
section
/-! DEFINITION. The BitReader unit, the walk of the tree, and the commands BR_INIT, BR_READ_BIT and BR_DECODE_SYM
(rules R190 to R198). -/

namespace Sys2Proof.Machine

/-- Procedure `br_init(org, lim)` (R196). -/
def brInit (org lim : Word) (s : State) : State := { s with brOrg := org, brLim := lim, brPos := 0, brOpen := true }

/-- The stream bit at BR_POS: bit `7 - BR_POS[2:0]` of `IN[BR_ORG + (BR_POS >> 3)]` (R193). -/
def readerBit (s : State) : Bool := (s.inAt (readerAddr s)).getLsbD (streamBit s.brPos.toNat)

/-- `BR_POS <- BR_POS + 1` (R193). -/
def skipBit (s : State) : State := { s with brPos := s.brPos + 1 }

/-- Procedure `br_read_bit()` (R193). -/
def brReadBit (s : State) : Except Cause (Bool × State) := do
  require (s.brPos < s.brLim) .endOfStream
  return (readerBit s, skipBit s)

/-- The loop of `walk_symbol()` (R194) at node `cur` with `n` bits read. Each pass reads one bit, so the bits left in
the stream bound it: with none left, the read of an internal node's bit raises EndOfStreamError. -/
def walkFrom : Nat → Handle → Nat → State → Except Cause (Byte × Nat × State)
  | 0, cur, n, s =>
    if (s.nodeAt cur).isLeaf then .ok ((s.nodeAt cur).sym, n, s) else .error .endOfStream
  | left + 1, cur, n, s =>
    if (s.nodeAt cur).isLeaf then .ok ((s.nodeAt cur).sym, n, s)
    else do
      let (b, t) ← brReadBit s
      walkFrom left (if b then (s.nodeAt cur).right else (s.nodeAt cur).left) (n + 1) t

/-- Procedure `walk_symbol()` (R194): the symbol, the number of bits read, and the state after. -/
def walkSymbol (s : State) : Except Cause (Byte × Nat × State) :=
  if (s.nodeAt s.root).isLeaf then do
    let (b, t) ← brReadBit s
    require (b = false) (.corruptHeader .invalidCode)
    return ((s.nodeAt s.root).sym, 1, t)
  else walkFrom (s.brLim.toNat - s.brPos.toNat) s.root 0 s

/-- The body of BR_INIT (R191). -/
def brInitBody (s : State) : Except Cause State := do
  require (s.inLen.toNat ≤ s.params.inCap) (.capacity .inLenOver)
  require (s.brBase.toNat + ceilDiv8 s.brLimit.toNat ≤ s.inLen.toNat) (.precondition .brRange)
  return brInit s.brBase s.brLimit s

/-- BR_INIT (R191). -/
def execBrInit (s : State) : Host.Outcome State Fault Refusal := runBody s (brInitBody s)

/-- The body of BR_READ_BIT (R192). -/
def brReadBitBody (s : State) : Except Cause State := do
  require (s.brOpen = true) (.precondition .brNotOpen)
  let (b, t) ← brReadBit s
  return setRes [(BitVec.ofBool b).setWidth 32] t

/-- BR_READ_BIT (R192). -/
def execBrReadBit (s : State) : Host.Outcome State Fault Refusal := runBody s (brReadBitBody s)

/-- The body of BR_DECODE_SYM (R195). -/
def brDecodeSymBody (s : State) : Except Cause State := do
  require (s.brOpen = true) (.precondition .brNotOpen)
  require (s.treeValid = true) (.precondition .treeNotValid)
  let (sym, n, t) ← walkSymbol s
  return setRes [sym.setWidth 32, BitVec.ofNat 32 n] t

/-- BR_DECODE_SYM (R195). -/
def execBrDecodeSym (s : State) : Host.Outcome State Fault Refusal := runBody s (brDecodeSymBody s)

end Sys2Proof.Machine
end

