-- ==== Sys2Proof/Machine/Decoder.lean ====
section
/-! DEFINITION. The container decoder and its command DECOMPRESS (rules R230 to R249). The tests stand in the order of
rule R233. -/

namespace Sys2Proof.Machine

/-- Entry `i` of the header (R233, stage 2): the symbol and count, tested against the entries before it, appended. -/
def entryStep (s : State) (l : SymFreqs) (i : Nat) : Except Cause SymFreqs := do
  let sym := s.inAt (6 + 5 * i)
  let f := le32In s (7 + 5 * i)
  require (¬ ∃ e ∈ l, e.1 = sym) (.corruptHeader .dupSymbol)
  require (f ≠ 0) (.corruptHeader .zeroFreq)
  return l ++ [(sym, BitVec.ofNat 32 f)]

/-- The (symbol, frequency) list of the header, in the order listed (R233, R235). -/
def parseEntries (s : State) (symbols : Nat) : Except Cause SymFreqs :=
  (List.range symbols).foldlM (entryStep s) []

/-- FREQ as stage 2 of rule R233 leaves it: 0 but for the entries. -/
def freqOfEntries (l : SymFreqs) : Vector (BitVec 32) 256 :=
  l.foldl (fun f e => f.set e.1.toNat e.2) (Vector.replicate 256 0)

/-- The declared output length: the sum of the counts, exact (R233, R242). -/
def declaredLength (l : SymFreqs) : Nat := (l.map fun e => e.2.toNat).sum

/-- The decoder boundary (R244): inside DECOMPRESS an EndOfStreamError is reported as
TruncatedPayloadError(ENDS_MID_CODE). -/
def decoderBoundary (c : Cause) : Cause :=
  match c with
  | .endOfStream => .truncatedPayload .endsMidCode
  | .emptyInput => .emptyInput
  | .corruptHeader sub => .corruptHeader sub
  | .truncatedPayload sub => .truncatedPayload sub
  | .illegalCommand why => .illegalCommand why
  | .capacity sub => .capacity sub
  | .precondition sub => .precondition sub

/-- The decode loop (R233, stage 4; R243) with `k` symbols out of N emitted and `left = N - k` to go: the symbols
emitted when the bits are exhausted, and the state. -/
def decodeLoop : Nat → Nat → State → Except Cause (Nat × State)
  | 0, k, s => if s.brPos < s.brLim then .error (.corruptHeader .countMismatch) else .ok (k, s)
  | left + 1, k, s =>
    if s.brPos < s.brLim then do
      let (sym, _, t) ← (walkSymbol s).mapError decoderBoundary
      decodeLoop left (k + 1) (putOut k sym t)
    else .ok (k, s)

/-- Stages 3 and 4 of rule R233 for a container of `n` bytes whose entries are `l`. -/
def decompressPayload (n : Nat) (l : SymFreqs) (s : State) : Except Cause State := do
  let bits := le32In s (6 + 5 * l.length)
  let t := codeGen (treeBuild l { s with freq := freqOfEntries l })
  require (bits = bitTotal t l) (.corruptHeader .bitcountMismatch)
  require (ceilDiv8 bits ≤ n - headerSize l.length) (.truncatedPayload .payloadBytesShort)
  require (n - headerSize l.length ≤ ceilDiv8 bits) (.corruptHeader .trailingBytes)
  require (declaredLength l ≤ t.params.outCap) (.capacity .outOver)
  let u := brInit (BitVec.ofNat 32 (headerSize l.length)) (BitVec.ofNat 32 bits)
    { t with freqValid := true, symCount := BitVec.ofNat 9 l.length, bitCount := BitVec.ofNat 32 bits }
  let (k, v) ← decodeLoop (declaredLength l) 0 u
  require (k = declaredLength l) (.corruptHeader .countMismatch)
  return { v with outLen := BitVec.ofNat 32 k, brOpen := false }

/-- Stage 1 after the flag byte, and stage 2, for a non-empty container of `n` bytes (R233). -/
def decompressFull (n : Nat) (s : State) : Except Cause State := do
  require (6 ≤ n) (.corruptHeader .hdrShort)
  let symbols := le32In s 2
  require (1 ≤ symbols ∧ symbols ≤ 256) (.corruptHeader .badCount)
  require (headerSize symbols ≤ n) (.corruptHeader .hdrShort)
  let l ← parseEntries s symbols
  decompressPayload n l s

/-- The body of DECOMPRESS (R233); the empty container gives the empty sequence (R238). -/
def decompressBody (s : State) : Except Cause State := do
  let c := clearDerived s
  require (c.inLen.toNat ≤ c.params.inCap) (.capacity .inLenOver)
  let n := c.inLen.toNat
  require (2 ≤ n) (.corruptHeader .hdrShort)
  require (c.inAt 0 = 0x01) (.corruptHeader .badVersion)
  require ((c.inAt 1).extractLsb' 1 7 = 0) (.corruptHeader .badFlags)
  if (c.inAt 1).getLsbD 0 then do
    require (n = 2) (.corruptHeader .trailingBytes)
    return { c with freq := Vector.replicate 256 0, freqValid := true }
  else decompressFull n c

/-- DECOMPRESS (R233). -/
def execDecompress (s : State) : Host.Outcome State Fault Refusal := runBody s (decompressBody s)

end Sys2Proof.Machine
end

