-- ==== Sys2Proof/Machine/System.lean ====
section
/-! DEFINITION. The system commands NOP, CLEAR, TBL_READ and NODE_READ (rules R261 to R264). -/

namespace Sys2Proof.Machine

/-- NOP: "(nothing)" (R261). -/
def execNop (s : State) : Host.Outcome State Fault Refusal := runBody s (.ok s)

/-- CLEAR: `clear_derived(); RES[0..9] <- 0` (R262). -/
def execClear (s : State) : Host.Outcome State Fault Refusal := runBody s (.ok (setRes [] (clearDerived s)))

/-- Word `j` of CODEVAL as a 256-bit number: bits `32j + 31` down to `32j`; bit 255 reads 0 (R263). -/
def codeValWord (v : CodeBits) (j : Nat) : Word := (v.setWidth 256).extractLsb' (32 * j) 32

/-- The ten values of TBL_READ; a table whose flag is 0 reads as zeros (R263). -/
def tblReadValues (s : State) (sym : Byte) : List Word :=
  (if s.freqValid then s.freqAt sym else 0) ::
  (if s.codeValid then (s.codeLenAt sym).setWidth 32 else 0) ::
  (List.range 8).map fun j => if s.codeValid then codeValWord (s.codeValAt sym) j else 0

/-- TBL_READ sym (R263). -/
def execTblRead (sym : Byte) (s : State) : Host.Outcome State Fault Refusal :=
  runBody s (.ok (setRes (tblReadValues s sym) s))

/-- The values of NODE_READ for one arena entry, RES[0] to RES[3] (R264). -/
def nodeReadValues (n : Node) : List Word :=
  [n.weight.extractLsb' 0 32,
   (n.weight.extractLsb' 32 8).setWidth 32,
   (BitVec.ofBool n.isLeaf).setWidth 32 ||| n.sym.setWidth 32 <<< 8,
   n.left.setWidth 32 ||| n.right.setWidth 32 <<< 16]

/-- The body of NODE_READ h (R264). -/
def nodeReadBody (h : Handle) (s : State) : Except Cause State := do
  require (s.treeValid = true) (.precondition .treeNotValid)
  require (h < s.nodeCount) (.precondition .badNodeIndex)
  return setRes (nodeReadValues (s.nodeAt h)) s

/-- NODE_READ h (R264). -/
def execNodeRead (h : Handle) (s : State) : Host.Outcome State Fault Refusal := runBody s (nodeReadBody h s)

end Sys2Proof.Machine
end

