-- ==== Sys2Proof/Machine/Dispatch.lean ====
section
/-! DEFINITION. `exec(PEND)` of rule R27: one arm per command, each one call of its meaning. -/

namespace Sys2Proof.Machine

def exec (i : Instr) (s : State) : Host.Outcome State Fault Refusal :=
  match i with
  | .nop => Sys2Proof.Machine.execNop s
  | .clear => Sys2Proof.Machine.execClear s
  | .tblRead sym => Sys2Proof.Machine.execTblRead sym s
  | .nodeRead h => Sys2Proof.Machine.execNodeRead h s
  | .freqBuild => Sys2Proof.Machine.execFreqBuild s
  | .treeBuild => Sys2Proof.Machine.execTreeBuild s
  | .codeGen => Sys2Proof.Machine.execCodeGen s
  | .bwInit => Sys2Proof.Machine.execBwInit s
  | .bwWriteBit b => Sys2Proof.Machine.execBwWriteBit b s
  | .bwWriteCode sym => Sys2Proof.Machine.execBwWriteCode sym s
  | .bwFinish => Sys2Proof.Machine.execBwFinish s
  | .brInit => Sys2Proof.Machine.execBrInit s
  | .brReadBit => Sys2Proof.Machine.execBrReadBit s
  | .brDecodeSym => Sys2Proof.Machine.execBrDecodeSym s
  | .compress => Sys2Proof.Machine.execCompress s
  | .decompress => Sys2Proof.Machine.execDecompress s

end Sys2Proof.Machine
end

