-- ==== Sys2Proof/Machine/Sequencer.lean ====
section
/-! DEFINITION. The HFC's one move, the complete step (rules R27, R104). -/

namespace Sys2Proof.Machine

/-- `exec(PEND)` (R27): the decoded command, or error entry with IllegalCommandError (R104, R105). -/
def execPending (s : State) : Host.Outcome State Fault Refusal :=
  match decode s.pend with
  | .ok i => exec i s
  | .error why => runBody s (.error (.illegalCommand why))

/-- What the complete step adds after `exec(PEND)` (R27). -/
def thenComplete (r : Host.Outcome State Fault Refusal) : Host.Outcome State Fault Refusal :=
  match r with
  | .next t => .next (complete t)
  | .fault f => .fault f
  | .refused f => .refused f

/-- The HFC's move: the complete step while SEQ = EXEC; while SEQ = IDLE "it does nothing until the next CMD write"
(R27, R306). -/
def hfcStep (s : State) : Host.Outcome State Fault Refusal :=
  match s.seq with
  | .idle => .next s
  | .exec => thenComplete (execPending s)

/-- The platform's move `Reset` (R320): the table of rule R56 for the same instance, whatever the state. -/
def resetStep (s : State) : State := State.afterReset s.params s.draw s.agenda

/-- The accept step of `w` with the HFC scheduled next: what makes the very next step run the command `w`. -/
def acceptAndRun (w : Word) (s : State) : State :=
  { accept w s with agenda := Move.hfc :: s.agenda }

end Sys2Proof.Machine
end

