-- ==== Sys2Proof/Machine/Step.lean ====
section
/-! DEFINITION. One step of the machine: the next move of the agenda, by the agent it names (rule R76). With no move
left the HFC moves, so that a command once accepted completes (rule R334). -/

namespace Sys2Proof.Machine

/-- The state without the move about to be made. -/
def State.popMove (s : State) : State := { s with agenda := s.agenda.tail }

/-- One step (R76): a host move, a reset, or the HFC's move. -/
def step (s : State) : Host.Outcome State Fault Refusal :=
  match s.agenda with
  | [] => hfcStep s
  | .hfc :: _ => hfcStep s.popMove
  | .host m :: _ => hostStep m s.popMove
  | .bus x :: _ => busStep x s.popMove
  | .reset :: _ => .next (resetStep s.popMove)

/-- `s` with the table row's word accepted into PEND and the HFC to move next: the HFC fetches nothing, and a command
comes from the host's write to CMD (R27, R90; log 4). -/
def State.withFetchWord (s : State) (nbits w : Nat) : State := acceptAndRun (BitVec.ofNat 32 (w % 2 ^ nbits)) s

end Sys2Proof.Machine
end

