-- ==== Sys2Proof/Safety.lean ====
section
/-! DEFINITION. What claims about the HFC are stated in: the code of a symbol as a path of the tree (R171, R173), the
bits of a stream (R78), and the invariant of every safe run, put together from the invariants the spec states for
the flags (R46), the tables (R48 to R50), the streams (R51, R52) and the buffers (R53, R82). -/

namespace Sys2Proof.Machine

/-! ## Codes as paths -/

/-- The child bit `b` leads to: LEFT on 0, RIGHT on 1 (R117). -/
def childOf (n : Node) (b : Bool) : Handle := if b then n.right else n.left

/-- The bits `p` lead from the node `h` to the node `g`, through internal nodes. -/
def leadsTo (s : State) : Handle → List Bool → Handle → Prop
  | h, [], g => h = g
  | h, b :: rest, g => (s.nodeAt h).isLeaf = false ∧ leadsTo s (childOf (s.nodeAt h) b) rest g

/-- `p` is the code of `sym` in the tree of `s`: the path from ROOT to its leaf (R171), or "0" where ROOT is that leaf
(R173). -/
def isCodeOf (s : State) (p : List Bool) (sym : Byte) : Prop :=
  if (s.nodeAt s.root).isLeaf then p = [false] ∧ (s.nodeAt s.root).sym = sym
  else ∃ g, leadsTo s s.root p g ∧ (s.nodeAt g).isLeaf = true ∧ (s.nodeAt g).sym = sym

/-- `val(c)` of rule R11: the number whose binary numeral is the code. -/
def codeValue (p : List Bool) : Nat := p.foldl (fun v b => 2 * v + b.toNat) 0

/-! ## Streams -/

/-- Stream bit `k` of a stream of IN that starts at `org` (R78). -/
def inStreamBit (s : State) (org k : Nat) : Bool := (s.inAt (streamByte org k)).getLsbD (streamBit k)

/-- Stream bit `k` of a stream of OUT that starts at `org` (R78). -/
def outStreamBit (s : State) (org k : Nat) : Bool := (s.outAt (streamByte org k)).getLsbD (streamBit k)

/-- Bit `k` of the open writer stream: in OUT once its byte is complete, in BW_ACC before (R51). -/
def writtenBit (s : State) (k : Nat) : Bool :=
  if k / 8 < s.bwTotal.toNat / 8 then outStreamBit s s.bwOrg.toNat k else s.bwAcc.getLsbD (streamBit k)

/-- `le32(OUT, a)` (R12, R77). -/
def le32Out (s : State) (a : Nat) : Nat :=
  (s.outAt a).toNat + 256 * (s.outAt (a + 1)).toNat + 65536 * (s.outAt (a + 2)).toNat +
    16777216 * (s.outAt (a + 3)).toNat

/-! ## Errors -/

/-- `t` is `s` after `clear_derived()` (R287): the flags and lengths are 0, the tables, the streams' hidden state and
OUT hold any value, and nothing else differs but the model's draw counter (log 3). -/
def discarded (s t : State) : Prop :=
  t = { s with
    freqValid := false, treeValid := false, codeValid := false, bwOpen := false, brOpen := false
    outLen := 0, symCount := 0, bitCount := 0, nodeCount := 0, root := 0, bwTotal := 0, brPos := 0
    freq := t.freq, node := t.node, codeLen := t.codeLen, codeVal := t.codeVal
    bwOrg := t.bwOrg, bwAcc := t.bwAcc, brOrg := t.brOrg, brLim := t.brLim, outBuf := t.outBuf, draw := t.draw }

/-- The command `i` in the state `s` does error entry with this ERRCODE and ERRINFO (R281, R282, R288). -/
def raises (i : Instr) (s : State) (code : BitVec 4) (info : BitVec 8) : Prop :=
  ∃ t, exec i s = .next { t with err := true, errCode := code, errInfo := info } ∧ discarded s t

/-- The (ERRCODE, ERRINFO) pairs of rule R289's table, with the numbers of rule R282. -/
def errorsOf (i : Instr) : List (BitVec 4 × BitVec 8) :=
  match i with
  | .nop => []
  | .clear => []
  | .tblRead _ => []
  | .nodeRead _ => [(7, 2), (7, 7)]
  | .freqBuild => [(6, 1)]
  | .treeBuild => [(7, 1), (1, 0)]
  | .codeGen => [(7, 2)]
  | .bwInit => [(6, 3)]
  | .bwWriteBit _ => [(7, 4), (6, 2)]
  | .bwWriteCode _ => [(7, 4), (7, 3), (7, 6), (6, 2)]
  | .bwFinish => [(7, 4)]
  | .brInit => [(6, 1), (7, 8)]
  | .brReadBit => [(7, 5), (4, 0)]
  | .brDecodeSym => [(7, 5), (7, 2), (4, 0), (2, 10)]
  | .compress => [(6, 1), (6, 2)]
  | .decompress =>
    [(6, 1), (2, 1), (2, 2), (2, 3), (2, 8), (2, 4), (2, 5), (2, 6), (2, 7), (3, 1), (6, 2), (2, 9), (2, 10), (3, 2)]

/-! ## The tree as the rules describe it -/

/-- The node `m` has the child `x` (R49). -/
def hasChild (s : State) (m x : Handle) : Prop :=
  (s.nodeAt m).isLeaf = false ∧ ((s.nodeAt m).left = x ∨ (s.nodeAt m).right = x)

/-- `x` is in Q when the node `m` is created: it exists, and no earlier node has extracted it (R152). -/
def inQueue (s : State) (m x : Handle) : Prop := x < m ∧ ∀ m' < m, ¬ hasChild s m' x

/-- `x` comes before `y` (R153). -/
def precedes (s : State) (x y : Handle) : Prop :=
  (s.nodeAt x).weight < (s.nodeAt y).weight ∨ ((s.nodeAt x).weight = (s.nodeAt y).weight ∧ x < y)

/-- NODE, NODE_COUNT and ROOT hold the result of `tree_build(L)` (R152, R153, R155, R156). -/
structure MergedFrom (l : List (Byte × BitVec 32)) (s : State) : Prop where
  /-- NODE_COUNT = 2K - 1. -/
  count : s.nodeCount.toNat = 2 * l.length - 1
  /-- ROOT = 2K - 2. -/
  root : s.root.toNat = 2 * l.length - 2
  /-- Entry i of the list is the leaf with handle i. -/
  leaf : ∀ i (h : i < l.length), s.nodeAt (BitVec.ofNat 9 i) =
    { isLeaf := true, sym := l[i].1, weight := l[i].2.setWidth 40, left := 0x1FF, right := 0x1FF }
  /-- Every further node, in the order of creation, combines the two elements of Q least in the order of rule R153:
  the least as LEFT, the next as RIGHT. -/
  merge : ∀ m : Handle, l.length ≤ m.toNat → m.toNat < 2 * l.length - 1 →
    (s.nodeAt m).isLeaf = false ∧ (s.nodeAt m).sym = 0 ∧
    (s.nodeAt m).weight.toNat =
      (s.nodeAt (s.nodeAt m).left).weight.toNat + (s.nodeAt (s.nodeAt m).right).weight.toNat ∧
    inQueue s m (s.nodeAt m).left ∧ inQueue s m (s.nodeAt m).right ∧ (s.nodeAt m).left ≠ (s.nodeAt m).right ∧
    ∀ x, inQueue s m x → (x ≠ (s.nodeAt m).left → precedes s (s.nodeAt m).left x) ∧
      (x ≠ (s.nodeAt m).left → x ≠ (s.nodeAt m).right → precedes s (s.nodeAt m).right x)

/-- `l` lists the present symbols of `s` with their counts, in ascending symbol value (R143, R154). -/
def listsPresent (l : List (Byte × BitVec 32)) (s : State) : Prop :=
  (l.Pairwise fun x y => x.1 < y.1) ∧ ∀ e, e ∈ l ↔ s.freqAt e.1 = e.2 ∧ e.2 ≠ 0

/-! ## Containers -/

/-- The code of each symbol in the tree of the list `l`, as the machine builds it (R152, R174); the state plays no part
in it (R153). -/
def listCode (l : List (Byte × BitVec 32)) (s : State) (sym : Byte) : List Bool :=
  codeBits (codeGen (treeBuild l s)) sym

/-- `E` of rule R240 for the list `l`: the sum of the counts times the lengths of the codes. -/
def listBits (l : List (Byte × BitVec 32)) (s : State) : Nat :=
  (l.map fun e => e.2.toNat * (listCode l s e.1).length).sum

/-- The (symbol, count) list COMPRESS builds from the input of `s` (R213). -/
def inputList (s : State) : List (Byte × BitVec 32) := presentSymbols (countBytes (inBytes s s.inLen.toNat))

/-- `need` of rule R213 for the input of `s`. -/
def compressedSize (s : State) : Nat :=
  10 + 5 * (inputList s).length + ceilDiv8 (listBits (inputList s) s)

/-- IN holds a non-empty container whose fixed header and whose entries `l` pass the tests 1 to 10 of rule R248. -/
structure HeaderOk (s : State) (l : List (Byte × BitVec 32)) : Prop where
  /-- Test 1. -/
  fits : s.inLen.toNat ≤ s.params.inCap
  /-- Test 3. -/
  version : s.inAt 0 = 1
  /-- Test 4, and emptyInput = 0. -/
  flags : s.inAt 1 = 0
  /-- Test 7. -/
  symbols : 1 ≤ l.length ∧ l.length ≤ 256 ∧ le32In s 2 = l.length
  /-- Tests 2, 6 and 8. -/
  long : 10 + 5 * l.length ≤ s.inLen.toNat
  /-- The entries (R110). -/
  entries : ∀ i (h : i < l.length), s.inAt (6 + 5 * i) = l[i].1 ∧ le32In s (7 + 5 * i) = l[i].2.toNat
  /-- Test 9. -/
  distinct : l.Pairwise fun x y => x.1 ≠ y.1
  /-- Test 10. -/
  nonzero : ∀ e ∈ l, e.2 ≠ 0

/-- IN holds a non-empty container that passes the tests 1 to 14 of rule R248. -/
structure ContainerOk (s : State) (l : List (Byte × BitVec 32)) : Prop where
  header : HeaderOk s l
  /-- Test 11. -/
  bits : le32In s (6 + 5 * l.length) = listBits l s
  /-- Tests 12 and 13. -/
  size : s.inLen.toNat = 10 + 5 * l.length + ceilDiv8 (listBits l s)
  /-- Test 14. -/
  room : (l.map fun e => e.2.toNat).sum ≤ s.params.outCap

/-- The payload bits of a non-empty container with the entries `l`: the B bits from offset 10 + 5S on (R110, R116). -/
def payloadOf (s : State) (l : List (Byte × BitVec 32)) : List Bool :=
  (List.range (listBits l s)).map fun k => inStreamBit s (10 + 5 * l.length) k

/-! ## Sequences of commands -/

/-- The commands, one after another, lead from `s` to `t` (R221). -/
def runsTo : List Instr → State → State → Prop
  | [], s, t => s = t
  | i :: rest, s, t => ∃ u, exec i s = .next u ∧ runsTo rest u t

/-! ## The invariant -/

/-- The arena of a valid tree with `k` leaves (R49): the sizes, the leaves, the internal nodes, and one parent each. -/
structure TreeShape (s : State) (k : Nat) : Prop where
  /-- 1 ≤ K ≤ 256 (R152). -/
  leaves : 1 ≤ k ∧ k ≤ 256
  /-- NODE_COUNT = 2K - 1. -/
  count : s.nodeCount.toNat = 2 * k - 1
  /-- ROOT = NODE_COUNT - 1. -/
  rootLast : s.root.toNat = 2 * k - 2
  /-- Handles 0..K-1 are leaves; each holds a present symbol and its frequency, and no children. -/
  leaf : ∀ h : Handle, h.toNat < k → (s.nodeAt h).isLeaf = true ∧ (s.nodeAt h).left = noHandle ∧
    (s.nodeAt h).right = noHandle ∧ (s.nodeAt h).weight.toNat = (s.freqAt (s.nodeAt h).sym).toNat ∧
    s.freqAt (s.nodeAt h).sym ≠ 0
  /-- No two leaves hold the same symbol. -/
  distinct : ∀ h g : Handle, h.toNat < k → g.toNat < k → (s.nodeAt h).sym = (s.nodeAt g).sym → h = g
  /-- Every present symbol has a leaf. -/
  covers : ∀ sym : Byte, s.freqAt sym ≠ 0 → ∃ h : Handle, h.toNat < k ∧ (s.nodeAt h).sym = sym
  /-- Handles K..2K-2 are internal; the children have smaller handles, and the weight is the sum of theirs. -/
  internal : ∀ h : Handle, k ≤ h.toNat → h.toNat < 2 * k - 1 → (s.nodeAt h).isLeaf = false ∧ (s.nodeAt h).sym = 0 ∧
    (s.nodeAt h).left < h ∧ (s.nodeAt h).right < h ∧ (s.nodeAt h).left ≠ (s.nodeAt h).right ∧
    (s.nodeAt h).weight = (s.nodeAt (s.nodeAt h).left).weight + (s.nodeAt (s.nodeAt h).right).weight
  /-- Every node but ROOT is the child of exactly one node. -/
  parent : ∀ h : Handle, h.toNat < 2 * k - 2 → ∃ p : Handle, (k ≤ p.toNat ∧ p.toNat < 2 * k - 1 ∧
    ((s.nodeAt p).left = h ∨ (s.nodeAt p).right = h)) ∧
    ∀ q : Handle, k ≤ q.toNat → q.toNat < 2 * k - 1 → ((s.nodeAt q).left = h ∨ (s.nodeAt q).right = h) → q = p

/-- CODELEN and CODEVAL hold the code of `sym` in the tree, or 0 and 0 where it has none (R50, R174). -/
def codeEntryOk (s : State) (sym : Byte) : Prop :=
  (∃ p, isCodeOf s p sym ∧ (s.codeLenAt sym).toNat = p.length ∧ (s.codeValAt sym).toNat = codeValue p) ∨
  ((∀ p, ¬ isCodeOf s p sym) ∧ s.codeLenAt sym = 0 ∧ s.codeValAt sym = 0)

/-- The writer's state while a stream is open (R51): the bytes opened lie below OUT_CAP, and the bits of BW_ACC after
the partial byte's are 0. -/
structure WriterOk (s : State) : Prop where
  /-- `BW_ORG + ceil(BW_TOTAL/8) ≤ OUT_CAP`. -/
  fits : s.bwOrg.toNat + ceilDiv8 s.bwTotal.toNat ≤ s.params.outCap
  /-- Bits `7 - BW_TOTAL[2:0]` down to 0 of BW_ACC are 0. -/
  clear : ∀ i, i + partialBits s < 8 → s.bwAcc.getLsbD i = false

/-- The reader's state while a stream is open (R52). -/
structure ReaderOk (s : State) : Prop where
  /-- `BR_POS ≤ BR_LIM`. -/
  within : s.brPos.toNat ≤ s.brLim.toNat
  /-- `BR_ORG + ceil(BR_LIM/8) ≤ IN_CAP`. -/
  fits : s.brOrg.toNat + ceilDiv8 s.brLim.toNat ≤ s.params.inCap

/-- What every step of the machine keeps. -/
structure Invariant (s : State) : Prop where
  /-- IN is in canonical form and within IN_CAP. -/
  inBuf : s.inBuf.wf ∧ s.inBuf.below s.params.inCap
  /-- OUT is in canonical form and within OUT_CAP. -/
  outBuf : s.outBuf.wf ∧ s.outBuf.below s.params.outCap
  /-- While a command executes DONE and ERR are 0 (R27, R33). -/
  busy : s.seq = .exec → s.done = false ∧ s.err = false
  /-- "ERR = 1 exactly when ERRCODE ≠ 0" (R33). -/
  errBit : s.err = true ↔ s.errCode ≠ 0
  /-- ERRCODE and ERRINFO hold 0 and 0 or a pair of rule R282. -/
  errPair : (s.errCode = 0 ∧ s.errInfo = 0) ∨ ∃ c, s.errCode = errorCode c ∧ s.errInfo = errorInfo c
  /-- "CODE_VALID = 1 implies TREE_VALID = 1, which implies FREQ_VALID = 1" (R46). -/
  flags : (s.codeValid = true → s.treeValid = true) ∧ (s.treeValid = true → s.freqValid = true)
  /-- SYM_COUNT counts the present symbols (R39). -/
  freq : s.freqValid = true → s.symCount.toNat = symbolCount s.freq
  /-- The arena is a tree built from FREQ (R46, R49). -/
  tree : s.treeValid = true → TreeShape s s.symCount.toNat
  /-- CODE is the code table of the tree (R46, R50). -/
  code : s.codeValid = true → ∀ sym, codeEntryOk s sym
  /-- The open writer stream (R51). -/
  writer : s.bwOpen = true → WriterOk s
  /-- The open reader stream (R52). -/
  reader : s.brOpen = true → ReaderOk s

end Sys2Proof.Machine
end

