-- ==== Sys2Proof/Certificates/Slice0/Obligations.lean ====
section
/-! DEFINITION. The statements for the provers: the command words, the handshake and the host's moves, reset, the error
entry, one statement at least for each of the 16 commands, the properties of the whole block, and the parameters and
the host's addresses.

An equation `t = { s with f := t.f, … }` in a statement is its frame: the listed fields alone may differ. The fields
`draw`, `agenda` and `resp` are the model's own (logs 3 to 5), and no rule of the spec speaks of them. -/

open Sys2Proof Sys2Proof.Machine

/-! ## Command words -/

/-- Some words of rule R103, written out bit by bit. -/
def Obligations.SomeWordsDecode : Prop :=
  decode 0x00000000 = .ok .nop ∧ decode 0x00000001 = .ok .clear ∧
  decode 0b00000000000000000110001100000010 = .ok (.tblRead 0x63) ∧
  decode 0b00000000000000011111111000000011 = .ok (.nodeRead 510) ∧
  decode 0x00000010 = .ok .freqBuild ∧ decode 0x00000011 = .ok .treeBuild ∧ decode 0x00000012 = .ok .codeGen ∧
  decode 0b00000000000000000000000100100001 = .ok (.bwWriteBit true) ∧
  decode 0b00000000000000000110000100100010 = .ok (.bwWriteCode 0x61) ∧
  decode 0x00000023 = .ok .bwFinish ∧ decode 0x00000032 = .ok .brDecodeSym ∧
  decode 0x00000040 = .ok .compress ∧ decode 0x00000041 = .ok .decompress ∧
  decode 0x00000042 = .error .badOpcode ∧ decode 0x00000100 = .error .reservedBits

/-- The opcode map of rule R103: every word of every command, and no command at any other OPC. -/
def Obligations.OpcodeMap : Prop :=
  decode 0x00 = .ok .nop ∧ decode 0x01 = .ok .clear ∧
  (∀ sym : Byte, decode (0x02 ||| sym.setWidth 32 <<< 8) = .ok (.tblRead sym)) ∧
  (∀ h : Handle, decode (0x03 ||| h.setWidth 32 <<< 8) = .ok (.nodeRead h)) ∧
  decode 0x10 = .ok .freqBuild ∧ decode 0x11 = .ok .treeBuild ∧ decode 0x12 = .ok .codeGen ∧
  decode 0x20 = .ok .bwInit ∧
  decode 0x21 = .ok (.bwWriteBit false) ∧ decode 0x121 = .ok (.bwWriteBit true) ∧
  (∀ sym : Byte, decode (0x22 ||| sym.setWidth 32 <<< 8) = .ok (.bwWriteCode sym)) ∧
  decode 0x23 = .ok .bwFinish ∧ decode 0x30 = .ok .brInit ∧ decode 0x31 = .ok .brReadBit ∧
  decode 0x32 = .ok .brDecodeSym ∧ decode 0x40 = .ok .compress ∧ decode 0x41 = .ok .decompress ∧
  ∀ w : Word,
    w.toNat % 256 ∉ [0x00, 0x01, 0x02, 0x03, 0x10, 0x11, 0x12, 0x20, 0x21, 0x22, 0x23, 0x30, 0x31, 0x32, 0x40, 0x41] →
    ∀ i, decode w ≠ .ok i

/-- Decoding and encoding are inverse to each other: every instruction has exactly one word. -/
def Obligations.DecodeAndEncodeAgree : Prop := ∀ (w : Word) (i : Instr), decode w = .ok i ↔ w = encode i

/-- The decoder is total and rejects by the first failing test (R104): a word is a command exactly when it is well
formed; BAD_OPCODE exactly when OPC is none of the 16; RESERVED_BITS exactly when OPC is one of them and RSV, or an
ARG bit the command does not use, is not 0. -/
def Obligations.DecoderRejectsByTheFirstFailingTest : Prop :=
  ∀ w : Word,
    ((∃ i, decode w = .ok i) ↔ (Cmd.ofWord w).wellFormed = true) ∧
    (decode w = .error .badOpcode ↔ (Cmd.ofWord w).opcodeOk = false) ∧
    (decode w = .error .reservedBits ↔ (Cmd.ofWord w).opcodeOk = true ∧
      (w.toNat / 0x1000000 ≠ 0 ∨ BitVec.ofNat 16 (w.toNat / 0x100) &&& ~~~ (Cmd.usedArgBits (BitVec.ofNat 8 w.toNat)) ≠ 0))

/-! ## The handshake -/

/-- The complete step (R27) runs the command PEND decodes to, then sets SEQ to IDLE and DONE to 1; a word that decodes
to no command does error entry with IllegalCommandError (R104); while SEQ = IDLE the HFC does nothing. The move the
agenda schedules is used up (log 4). -/
def Obligations.StepRunsTheAcceptedCommand : Prop :=
  ∀ s : State, (s.agenda = [] ∨ ∃ rest, s.agenda = .hfc :: rest) →
    (s.seq = .idle → step s = .next { s with agenda := s.agenda.tail }) ∧
    (s.seq = .exec →
      (∀ i, decode s.pend = .ok i → ∃ t, exec i { s with agenda := s.agenda.tail } = .next t ∧
        step s = .next { t with seq := .idle, done := true }) ∧
      (∀ why, decode s.pend = .error why → ∃ t, discarded { s with agenda := s.agenda.tail } t ∧
        step s = .next { t with
          err := true, errCode := 5, errInfo := if why = .badOpcode then 1 else 2, seq := .idle, done := true }))

/-- A write to CMD is the accept step while SEQ = IDLE (R27); while SEQ = EXEC it is dropped and sets OVR (R28). -/
def Obligations.CommandWriteIsAcceptedOrDropped : Prop :=
  ∀ (s : State) (w : Word) (rest : List Move), s.agenda = .host (.regWrite 0x0C w) :: rest →
    (s.seq = .idle → step s = .next { s with
      agenda := rest, pend := w, seq := .exec, done := false, err := false, errCode := 0, errInfo := 0 }) ∧
    (s.seq = .exec → step s = .next { s with agenda := rest, ovr := true })

/-- Every accepted command completes (R334): the HFC's move in EXEC answers a next state with SEQ = IDLE and DONE = 1,
whatever the command word; `irq` is then CTRL.IE (R55, R292). -/
def Obligations.EveryAcceptedCommandCompletes : Prop :=
  ∀ s : State, (s.agenda = [] ∨ ∃ rest, s.agenda = .hfc :: rest) → s.seq = .exec →
    ∃ t, step s = .next t ∧ t.seq = .idle ∧ t.done = true ∧ t.pend = s.pend ∧ irq t = s.ie

/-- `irq = CTRL.IE and STATUS.DONE` (R55), and it follows the writes that change them: a write to CTRL, a write of 1 to
STATUS bit 1 while SEQ = IDLE, and the accept step. -/
def Obligations.InterruptLineFollowsItsBits : Prop :=
  ∀ (s : State) (rest : List Move) (v : Word),
    (irq s = true ↔ s.ie = true ∧ s.done = true) ∧
    (s.agenda = .host (.regWrite 0x04 v) :: rest → ∃ t, step s = .next t ∧ irq t = (v.getLsbD 0 && s.done)) ∧
    (s.agenda = .host (.regWrite 0x08 v) :: rest → s.seq = .idle → v.getLsbD 1 = true →
      ∃ t, step s = .next t ∧ irq t = false) ∧
    (s.agenda = .host (.regWrite 0x0C v) :: rest → s.seq = .idle → ∃ t, step s = .next t ∧ irq t = false)

/-! ## The host's moves -/

/-- A register read while SEQ = IDLE returns the value of the register map (R22, R31 to R45) and changes nothing (R70);
the response stands in the model's field `resp` (log 5). -/
def Obligations.RegisterReadsWhileIdle : Prop :=
  ∀ (s : State) (off : Nat) (rest : List Move), s.agenda = .host (.regRead off) :: rest → s.seq = .idle →
    off < 0x100 → off % 4 = 0 →
    ∃ v : Word, step s = .next { s with agenda := rest, resp := .word v } ∧
      (off = 0x00 → v = 0x48464301) ∧
      (off = 0x04 → v.toNat = s.ie.toNat) ∧
      (off = 0x08 → ∀ k, v.getLsbD k =
        [false, s.done, s.err, s.ovr, false, false, false, false, s.freqValid, s.treeValid, s.codeValid, s.bwOpen,
          s.brOpen].getD k false) ∧
      (off = 0x0C → v = 0) ∧
      (off = 0x10 → v.toNat = s.errCode.toNat) ∧
      (off = 0x14 → v.toNat = s.errInfo.toNat) ∧
      (off = 0x18 → v = s.inLen) ∧
      (off = 0x1C → v = s.outLen) ∧
      (off = 0x20 → v.toNat = s.symCount.toNat) ∧
      (off = 0x24 → v = s.bitCount) ∧
      (off = 0x28 → v = s.bwBase) ∧
      (off = 0x2C → v = s.brBase) ∧
      (off = 0x30 → v = s.brLimit) ∧
      (off = 0x34 → v = s.bwTotal) ∧
      (off = 0x38 → v = s.brPos) ∧
      (off = 0x3C → v.toNat = s.nodeCount.toNat) ∧
      (off = 0x40 → v.toNat = s.root.toNat) ∧
      (off = 0x44 → v.toNat = s.params.inCap) ∧
      (off = 0x48 → v.toNat = s.params.outCap) ∧
      (∀ k : Fin 10, off = 0x50 + 4 * k.val → v = s.res[k]) ∧
      (off = 0x4C ∨ 0x78 ≤ off → v = 0)

/-- A register read while SEQ = EXEC (R29): ID, CTRL, STATUS, IN_CAP and OUT_CAP return their values; every other one
returns some value, of which nothing is known, and only the model's own fields change. -/
def Obligations.RegisterReadsWhileBusy : Prop :=
  ∀ (s : State) (off : Nat) (rest : List Move), s.agenda = .host (.regRead off) :: rest → s.seq = .exec →
    off < 0x100 → off % 4 = 0 →
    ∃ (v : Word) (d : Nat), step s = .next { s with agenda := rest, resp := .word v, draw := d } ∧
      (off = 0x00 → v = 0x48464301) ∧
      (off = 0x04 → v.toNat = s.ie.toNat) ∧
      (off = 0x08 → ∀ k, v.getLsbD k =
        [true, s.done, s.err, s.ovr, false, false, false, false, s.freqValid, s.treeValid, s.codeValid, s.bwOpen,
          s.brOpen].getD k false) ∧
      (off = 0x44 → v.toNat = s.params.inCap) ∧
      (off = 0x48 → v.toNat = s.params.outCap)

/-- A register write (R71): an RW register takes the value, CTRL only bit 0; a 1 in STATUS bit 1 clears DONE while
SEQ = IDLE, a 1 in bit 3 clears OVR; CMD is accepted or dropped; an RO or reserved offset does nothing; and while
SEQ = EXEC nothing but CTRL, STATUS bit 3 and CMD does anything (R29). -/
def Obligations.RegisterWrites : Prop :=
  ∀ (s : State) (off : Nat) (v : Word) (rest : List Move), s.agenda = .host (.regWrite off v) :: rest →
    off < 0x100 → off % 4 = 0 →
    (off ≠ 0x0C → step s = .next { s with
      agenda := rest
      ie := if off = 0x04 then v.getLsbD 0 else s.ie
      done := if off = 0x08 ∧ v.getLsbD 1 = true ∧ s.seq = .idle then false else s.done
      ovr := if off = 0x08 ∧ v.getLsbD 3 = true then false else s.ovr
      inLen := if off = 0x18 ∧ s.seq = .idle then v else s.inLen
      bwBase := if off = 0x28 ∧ s.seq = .idle then v else s.bwBase
      brBase := if off = 0x2C ∧ s.seq = .idle then v else s.brBase
      brLimit := if off = 0x30 ∧ s.seq = .idle then v else s.brLimit }) ∧
    (off = 0x0C → s.seq = .idle → step s = .next { s with
      agenda := rest, pend := v, seq := .exec, done := false, err := false, errCode := 0, errInfo := 0 }) ∧
    (off = 0x0C → s.seq = .exec → step s = .next { s with agenda := rest, ovr := true })

/-- `InWrite(a, b)` (R72): while SEQ = IDLE the byte `a` of IN becomes `b` and no other byte changes; while SEQ = EXEC
nothing changes. -/
def Obligations.InWriteStoresOneByteWhileIdle : Prop :=
  ∀ (s : State) (a : Nat) (b : Byte) (rest : List Move), s.agenda = .host (.inWrite a b) :: rest → a < s.params.inCap →
    (s.seq = .idle → ∃ t, step s = .next t ∧ t.inAt a = b ∧ (∀ x, x ≠ a → t.inAt x = s.inAt x) ∧
      t = { s with agenda := rest, inBuf := t.inBuf }) ∧
    (s.seq = .exec → step s = .next { s with agenda := rest })

/-- `InRead(a)` and `OutRead(a)` (R73, R74): the byte while SEQ = IDLE, some byte while SEQ = EXEC; no state of the HFC
changes. A host write to the OUT window does nothing (R75). -/
def Obligations.WindowReadsAndOutWrites : Prop :=
  ∀ (s : State) (a : Nat) (b : Byte) (rest : List Move),
    (s.agenda = .host (.inRead a) :: rest → a < s.params.inCap →
      (s.seq = .idle → step s = .next { s with agenda := rest, resp := .byte (s.inAt a) }) ∧
      (s.seq = .exec → ∃ x d, step s = .next { s with agenda := rest, resp := .byte x, draw := d })) ∧
    (s.agenda = .host (.outRead a) :: rest → a < s.params.outCap →
      (s.seq = .idle → step s = .next { s with agenda := rest, resp := .byte (s.outAt a) }) ∧
      (s.seq = .exec → ∃ x d, step s = .next { s with agenda := rest, resp := .byte x, draw := d })) ∧
    (s.agenda = .host (.outWrite a b) :: rest → a < s.params.outCap → step s = .next { s with agenda := rest })

/-- What is no move of the host interface stops the run, by name (R80, R82, U8: "refuse"; the names are the model's). -/
def Obligations.AccessesOutsideTheInterfaceStop : Prop :=
  ∀ (s : State) (a : Nat) (b : Byte) (v : Word) (rest : List Move),
    (s.agenda = .host (.regRead a) :: rest ∨ s.agenda = .host (.regWrite a v) :: rest →
      (0x100 ≤ a → step s = .fault .outsideRegisterBlock) ∧
      (a < 0x100 → a % 4 ≠ 0 → step s = .refused .misalignedRegisterAccess)) ∧
    (s.agenda = .host (.inWrite a b) :: rest ∨ s.agenda = .host (.inRead a) :: rest →
      s.params.inCap ≤ a → step s = .fault .outsideIn) ∧
    (s.agenda = .host (.outRead a) :: rest ∨ s.agenda = .host (.outWrite a b) :: rest →
      s.params.outCap ≤ a → step s = .fault .outsideOut)

/-! ## Reset -/

/-- The table of rule R56, whatever the state before (R320). What the table calls unspecified is any value, so nothing
is said of it. -/
def Obligations.ResetGivesTheTable : Prop :=
  ∀ (s : State) (rest : List Move), s.agenda = .reset :: rest →
    ∃ t, step s = .next t ∧ t.seq = .idle ∧ t.params = s.params ∧ t.ie = false ∧ statusWord t = 0 ∧
      regValue t .id = 0x48464301 ∧
      t.done = false ∧ t.err = false ∧ t.ovr = false ∧ t.freqValid = false ∧ t.treeValid = false ∧
      t.codeValid = false ∧ t.bwOpen = false ∧ t.brOpen = false ∧ t.errCode = 0 ∧ t.errInfo = 0 ∧
      t.inLen = 0 ∧ t.bwBase = 0 ∧ t.brBase = 0 ∧ t.brLimit = 0 ∧
      t.outLen = 0 ∧ t.symCount = 0 ∧ t.bitCount = 0 ∧ t.nodeCount = 0 ∧ t.root = 0 ∧
      t.bwTotal = 0 ∧ t.brPos = 0 ∧ t.res = Vector.replicate 10 0 ∧ irq t = false ∧ t.agenda = rest

/-- The state after reset the model starts from has the values of rule R56 in the registers, and no byte of IN or OUT
recorded. Its capacities are the model's choice (log 1). -/
def Obligations.ResetStateHasTheTable : Prop :=
  State.reset.seq = .idle ∧ ctrlWord State.reset = 0 ∧ statusWord State.reset = 0 ∧
  State.reset.errCode = 0 ∧ State.reset.errInfo = 0 ∧ State.reset.inLen = 0 ∧ State.reset.outLen = 0 ∧
  State.reset.symCount = 0 ∧ State.reset.bitCount = 0 ∧ State.reset.bwBase = 0 ∧ State.reset.brBase = 0 ∧
  State.reset.brLimit = 0 ∧ State.reset.nodeCount = 0 ∧ State.reset.root = 0 ∧ State.reset.bwTotal = 0 ∧
  State.reset.brPos = 0 ∧ State.reset.res = Vector.replicate 10 0 ∧ irq State.reset = false ∧
  State.reset.inBuf.cells = [] ∧ State.reset.outBuf.cells = []

/-! ## Errors, flags and frames of all commands -/

/-- Every command answers a next state in every state: either it leaves ERR, ERRCODE and ERRINFO alone, or it does the
one error entry (R288) with a pair of rule R289's row for it. -/
def Obligations.CommandsEndOrRaiseAListedError : Prop :=
  ∀ (i : Instr) (s : State), ∃ t, exec i s = .next t ∧
    ((t.err = s.err ∧ t.errCode = s.errCode ∧ t.errInfo = s.errInfo) ∨ ∃ e ∈ errorsOf i, raises i s e.1 e.2)

/-- What no command changes, not even one that raises (R32, R33, R53, R287): the bytes of IN, the operand registers,
CTRL, OVR, SEQ, PEND and DONE (the handshake's own steps change those), and the parameters. -/
def Obligations.NoCommandTouchesTheHostSide : Prop :=
  ∀ (i : Instr) (s : State), ∃ t, exec i s = .next t ∧ (∀ a, t.inAt a = s.inAt a) ∧
    t.inLen = s.inLen ∧ t.bwBase = s.bwBase ∧ t.brBase = s.brBase ∧ t.brLimit = s.brLimit ∧ t.ie = s.ie ∧
    t.ovr = s.ovr ∧ t.seq = s.seq ∧ t.pend = s.pend ∧ t.done = s.done ∧ t.params = s.params ∧
    t.agenda = s.agenda ∧ t.resp = s.resp

/-- RES (R45): only TBL_READ, NODE_READ, BW_FINISH, BR_READ_BIT, BR_DECODE_SYM and CLEAR write it, all ten, the ones
the rule does not name getting 0, and only without error; every other command and error entry leave it alone. -/
def Obligations.ResultRegistersRule : Prop :=
  ∀ (i : Instr) (s t : State), exec i s = .next t → s.err = false →
    (t.err = true → t.res = s.res) ∧
    (t.err = false →
      match i with
      | .tblRead _ => True
      | .nodeRead _ => ∀ k (h : k < 10), 4 ≤ k → t.res[k] = 0
      | .bwFinish => ∀ k (h : k < 10), 2 ≤ k → t.res[k] = 0
      | .brReadBit => ∀ k (h : k < 10), 1 ≤ k → t.res[k] = 0
      | .brDecodeSym => ∀ k (h : k < 10), 2 ≤ k → t.res[k] = 0
      | .clear => ∀ k (h : k < 10), t.res[k] = 0
      | .nop | .freqBuild | .treeBuild | .codeGen | .bwInit | .bwWriteBit _ | .bwWriteCode _ | .brInit | .compress
      | .decompress => t.res = s.res)

/-- The validity flags (R46): what each command that completes without error sets and clears, and that error entry
clears all five. -/
def Obligations.ValidityFlags : Prop :=
  ∀ (i : Instr) (s t : State), exec i s = .next t → s.err = false →
    (t.err = true → t.freqValid = false ∧ t.treeValid = false ∧ t.codeValid = false ∧ t.bwOpen = false ∧
      t.brOpen = false) ∧
    (t.err = false →
      match i with
      | .nop | .tblRead _ | .nodeRead _ | .bwWriteBit _ | .bwWriteCode _ | .brReadBit | .brDecodeSym =>
        t.freqValid = s.freqValid ∧ t.treeValid = s.treeValid ∧ t.codeValid = s.codeValid ∧ t.bwOpen = s.bwOpen ∧
          t.brOpen = s.brOpen
      | .clear => t.freqValid = false ∧ t.treeValid = false ∧ t.codeValid = false ∧ t.bwOpen = false ∧ t.brOpen = false
      | .freqBuild => t.freqValid = true ∧ t.treeValid = false ∧ t.codeValid = false ∧ t.bwOpen = s.bwOpen ∧
          t.brOpen = s.brOpen
      | .treeBuild => t.freqValid = s.freqValid ∧ t.treeValid = true ∧ t.codeValid = false ∧ t.bwOpen = s.bwOpen ∧
          t.brOpen = s.brOpen
      | .codeGen => t.freqValid = s.freqValid ∧ t.treeValid = s.treeValid ∧ t.codeValid = true ∧
          t.bwOpen = s.bwOpen ∧ t.brOpen = s.brOpen
      | .bwInit => t.freqValid = s.freqValid ∧ t.treeValid = s.treeValid ∧ t.codeValid = s.codeValid ∧
          t.bwOpen = true ∧ t.brOpen = s.brOpen
      | .bwFinish => t.freqValid = s.freqValid ∧ t.treeValid = s.treeValid ∧ t.codeValid = s.codeValid ∧
          t.bwOpen = false ∧ t.brOpen = s.brOpen
      | .brInit => t.freqValid = s.freqValid ∧ t.treeValid = s.treeValid ∧ t.codeValid = s.codeValid ∧
          t.bwOpen = s.bwOpen ∧ t.brOpen = true
      | .compress => t.freqValid = true ∧ t.treeValid = decide (s.inLen ≠ 0) ∧ t.codeValid = decide (s.inLen ≠ 0) ∧
          t.bwOpen = false ∧ t.brOpen = false
      | .decompress => t.freqValid = true ∧ t.treeValid = !(s.inAt 1).getLsbD 0 ∧
          t.codeValid = !(s.inAt 1).getLsbD 0 ∧ t.bwOpen = false ∧ t.brOpen = false)

/-- Commands that neither write OUT nor fail leave every byte of OUT, and OUT_LEN, unchanged (R329). -/
def Obligations.OutIsKeptByCommandsThatDoNotWriteIt : Prop :=
  ∀ (i : Instr) (s t : State), exec i s = .next t → s.err = false → t.err = false →
    (match i with
      | .nop | .tblRead _ | .nodeRead _ | .freqBuild | .treeBuild | .codeGen | .brInit | .brReadBit
      | .brDecodeSym => True
      | .clear | .bwInit | .bwWriteBit _ | .bwWriteCode _ | .bwFinish | .compress | .decompress => False) →
    (∀ a, t.outAt a = s.outAt a) ∧ t.outLen = s.outLen

/-! ## System commands -/

/-- NOP (R261) completes and changes nothing. -/
def Obligations.NopChangesNothing : Prop := ∀ s : State, exec .nop s = .next s

/-- CLEAR (R262): derived state is discarded (R287) and RES is zero; nothing else changes. -/
def Obligations.ClearDiscardsDerivedState : Prop :=
  ∀ s : State, ∃ t, exec .clear s = .next { t with res := Vector.replicate 10 0 } ∧ discarded s t

/-- TBL_READ (R263): RES[0] is FREQ, RES[1] CODELEN and RES[2..9] the 256 bits of CODEVAL, low word first, each 0 while
its flag is 0; no other state changes. -/
def Obligations.TblReadReturnsTheEntry : Prop :=
  ∀ (s : State) (sym : Byte), ∃ r : Vector Word 10, exec (.tblRead sym) s = .next { s with res := r } ∧
    r[0] = (if s.freqValid = true then s.freqAt sym else 0) ∧
    r[1].toNat = (if s.codeValid = true then (s.codeLenAt sym).toNat else 0) ∧
    ((List.finRange 8).map fun j => r[2 + j.val].toNat * 2 ^ (32 * j.val)).sum =
      (if s.codeValid = true then (s.codeValAt sym).toNat else 0)

/-- NODE_READ (R264): the fields of the entry in RES[0..3], 0 in the others, no other state changed; its two
preconditions, in order. -/
def Obligations.NodeReadReturnsTheNode : Prop :=
  ∀ (s : State) (h : Handle),
    (s.treeValid = false → raises (.nodeRead h) s 7 2) ∧
    (s.treeValid = true → s.nodeCount ≤ h → raises (.nodeRead h) s 7 7) ∧
    (s.treeValid = true → h < s.nodeCount →
      ∃ r : Vector Word 10, exec (.nodeRead h) s = .next { s with res := r } ∧
        r[0].toNat + 2 ^ 32 * r[1].toNat = (s.nodeAt h).weight.toNat ∧
        r[2].toNat = (s.nodeAt h).isLeaf.toNat + 256 * (s.nodeAt h).sym.toNat ∧
        r[3].toNat = (s.nodeAt h).left.toNat + 65536 * (s.nodeAt h).right.toNat ∧
        ∀ k (hk : k < 10), 4 ≤ k → r[k] = 0)

/-! ## Tables -/

/-- FREQ_BUILD (R141, R142): FREQ[s] is the number of i below IN_LEN with IN[i] = s, the counts sum to IN_LEN,
SYM_COUNT counts the present symbols; the three flags; nothing else changes. CapacityError(IN_LEN_OVER) else. -/
def Obligations.FreqBuildCounts : Prop :=
  ∀ s : State,
    (s.params.inCap < s.inLen.toNat → raises .freqBuild s 6 1) ∧
    (s.inLen.toNat ≤ s.params.inCap → ∃ t, exec .freqBuild s = .next t ∧
      (∀ sym, (t.freqAt sym).toNat = (List.range s.inLen.toNat).countP fun i => s.inAt i = sym) ∧
      ((List.range 256).map fun k => (t.freqAt (BitVec.ofNat 8 k)).toNat).sum = s.inLen.toNat ∧
      t.symCount.toNat = ((List.range 256).countP fun k => t.freqAt (BitVec.ofNat 8 k) ≠ 0) ∧
      t = { s with
        freq := t.freq, symCount := t.symCount, freqValid := true, treeValid := false, codeValid := false })

/-- TREE_BUILD (R151): the result of `tree_build` (R152) on the present symbols in ascending order; the weight of ROOT is
the sum of the counts (R160); its two errors, in order; nothing else changes. -/
def Obligations.TreeBuildMerges : Prop :=
  ∀ s : State,
    (s.freqValid = false → raises .treeBuild s 7 1) ∧
    (s.freqValid = true → (∀ sym, s.freqAt sym = 0) → raises .treeBuild s 1 0) ∧
    (s.freqValid = true → (∃ sym, s.freqAt sym ≠ 0) → ∃ t, exec .treeBuild s = .next t ∧
      (∀ l, listsPresent l s → MergedFrom l t ∧
        (t.nodeAt t.root).weight.toNat = (l.map fun e => e.2.toNat).sum) ∧
      t = { s with
        node := t.node, nodeCount := t.nodeCount, root := t.root, treeValid := true, codeValid := false
        draw := t.draw })

/-- CODE_GEN (R172 to R174): in a valid tree every symbol's entry holds the path to its leaf, "0" where ROOT is the leaf,
and 0 where it has no leaf; only CODE and CODE_VALID change. PreconditionError(TREE_NOT_VALID) else. -/
def Obligations.CodeGenHoldsThePaths : Prop :=
  ∀ s : State,
    (s.treeValid = false → raises .codeGen s 7 2) ∧
    (s.treeValid = true → ∀ k, TreeShape s k → ∃ t, exec .codeGen s = .next t ∧ (∀ sym, codeEntryOk t sym) ∧
      t = { s with codeLen := t.codeLen, codeVal := t.codeVal, codeValid := true })

/-- With two or more leaves the codes are complete (R175): every sequence of 255 bits starts with exactly one code. -/
def Obligations.CodesAreComplete : Prop :=
  ∀ s : State, Invariant s → s.codeValid = true → 1 < s.symCount.toNat → ∀ bits : List Bool, bits.length = 255 →
    ∃ sym, s.codeLenAt sym ≠ 0 ∧ codeBits s sym <+: bits ∧
      ∀ sym', s.codeLenAt sym' ≠ 0 → codeBits s sym' <+: bits → sym' = sym

/-- Exactly the present symbols have a code, of at least one bit and at most max(1, K - 1) bits (R175). -/
def Obligations.CodeLengthsAreBounded : Prop :=
  ∀ s : State, Invariant s → s.codeValid = true → ∀ sym,
    (s.codeLenAt sym ≠ 0 ↔ s.freqAt sym ≠ 0) ∧ (s.codeLenAt sym).toNat ≤ max 1 (s.symCount.toNat - 1)

/-- Prefix-free (R16): in a state that meets the invariant, and after CODE_GEN, COMPRESS or DECOMPRESS in one, while the
code table is valid: no code is a prefix of the code of another symbol; with one symbol the table holds the code "0". -/
def Obligations.CodesArePrefixFree : Prop :=
  ∀ s t : State, Invariant s →
    (t = s ∨ ∃ i, (i = .codeGen ∨ i = .compress ∨ i = .decompress) ∧ exec i s = .next t) → t.codeValid = true →
    (∀ sym sym', t.codeLenAt sym ≠ 0 → t.codeLenAt sym' ≠ 0 → sym ≠ sym' → ¬ codeBits t sym <+: codeBits t sym') ∧
    (∀ sym, t.codeLenAt sym ≠ 0 → (∀ sym', t.codeLenAt sym' ≠ 0 → sym' = sym) → codeBits t sym = [false])

/-! ## The bit writer -/

/-- BW_INIT (R181, R187): the writer opens at BW_BASE with no bit and OUT_LEN = BW_BASE; no byte of OUT is written.
CapacityError(BASE_OVER) else. -/
def Obligations.BwInitOpensTheWriter : Prop :=
  ∀ s : State,
    (s.params.outCap < s.bwBase.toNat → raises .bwInit s 6 3) ∧
    (s.bwBase.toNat ≤ s.params.outCap → exec .bwInit s = .next { s with
      bwOrg := s.bwBase, bwTotal := 0, bwAcc := 0, bwOpen := true, outLen := s.bwBase })

/-- BW_WRITE_BIT (R182, R185) while a writer is open: the stream is longer by the bit, its other bits are as before, and
OUT changes at the writer's byte only, when the bit completes it. Its two errors, in order. -/
def Obligations.BwWriteBitAppends : Prop :=
  ∀ (s : State) (b : Bool),
    (s.bwOpen = false → raises (.bwWriteBit b) s 7 4) ∧
    (s.bwOpen = true → s.bwTotal.toNat % 8 = 0 → s.params.outCap ≤ s.bwOrg.toNat + s.bwTotal.toNat / 8 →
      raises (.bwWriteBit b) s 6 2) ∧
    (s.bwOpen = true → WriterOk s →
      (s.bwTotal.toNat % 8 = 0 → s.bwOrg.toNat + s.bwTotal.toNat / 8 < s.params.outCap) →
      ∃ t, exec (.bwWriteBit b) s = .next t ∧ WriterOk t ∧ t.bwTotal.toNat = s.bwTotal.toNat + 1 ∧
        (∀ k < s.bwTotal.toNat, writtenBit t k = writtenBit s k) ∧ writtenBit t s.bwTotal.toNat = b ∧
        (∀ a, ¬ (s.bwTotal.toNat % 8 = 7 ∧ a = writerAddr s) → t.outAt a = s.outAt a) ∧
        t = { s with bwTotal := t.bwTotal, bwAcc := t.bwAcc, outBuf := t.outBuf })

/-- BW_WRITE_CODE (R183, R186) while a writer is open: the stream is longer by the bits CODELEN - 1 down to 0 of CODEVAL,
its other bits are as before, and OUT changes only from the writer's byte up to the last completed one. Its four errors,
in order. -/
def Obligations.BwWriteCodeAppendsTheCode : Prop :=
  ∀ (s : State) (sym : Byte),
    (s.bwOpen = false → raises (.bwWriteCode sym) s 7 4) ∧
    (s.bwOpen = true → s.codeValid = false → raises (.bwWriteCode sym) s 7 3) ∧
    (s.bwOpen = true → s.codeValid = true → s.codeLenAt sym = 0 → raises (.bwWriteCode sym) s 7 6) ∧
    (s.bwOpen = true → s.codeValid = true → s.codeLenAt sym ≠ 0 → WriterOk s →
      (s.params.outCap < s.bwOrg.toNat + ceilDiv8 (s.bwTotal.toNat + (s.codeLenAt sym).toNat) →
        raises (.bwWriteCode sym) s 6 2) ∧
      (s.bwOrg.toNat + ceilDiv8 (s.bwTotal.toNat + (s.codeLenAt sym).toNat) ≤ s.params.outCap →
        ∃ t, exec (.bwWriteCode sym) s = .next t ∧ WriterOk t ∧
          t.bwTotal.toNat = s.bwTotal.toNat + (s.codeLenAt sym).toNat ∧
          (∀ k < s.bwTotal.toNat, writtenBit t k = writtenBit s k) ∧
          (∀ i < (s.codeLenAt sym).toNat, writtenBit t (s.bwTotal.toNat + i) =
            (s.codeValAt sym).getLsbD ((s.codeLenAt sym).toNat - 1 - i)) ∧
          (∀ a, a < writerAddr s ∨ writerAddr t ≤ a → t.outAt a = s.outAt a) ∧
          t = { s with bwTotal := t.bwTotal, bwAcc := t.bwAcc, outBuf := t.outBuf }))

/-- BW_FINISH (R184, R188): the bits of the stream stand in OUT, padded with zeros to a whole byte; at most the writer's
partial byte is written; BITCOUNT, OUT_LEN, and the valid and padding bits of the last byte in RES; the writer is closed.
PreconditionError(BW_NOT_OPEN) else. -/
def Obligations.BwFinishPadsTheLastByte : Prop :=
  ∀ s : State,
    (s.bwOpen = false → raises .bwFinish s 7 4) ∧
    (s.bwOpen = true → WriterOk s → ∃ t, exec .bwFinish s = .next t ∧
      (∀ k < 8 * ceilDiv8 s.bwTotal.toNat,
        outStreamBit t s.bwOrg.toNat k = if k < s.bwTotal.toNat then writtenBit s k else false) ∧
      (∀ a, ¬ (s.bwTotal.toNat % 8 ≠ 0 ∧ a = writerAddr s) → t.outAt a = s.outAt a) ∧
      t.bitCount = s.bwTotal ∧ t.outLen.toNat = s.bwOrg.toNat + ceilDiv8 s.bwTotal.toNat ∧
      (s.bwTotal = 0 → t.res[0] = 0 ∧ t.res[1] = 0) ∧
      (s.bwTotal ≠ 0 → t.res[0].toNat + t.res[1].toNat = 8 ∧ t.res[1].toNat ≤ 7 ∧
        8 * ceilDiv8 s.bwTotal.toNat = s.bwTotal.toNat + t.res[1].toNat) ∧
      (∀ k (hk : k < 10), 2 ≤ k → t.res[k] = 0) ∧
      t = { s with
        outBuf := t.outBuf, bwAcc := 0, bwOpen := false, bitCount := t.bitCount, outLen := t.outLen, res := t.res })

/-! ## The bit reader -/

/-- BR_INIT (R191, R196): the reader opens at BR_BASE with BR_LIMIT bits; nothing else changes; its two errors, in
order. -/
def Obligations.BrInitOpensTheReader : Prop :=
  ∀ s : State,
    (s.params.inCap < s.inLen.toNat → raises .brInit s 6 1) ∧
    (s.inLen.toNat ≤ s.params.inCap → s.inLen.toNat < s.brBase.toNat + ceilDiv8 s.brLimit.toNat →
      raises .brInit s 7 8) ∧
    (s.inLen.toNat ≤ s.params.inCap → s.brBase.toNat + ceilDiv8 s.brLimit.toNat ≤ s.inLen.toNat →
      exec .brInit s = .next { s with brOrg := s.brBase, brLim := s.brLimit, brPos := 0, brOpen := true })

/-- BR_READ_BIT (R192, R193): RES[0] is the bit `7 - BR_POS[2:0]` of `IN[BR_ORG + (BR_POS >> 3)]`, RES[1..9] are 0 and
BR_POS advances by 1; nothing else changes; its two errors, in order. -/
def Obligations.BrReadBitReturnsTheNextBit : Prop :=
  ∀ s : State,
    (s.brOpen = false → raises .brReadBit s 7 5) ∧
    (s.brOpen = true → s.brLim.toNat ≤ s.brPos.toNat → raises .brReadBit s 4 0) ∧
    (s.brOpen = true → s.brPos.toNat < s.brLim.toNat →
      ∃ t, exec .brReadBit s = .next t ∧ t.brPos.toNat = s.brPos.toNat + 1 ∧
        t.res[0].toNat = ((s.inAt (s.brOrg.toNat + s.brPos.toNat / 8)).getLsbD (7 - s.brPos.toNat % 8)).toNat ∧
        (∀ k (hk : k < 10), 1 ≤ k → t.res[k] = 0) ∧ t = { s with brPos := t.brPos, res := t.res })

/-- BR_DECODE_SYM (R194, R195): where the bits to come start with the code of a symbol, RES[0] is the symbol, RES[1] the
length of its code, and BR_POS advances by it; nothing else changes. PreconditionError first; EndOfStreamError where a
tree of two leaves or more meets the end of the stream inside a code; INVALID_CODE for a 1 bit where ROOT is a leaf. -/
def Obligations.BrDecodeSymWalksToALeaf : Prop :=
  ∀ s : State,
    (s.brOpen = false → raises .brDecodeSym s 7 5) ∧
    (s.brOpen = true → s.treeValid = false → raises .brDecodeSym s 7 2) ∧
    (s.brOpen = true → s.treeValid = true → ∀ k, TreeShape s k →
      (∀ p sym, isCodeOf s p sym → s.brPos.toNat + p.length ≤ s.brLim.toNat →
        (∀ i (h : i < p.length), inStreamBit s s.brOrg.toNat (s.brPos.toNat + i) = p[i]) →
        ∃ t, exec .brDecodeSym s = .next t ∧ t.brPos.toNat = s.brPos.toNat + p.length ∧
          t.res[0].toNat = sym.toNat ∧ t.res[1].toNat = p.length ∧ (∀ k (hk : k < 10), 2 ≤ k → t.res[k] = 0) ∧
          t = { s with brPos := t.brPos, res := t.res }) ∧
      (s.brLim.toNat ≤ s.brPos.toNat → raises .brDecodeSym s 4 0) ∧
      (1 < k → (∀ p sym, isCodeOf s p sym →
          (∀ i (h : i < p.length), inStreamBit s s.brOrg.toNat (s.brPos.toNat + i) = p[i]) →
          s.brLim.toNat < s.brPos.toNat + p.length) → raises .brDecodeSym s 4 0) ∧
      (k = 1 → s.brPos.toNat < s.brLim.toNat → inStreamBit s s.brOrg.toNat s.brPos.toNat = true →
        raises .brDecodeSym s 2 10))

/-! ## COMPRESS -/

/-- COMPRESS of the empty input (R111, R213, R216): the container `01 01` and the column n = 0 of rule R216. -/
def Obligations.CompressOfTheEmptyInput : Prop :=
  ∀ s : State, s.inLen = 0 → ∃ t u, exec .compress s = .next t ∧ discarded s u ∧
    t.outLen = 2 ∧ t.outAt 0 = 1 ∧ t.outAt 1 = 1 ∧ (∀ sym, t.freqAt sym = 0) ∧
    t = { u with outLen := 2, freq := t.freq, freqValid := true, outBuf := t.outBuf }

/-- COMPRESS of a non-empty input (R213, R216): the tables of the input, the container of rule R110 in OUT with the codes
of the input bytes in input order as its payload (R116), and the column n ≥ 1 of rule R216. -/
def Obligations.CompressWritesTheContainer : Prop :=
  ∀ s : State, s.inLen ≠ 0 → s.inLen.toNat ≤ s.params.inCap → compressedSize s ≤ s.params.outCap →
    ∃ t u l, exec .compress s = .next t ∧ discarded s u ∧
      (∀ sym, (t.freqAt sym).toNat = (List.range s.inLen.toNat).countP fun i => s.inAt i = sym) ∧
      listsPresent l t ∧ MergedFrom l t ∧ (∀ sym, codeEntryOk t sym) ∧
      (∀ bits, bits = (List.range s.inLen.toNat).flatMap (fun i => codeBits t (s.inAt i)) →
        t.symCount.toNat = l.length ∧ t.bitCount.toNat = bits.length ∧ t.bwTotal.toNat = bits.length ∧
        t.outLen.toNat = 10 + 5 * l.length + ceilDiv8 bits.length ∧
        t.outAt 0 = 1 ∧ t.outAt 1 = 0 ∧ le32Out t 2 = l.length ∧
        (∀ i (h : i < l.length), t.outAt (6 + 5 * i) = l[i].1 ∧ le32Out t (7 + 5 * i) = l[i].2.toNat) ∧
        le32Out t (6 + 5 * l.length) = bits.length ∧
        (∀ k < 8 * ceilDiv8 bits.length,
          outStreamBit t (10 + 5 * l.length) k = if h : k < bits.length then bits[k] else false)) ∧
      t = { u with
        freq := t.freq, node := t.node, codeLen := t.codeLen, codeVal := t.codeVal, freqValid := true
        treeValid := true, codeValid := true, symCount := t.symCount, nodeCount := t.nodeCount, root := t.root
        bwOrg := t.bwOrg, bwTotal := t.bwTotal, bwAcc := t.bwAcc, outBuf := t.outBuf, outLen := t.outLen
        bitCount := t.bitCount, draw := t.draw }

/-- When COMPRESS raises its two errors (R213, R219): IN_LEN_OVER, tested first, where IN_LEN exceeds IN_CAP; OUT_OVER
where the exact size of the container of a non-empty input does not fit. -/
def Obligations.CompressErrors : Prop :=
  ∀ s : State,
    (s.params.inCap < s.inLen.toNat → raises .compress s 6 1) ∧
    (s.inLen.toNat ≤ s.params.inCap → s.inLen ≠ 0 → s.params.outCap < compressedSize s → raises .compress s 6 2)

/-! ## DECOMPRESS -/

/-- Tests 1 to 8 of rule R248 in their order, and the empty container (R238) between them. -/
def Obligations.DecompressTestsTheFixedHeader : Prop :=
  ∀ s : State,
    (s.params.inCap < s.inLen.toNat → raises .decompress s 6 1) ∧
    (s.inLen.toNat ≤ s.params.inCap →
      (s.inLen.toNat < 2 → raises .decompress s 2 1) ∧
      (2 ≤ s.inLen.toNat →
        (s.inAt 0 ≠ 1 → raises .decompress s 2 2) ∧
        (s.inAt 0 = 1 → 1 < (s.inAt 1).toNat → raises .decompress s 2 3) ∧
        (s.inAt 0 = 1 → s.inAt 1 = 1 → s.inLen ≠ 2 → raises .decompress s 2 8) ∧
        (s.inAt 0 = 1 → s.inAt 1 = 1 → s.inLen = 2 → ∃ t u, exec .decompress s = .next t ∧ discarded s u ∧
          (∀ sym, t.freqAt sym = 0) ∧ t = { u with freq := t.freq, freqValid := true }) ∧
        (s.inAt 0 = 1 → s.inAt 1 = 0 →
          (s.inLen.toNat < 6 → raises .decompress s 2 1) ∧
          (6 ≤ s.inLen.toNat → le32In s 2 = 0 ∨ 256 < le32In s 2 → raises .decompress s 2 4) ∧
          (6 ≤ s.inLen.toNat → 1 ≤ le32In s 2 → le32In s 2 ≤ 256 → s.inLen.toNat < 10 + 5 * le32In s 2 →
            raises .decompress s 2 1))))

/-- Tests 9 and 10 of rule R248, entry by entry: at the first entry that fails one, a symbol already listed is
DUP_SYMBOL and else a count of 0 is ZERO_FREQ (R235). -/
def Obligations.DecompressTestsTheEntries : Prop :=
  ∀ (s : State) (i : Nat), s.inLen.toNat ≤ s.params.inCap → s.inAt 0 = 1 → s.inAt 1 = 0 → 1 ≤ le32In s 2 →
    le32In s 2 ≤ 256 → 10 + 5 * le32In s 2 ≤ s.inLen.toNat → i < le32In s 2 →
    (∀ j < i, le32In s (7 + 5 * j) ≠ 0 ∧ ∀ j' < j, s.inAt (6 + 5 * j') ≠ s.inAt (6 + 5 * j)) →
    ((∃ j < i, s.inAt (6 + 5 * j) = s.inAt (6 + 5 * i)) → raises .decompress s 2 5) ∧
    ((∀ j < i, s.inAt (6 + 5 * j) ≠ s.inAt (6 + 5 * i)) → le32In s (7 + 5 * i) = 0 → raises .decompress s 2 6)

/-- Tests 11 to 14 of rule R248 in their order, for a container whose entries pass: the bit count against the rebuilt
code, the payload's length, and the declared output length against OUT_CAP (R240 to R242). -/
def Obligations.DecompressTestsTheHeaderAgainstTheTree : Prop :=
  ∀ (s : State) (l : List (Byte × BitVec 32)), HeaderOk s l →
    (le32In s (6 + 5 * l.length) ≠ listBits l s → raises .decompress s 2 7) ∧
    (le32In s (6 + 5 * l.length) = listBits l s →
      (s.inLen.toNat < 10 + 5 * l.length + ceilDiv8 (listBits l s) → raises .decompress s 3 1) ∧
      (10 + 5 * l.length + ceilDiv8 (listBits l s) < s.inLen.toNat → raises .decompress s 2 8) ∧
      (s.inLen.toNat = 10 + 5 * l.length + ceilDiv8 (listBits l s) →
        s.params.outCap < (l.map fun e => e.2.toNat).sum → raises .decompress s 6 2))

/-- DECOMPRESS of a container whose payload is the codes of N symbols (R233, R243, R247): OUT holds those symbols, the
tables are those of the header's list in the order listed (R236), and the column of rule R247 for a non-empty
container. -/
def Obligations.DecompressRecoversTheSymbols : Prop :=
  ∀ (s : State) (l : List (Byte × BitVec 32)) (xs : List Byte), ContainerOk s l →
    payloadOf s l = xs.flatMap (listCode l s) → xs.length = (l.map fun e => e.2.toNat).sum →
    (∀ x ∈ xs, ∃ e ∈ l, e.1 = x) →
    ∃ t u, exec .decompress s = .next t ∧ discarded s u ∧
      t.outLen.toNat = xs.length ∧ (∀ k (h : k < xs.length), t.outAt k = xs[k]) ∧
      t.symCount.toNat = l.length ∧ t.bitCount.toNat = listBits l s ∧ t.brPos.toNat = listBits l s ∧
      (∀ e ∈ l, t.freqAt e.1 = e.2) ∧ (∀ sym, (∀ e ∈ l, e.1 ≠ sym) → t.freqAt sym = 0) ∧
      MergedFrom l t ∧ (∀ sym, codeEntryOk t sym) ∧
      t = { u with
        freq := t.freq, node := t.node, codeLen := t.codeLen, codeVal := t.codeVal, freqValid := true
        treeValid := true, codeValid := true, symCount := t.symCount, bitCount := t.bitCount
        nodeCount := t.nodeCount, root := t.root, brOrg := t.brOrg, brLim := t.brLim, brPos := t.brPos
        outBuf := t.outBuf, outLen := t.outLen, draw := t.draw }

/-- Tests 15 and 16 of rule R248: after the symbols `xs`, the payload has more bits when N symbols are out, or it ends at
a code boundary before, COUNT_MISMATCH (R245); it ends inside a code, ENDS_MID_CODE (R244); or a single-leaf tree meets a
1 bit, INVALID_CODE. -/
def Obligations.DecompressTestsThePayload : Prop :=
  ∀ (s : State) (l : List (Byte × BitVec 32)) (xs : List Byte) (rest : List Bool), ContainerOk s l →
    payloadOf s l = xs.flatMap (listCode l s) ++ rest → (∀ x ∈ xs, ∃ e ∈ l, e.1 = x) →
    (xs.length = (l.map fun e => e.2.toNat).sum → rest ≠ [] → raises .decompress s 2 9) ∧
    (xs.length < (l.map fun e => e.2.toNat).sum →
      (rest = [] → raises .decompress s 2 9) ∧
      (1 < l.length → rest ≠ [] → (∀ e ∈ l, ¬ listCode l s e.1 <+: rest) → raises .decompress s 3 2) ∧
      (l.length = 1 → rest.head? = some true → raises .decompress s 2 10))

/-! ## The whole block -/

/-- Round trip (R14): where COMPRESS completes without error, and another instance's IN holds the container and its
capacities suffice, DECOMPRESS there completes without error and OUT holds the input. -/
def Obligations.RoundTrip : Prop :=
  ∀ s t u : State, exec .compress s = .next t → s.err = false → t.err = false →
    u.inLen = t.outLen → (∀ a < t.outLen.toNat, u.inAt a = t.outAt a) → u.inLen.toNat ≤ u.params.inCap →
    s.inLen.toNat ≤ u.params.outCap → u.err = false →
    ∃ v, exec .decompress u = .next v ∧ v.err = false ∧ v.outLen = s.inLen ∧
      ∀ a < s.inLen.toNat, v.outAt a = s.inAt a

/-- Determinism (R15) and independence (R17) of COMPRESS: on the same input and the same capacities, whatever the rest of
the state and whatever values the spec leaves unspecified, it does or does not raise the same error, and gives the same
container, byte for byte, the same registers and the same code table. -/
def Obligations.CompressDependsOnItsInputAlone : Prop :=
  ∀ s s' t t' : State, s.params.inCap = s'.params.inCap → s.params.outCap = s'.params.outCap →
    s.inLen = s'.inLen → (∀ a < s.inLen.toNat, s.inAt a = s'.inAt a) →
    exec .compress s = .next t → exec .compress s' = .next t' → s.err = false → s'.err = false →
    s.errCode = s'.errCode → s.errInfo = s'.errInfo →
    t.err = t'.err ∧ t.errCode = t'.errCode ∧ t.errInfo = t'.errInfo ∧ t.outLen = t'.outLen ∧
    (∀ a < t.outLen.toNat, t.outAt a = t'.outAt a) ∧ t.symCount = t'.symCount ∧ t.bitCount = t'.bitCount ∧
    t.nodeCount = t'.nodeCount ∧ t.root = t'.root ∧ t.bwTotal = t'.bwTotal ∧ t.brPos = t'.brPos ∧
    t.freqValid = t'.freqValid ∧ t.treeValid = t'.treeValid ∧ t.codeValid = t'.codeValid ∧ t.bwOpen = t'.bwOpen ∧
    t.brOpen = t'.brOpen ∧
    (t.codeValid = true → ∀ sym, t.freqAt sym = t'.freqAt sym ∧ t.codeLenAt sym = t'.codeLenAt sym ∧
      t.codeValAt sym = t'.codeValAt sym)

/-- Independence (R17) of DECOMPRESS: on the same container and the same capacities, whatever the rest of the state, it
does or does not raise the same error and gives the same output. -/
def Obligations.DecompressDependsOnItsInputAlone : Prop :=
  ∀ s s' t t' : State, s.params.inCap = s'.params.inCap → s.params.outCap = s'.params.outCap →
    s.inLen = s'.inLen → (∀ a < s.inLen.toNat, s.inAt a = s'.inAt a) →
    exec .decompress s = .next t → exec .decompress s' = .next t' → s.err = false → s'.err = false →
    s.errCode = s'.errCode → s.errInfo = s'.errInfo →
    t.err = t'.err ∧ t.errCode = t'.errCode ∧ t.errInfo = t'.errInfo ∧ t.outLen = t'.outLen ∧
    (∀ a < t.outLen.toNat, t.outAt a = t'.outAt a) ∧ t.symCount = t'.symCount ∧ t.bitCount = t'.bitCount

/-- The primitive commands make the payload of COMPRESS (R221): FREQ_BUILD, TREE_BUILD, CODE_GEN, BW_INIT at 10 + 5S,
BW_WRITE_CODE of each input byte, BW_FINISH complete without error, with the same payload bytes, BITCOUNT, OUT_LEN, FREQ,
NODE and CODE. -/
def Obligations.PrimitivesMakeThePayloadOfCompress : Prop :=
  ∀ s t : State, exec .compress s = .next t → s.err = false → t.err = false → s.inLen ≠ 0 →
    s.bwBase.toNat = 10 + 5 * t.symCount.toNat →
    ∃ u, runsTo ([.freqBuild, .treeBuild, .codeGen, .bwInit] ++
        (inBytes s s.inLen.toNat).map Instr.bwWriteCode ++ [.bwFinish]) s u ∧ u.err = false ∧
      u.bitCount = t.bitCount ∧ u.outLen = t.outLen ∧
      (∀ a, 10 + 5 * t.symCount.toNat ≤ a → a < t.outLen.toNat → u.outAt a = t.outAt a) ∧
      u.freq = t.freq ∧ u.symCount = t.symCount ∧ u.nodeCount = t.nodeCount ∧ u.root = t.root ∧
      (∀ h : Handle, h < t.nodeCount → u.nodeAt h = t.nodeAt h) ∧ u.codeLen = t.codeLen ∧ u.codeVal = t.codeVal

/-- The invariant holds right after reset. -/
def Obligations.InvariantAtReset : Prop := Invariant State.reset

/-- The invariant holds after a reset delivered in any state (R320). -/
def Obligations.InvariantAfterAnyReset : Prop :=
  ∀ (s : State) (rest : List Move), s.agenda = .reset :: rest → ∃ t, step s = .next t ∧ Invariant t

/-- Every step, of the HFC, the host or the platform, keeps the invariant: the memories' canonical form and bounds, the
handshake bits, the error registers, the flags' order (R46), the tables (R48 to R50) and the streams (R51, R52). -/
def Obligations.StepKeepsTheInvariant : Prop := ∀ s t : State, Invariant s → step s = .next t → Invariant t

/-! ## The parameters and the host's addresses -/

/-- Where the three regions stand (R9, R22, R54, R85): a 32-bit access at REG_BASE + off is the register move at `off`, and
where the windows are mapped a byte access at IN_BASE + off or OUT_BASE + off is the window's move at `off`, wherever the
platform puts the bases. -/
def Obligations.BusAccessesAreTheMovesAtTheBases : Prop :=
  ∀ (s : State) (off : Nat) (v : Word) (b : Byte) (rest : List Move),
    (off < 0x100 →
      (s.agenda = .bus (.readWord (s.params.regBase + off)) :: rest →
        step s = step { s with agenda := .host (.regRead off) :: rest }) ∧
      (s.agenda = .bus (.writeWord (s.params.regBase + off) v) :: rest →
        step s = step { s with agenda := .host (.regWrite off v) :: rest })) ∧
    (s.params.windowsMapped = true → off < s.params.inCap →
      (s.agenda = .bus (.readByte (s.params.inBase + off)) :: rest →
        step s = step { s with agenda := .host (.inRead off) :: rest }) ∧
      (s.agenda = .bus (.writeByte (s.params.inBase + off) b) :: rest →
        step s = step { s with agenda := .host (.inWrite off b) :: rest })) ∧
    (s.params.windowsMapped = true → off < s.params.outCap →
      (s.agenda = .bus (.readByte (s.params.outBase + off)) :: rest →
        step s = step { s with agenda := .host (.outRead off) :: rest }) ∧
      (s.agenda = .bus (.writeByte (s.params.outBase + off) b) :: rest →
        step s = step { s with agenda := .host (.outWrite off b) :: rest }))

/-- A host access at an address of none of the three regions, or of a width its region does not take, stops the run, by
name (R54, R79, R80, U8: "refuse"; the names are the model's, log 9). -/
def Obligations.BusAccessesOutsideTheRegionsStop : Prop :=
  ∀ (s : State) (a : Nat) (v : Word) (b : Byte) (rest : List Move),
    (s.agenda = .bus (.readWord a) :: rest ∨ s.agenda = .bus (.writeWord a v) :: rest ∨
        s.agenda = .bus (.readByte a) :: rest ∨ s.agenda = .bus (.writeByte a b) :: rest →
      (a < s.params.regBase ∨ s.params.regBase + 0x100 ≤ a) →
      (s.params.windowsMapped = true →
        (a < s.params.inBase ∨ s.params.inBase + s.params.inCap ≤ a) ∧
        (a < s.params.outBase ∨ s.params.outBase + s.params.outCap ≤ a)) →
      step s = .fault .outsideRegions) ∧
    (s.agenda = .bus (.readByte a) :: rest ∨ s.agenda = .bus (.writeByte a b) :: rest →
      s.params.regBase ≤ a → a < s.params.regBase + 0x100 → step s = .refused .accessWidth) ∧
    (s.agenda = .bus (.readWord a) :: rest ∨ s.agenda = .bus (.writeWord a v) :: rest →
      s.params.windowsMapped = true →
      (s.params.inBase ≤ a ∧ a < s.params.inBase + s.params.inCap) ∨
        (s.params.outBase ≤ a ∧ a < s.params.outBase + s.params.outCap) →
      step s = .refused .accessWidth)

/-- "every rule of this spec uses offsets from them only" (R9): but for an access by address, a step does the same in two
states that differ in the base addresses and in whether the windows are mapped (R85) alone. -/
def Obligations.BaseAddressesChangeNoMove : Prop :=
  ∀ (s : State) (p : Params), p.inCap = s.params.inCap → p.outCap = s.params.outCap →
    (∀ x rest, s.agenda ≠ .bus x :: rest) →
    (∀ t, step s = .next t → step { s with params := p } = .next { t with params := p }) ∧
    (∀ f, step s = .fault f → step { s with params := p } = .fault f) ∧
    (∀ r, step s = .refused r → step { s with params := p } = .refused r)

/-- No step changes a parameter (R7, R9, R44): not a command, not a host's access, not reset. -/
def Obligations.NoStepChangesTheParameters : Prop := ∀ s t : State, step s = .next t → t.params = s.params
end

