-- ==== Sys2Proof/Laws/State.lean ====
section
/-! SUPPORT. What each named update of State does to each field: one lemma per field and update, by definition, so
that no later proof unfolds a record update. -/

namespace Sys2Proof.Machine

/-! ## putOut -/

@[simp] theorem putOut_seq (a : Nat) (b : Byte) (s : State) : (putOut a b s).seq = s.seq := rfl
@[simp] theorem putOut_pend (a : Nat) (b : Byte) (s : State) : (putOut a b s).pend = s.pend := rfl
@[simp] theorem putOut_params (a : Nat) (b : Byte) (s : State) : (putOut a b s).params = s.params := rfl
@[simp] theorem putOut_ie (a : Nat) (b : Byte) (s : State) : (putOut a b s).ie = s.ie := rfl
@[simp] theorem putOut_done (a : Nat) (b : Byte) (s : State) : (putOut a b s).done = s.done := rfl
@[simp] theorem putOut_err (a : Nat) (b : Byte) (s : State) : (putOut a b s).err = s.err := rfl
@[simp] theorem putOut_ovr (a : Nat) (b : Byte) (s : State) : (putOut a b s).ovr = s.ovr := rfl
@[simp] theorem putOut_freqValid (a : Nat) (b : Byte) (s : State) : (putOut a b s).freqValid = s.freqValid := rfl
@[simp] theorem putOut_treeValid (a : Nat) (b : Byte) (s : State) : (putOut a b s).treeValid = s.treeValid := rfl
@[simp] theorem putOut_codeValid (a : Nat) (b : Byte) (s : State) : (putOut a b s).codeValid = s.codeValid := rfl
@[simp] theorem putOut_bwOpen (a : Nat) (b : Byte) (s : State) : (putOut a b s).bwOpen = s.bwOpen := rfl
@[simp] theorem putOut_brOpen (a : Nat) (b : Byte) (s : State) : (putOut a b s).brOpen = s.brOpen := rfl
@[simp] theorem putOut_errCode (a : Nat) (b : Byte) (s : State) : (putOut a b s).errCode = s.errCode := rfl
@[simp] theorem putOut_errInfo (a : Nat) (b : Byte) (s : State) : (putOut a b s).errInfo = s.errInfo := rfl
@[simp] theorem putOut_inLen (a : Nat) (b : Byte) (s : State) : (putOut a b s).inLen = s.inLen := rfl
@[simp] theorem putOut_outLen (a : Nat) (b : Byte) (s : State) : (putOut a b s).outLen = s.outLen := rfl
@[simp] theorem putOut_symCount (a : Nat) (b : Byte) (s : State) : (putOut a b s).symCount = s.symCount := rfl
@[simp] theorem putOut_bitCount (a : Nat) (b : Byte) (s : State) : (putOut a b s).bitCount = s.bitCount := rfl
@[simp] theorem putOut_bwBase (a : Nat) (b : Byte) (s : State) : (putOut a b s).bwBase = s.bwBase := rfl
@[simp] theorem putOut_brBase (a : Nat) (b : Byte) (s : State) : (putOut a b s).brBase = s.brBase := rfl
@[simp] theorem putOut_brLimit (a : Nat) (b : Byte) (s : State) : (putOut a b s).brLimit = s.brLimit := rfl
@[simp] theorem putOut_nodeCount (a : Nat) (b : Byte) (s : State) : (putOut a b s).nodeCount = s.nodeCount := rfl
@[simp] theorem putOut_root (a : Nat) (b : Byte) (s : State) : (putOut a b s).root = s.root := rfl
@[simp] theorem putOut_res (a : Nat) (b : Byte) (s : State) : (putOut a b s).res = s.res := rfl
@[simp] theorem putOut_freq (a : Nat) (b : Byte) (s : State) : (putOut a b s).freq = s.freq := rfl
@[simp] theorem putOut_node (a : Nat) (b : Byte) (s : State) : (putOut a b s).node = s.node := rfl
@[simp] theorem putOut_codeLen (a : Nat) (b : Byte) (s : State) : (putOut a b s).codeLen = s.codeLen := rfl
@[simp] theorem putOut_codeVal (a : Nat) (b : Byte) (s : State) : (putOut a b s).codeVal = s.codeVal := rfl
@[simp] theorem putOut_bwOrg (a : Nat) (b : Byte) (s : State) : (putOut a b s).bwOrg = s.bwOrg := rfl
@[simp] theorem putOut_bwTotal (a : Nat) (b : Byte) (s : State) : (putOut a b s).bwTotal = s.bwTotal := rfl
@[simp] theorem putOut_bwAcc (a : Nat) (b : Byte) (s : State) : (putOut a b s).bwAcc = s.bwAcc := rfl
@[simp] theorem putOut_brOrg (a : Nat) (b : Byte) (s : State) : (putOut a b s).brOrg = s.brOrg := rfl
@[simp] theorem putOut_brLim (a : Nat) (b : Byte) (s : State) : (putOut a b s).brLim = s.brLim := rfl
@[simp] theorem putOut_brPos (a : Nat) (b : Byte) (s : State) : (putOut a b s).brPos = s.brPos := rfl
@[simp] theorem putOut_inBuf (a : Nat) (b : Byte) (s : State) : (putOut a b s).inBuf = s.inBuf := rfl
@[simp] theorem putOut_outBuf (a : Nat) (b : Byte) (s : State) : (putOut a b s).outBuf = s.outBuf.write a b := rfl
@[simp] theorem putOut_draw (a : Nat) (b : Byte) (s : State) : (putOut a b s).draw = s.draw := rfl
@[simp] theorem putOut_agenda (a : Nat) (b : Byte) (s : State) : (putOut a b s).agenda = s.agenda := rfl
@[simp] theorem putOut_resp (a : Nat) (b : Byte) (s : State) : (putOut a b s).resp = s.resp := rfl

/-! ## putIn -/

@[simp] theorem putIn_seq (a : Nat) (b : Byte) (s : State) : (putIn a b s).seq = s.seq := rfl
@[simp] theorem putIn_pend (a : Nat) (b : Byte) (s : State) : (putIn a b s).pend = s.pend := rfl
@[simp] theorem putIn_params (a : Nat) (b : Byte) (s : State) : (putIn a b s).params = s.params := rfl
@[simp] theorem putIn_ie (a : Nat) (b : Byte) (s : State) : (putIn a b s).ie = s.ie := rfl
@[simp] theorem putIn_done (a : Nat) (b : Byte) (s : State) : (putIn a b s).done = s.done := rfl
@[simp] theorem putIn_err (a : Nat) (b : Byte) (s : State) : (putIn a b s).err = s.err := rfl
@[simp] theorem putIn_ovr (a : Nat) (b : Byte) (s : State) : (putIn a b s).ovr = s.ovr := rfl
@[simp] theorem putIn_freqValid (a : Nat) (b : Byte) (s : State) : (putIn a b s).freqValid = s.freqValid := rfl
@[simp] theorem putIn_treeValid (a : Nat) (b : Byte) (s : State) : (putIn a b s).treeValid = s.treeValid := rfl
@[simp] theorem putIn_codeValid (a : Nat) (b : Byte) (s : State) : (putIn a b s).codeValid = s.codeValid := rfl
@[simp] theorem putIn_bwOpen (a : Nat) (b : Byte) (s : State) : (putIn a b s).bwOpen = s.bwOpen := rfl
@[simp] theorem putIn_brOpen (a : Nat) (b : Byte) (s : State) : (putIn a b s).brOpen = s.brOpen := rfl
@[simp] theorem putIn_errCode (a : Nat) (b : Byte) (s : State) : (putIn a b s).errCode = s.errCode := rfl
@[simp] theorem putIn_errInfo (a : Nat) (b : Byte) (s : State) : (putIn a b s).errInfo = s.errInfo := rfl
@[simp] theorem putIn_inLen (a : Nat) (b : Byte) (s : State) : (putIn a b s).inLen = s.inLen := rfl
@[simp] theorem putIn_outLen (a : Nat) (b : Byte) (s : State) : (putIn a b s).outLen = s.outLen := rfl
@[simp] theorem putIn_symCount (a : Nat) (b : Byte) (s : State) : (putIn a b s).symCount = s.symCount := rfl
@[simp] theorem putIn_bitCount (a : Nat) (b : Byte) (s : State) : (putIn a b s).bitCount = s.bitCount := rfl
@[simp] theorem putIn_bwBase (a : Nat) (b : Byte) (s : State) : (putIn a b s).bwBase = s.bwBase := rfl
@[simp] theorem putIn_brBase (a : Nat) (b : Byte) (s : State) : (putIn a b s).brBase = s.brBase := rfl
@[simp] theorem putIn_brLimit (a : Nat) (b : Byte) (s : State) : (putIn a b s).brLimit = s.brLimit := rfl
@[simp] theorem putIn_nodeCount (a : Nat) (b : Byte) (s : State) : (putIn a b s).nodeCount = s.nodeCount := rfl
@[simp] theorem putIn_root (a : Nat) (b : Byte) (s : State) : (putIn a b s).root = s.root := rfl
@[simp] theorem putIn_res (a : Nat) (b : Byte) (s : State) : (putIn a b s).res = s.res := rfl
@[simp] theorem putIn_freq (a : Nat) (b : Byte) (s : State) : (putIn a b s).freq = s.freq := rfl
@[simp] theorem putIn_node (a : Nat) (b : Byte) (s : State) : (putIn a b s).node = s.node := rfl
@[simp] theorem putIn_codeLen (a : Nat) (b : Byte) (s : State) : (putIn a b s).codeLen = s.codeLen := rfl
@[simp] theorem putIn_codeVal (a : Nat) (b : Byte) (s : State) : (putIn a b s).codeVal = s.codeVal := rfl
@[simp] theorem putIn_bwOrg (a : Nat) (b : Byte) (s : State) : (putIn a b s).bwOrg = s.bwOrg := rfl
@[simp] theorem putIn_bwTotal (a : Nat) (b : Byte) (s : State) : (putIn a b s).bwTotal = s.bwTotal := rfl
@[simp] theorem putIn_bwAcc (a : Nat) (b : Byte) (s : State) : (putIn a b s).bwAcc = s.bwAcc := rfl
@[simp] theorem putIn_brOrg (a : Nat) (b : Byte) (s : State) : (putIn a b s).brOrg = s.brOrg := rfl
@[simp] theorem putIn_brLim (a : Nat) (b : Byte) (s : State) : (putIn a b s).brLim = s.brLim := rfl
@[simp] theorem putIn_brPos (a : Nat) (b : Byte) (s : State) : (putIn a b s).brPos = s.brPos := rfl
@[simp] theorem putIn_inBuf (a : Nat) (b : Byte) (s : State) : (putIn a b s).inBuf = s.inBuf.write a b := rfl
@[simp] theorem putIn_outBuf (a : Nat) (b : Byte) (s : State) : (putIn a b s).outBuf = s.outBuf := rfl
@[simp] theorem putIn_draw (a : Nat) (b : Byte) (s : State) : (putIn a b s).draw = s.draw := rfl
@[simp] theorem putIn_agenda (a : Nat) (b : Byte) (s : State) : (putIn a b s).agenda = s.agenda := rfl
@[simp] theorem putIn_resp (a : Nat) (b : Byte) (s : State) : (putIn a b s).resp = s.resp := rfl

/-! ## setRes -/

@[simp] theorem setRes_seq (l : List Word) (s : State) : (setRes l s).seq = s.seq := rfl
@[simp] theorem setRes_pend (l : List Word) (s : State) : (setRes l s).pend = s.pend := rfl
@[simp] theorem setRes_params (l : List Word) (s : State) : (setRes l s).params = s.params := rfl
@[simp] theorem setRes_ie (l : List Word) (s : State) : (setRes l s).ie = s.ie := rfl
@[simp] theorem setRes_done (l : List Word) (s : State) : (setRes l s).done = s.done := rfl
@[simp] theorem setRes_err (l : List Word) (s : State) : (setRes l s).err = s.err := rfl
@[simp] theorem setRes_ovr (l : List Word) (s : State) : (setRes l s).ovr = s.ovr := rfl
@[simp] theorem setRes_freqValid (l : List Word) (s : State) : (setRes l s).freqValid = s.freqValid := rfl
@[simp] theorem setRes_treeValid (l : List Word) (s : State) : (setRes l s).treeValid = s.treeValid := rfl
@[simp] theorem setRes_codeValid (l : List Word) (s : State) : (setRes l s).codeValid = s.codeValid := rfl
@[simp] theorem setRes_bwOpen (l : List Word) (s : State) : (setRes l s).bwOpen = s.bwOpen := rfl
@[simp] theorem setRes_brOpen (l : List Word) (s : State) : (setRes l s).brOpen = s.brOpen := rfl
@[simp] theorem setRes_errCode (l : List Word) (s : State) : (setRes l s).errCode = s.errCode := rfl
@[simp] theorem setRes_errInfo (l : List Word) (s : State) : (setRes l s).errInfo = s.errInfo := rfl
@[simp] theorem setRes_inLen (l : List Word) (s : State) : (setRes l s).inLen = s.inLen := rfl
@[simp] theorem setRes_outLen (l : List Word) (s : State) : (setRes l s).outLen = s.outLen := rfl
@[simp] theorem setRes_symCount (l : List Word) (s : State) : (setRes l s).symCount = s.symCount := rfl
@[simp] theorem setRes_bitCount (l : List Word) (s : State) : (setRes l s).bitCount = s.bitCount := rfl
@[simp] theorem setRes_bwBase (l : List Word) (s : State) : (setRes l s).bwBase = s.bwBase := rfl
@[simp] theorem setRes_brBase (l : List Word) (s : State) : (setRes l s).brBase = s.brBase := rfl
@[simp] theorem setRes_brLimit (l : List Word) (s : State) : (setRes l s).brLimit = s.brLimit := rfl
@[simp] theorem setRes_nodeCount (l : List Word) (s : State) : (setRes l s).nodeCount = s.nodeCount := rfl
@[simp] theorem setRes_root (l : List Word) (s : State) : (setRes l s).root = s.root := rfl
@[simp] theorem setRes_res (l : List Word) (s : State) : (setRes l s).res = Vector.ofFn fun i => l.getD i 0 := rfl
@[simp] theorem setRes_freq (l : List Word) (s : State) : (setRes l s).freq = s.freq := rfl
@[simp] theorem setRes_node (l : List Word) (s : State) : (setRes l s).node = s.node := rfl
@[simp] theorem setRes_codeLen (l : List Word) (s : State) : (setRes l s).codeLen = s.codeLen := rfl
@[simp] theorem setRes_codeVal (l : List Word) (s : State) : (setRes l s).codeVal = s.codeVal := rfl
@[simp] theorem setRes_bwOrg (l : List Word) (s : State) : (setRes l s).bwOrg = s.bwOrg := rfl
@[simp] theorem setRes_bwTotal (l : List Word) (s : State) : (setRes l s).bwTotal = s.bwTotal := rfl
@[simp] theorem setRes_bwAcc (l : List Word) (s : State) : (setRes l s).bwAcc = s.bwAcc := rfl
@[simp] theorem setRes_brOrg (l : List Word) (s : State) : (setRes l s).brOrg = s.brOrg := rfl
@[simp] theorem setRes_brLim (l : List Word) (s : State) : (setRes l s).brLim = s.brLim := rfl
@[simp] theorem setRes_brPos (l : List Word) (s : State) : (setRes l s).brPos = s.brPos := rfl
@[simp] theorem setRes_inBuf (l : List Word) (s : State) : (setRes l s).inBuf = s.inBuf := rfl
@[simp] theorem setRes_outBuf (l : List Word) (s : State) : (setRes l s).outBuf = s.outBuf := rfl
@[simp] theorem setRes_draw (l : List Word) (s : State) : (setRes l s).draw = s.draw := rfl
@[simp] theorem setRes_agenda (l : List Word) (s : State) : (setRes l s).agenda = s.agenda := rfl
@[simp] theorem setRes_resp (l : List Word) (s : State) : (setRes l s).resp = s.resp := rfl

/-! ## clearDerived -/

@[simp] theorem clearDerived_seq (s : State) : (clearDerived s).seq = s.seq := rfl
@[simp] theorem clearDerived_pend (s : State) : (clearDerived s).pend = s.pend := rfl
@[simp] theorem clearDerived_params (s : State) : (clearDerived s).params = s.params := rfl
@[simp] theorem clearDerived_ie (s : State) : (clearDerived s).ie = s.ie := rfl
@[simp] theorem clearDerived_done (s : State) : (clearDerived s).done = s.done := rfl
@[simp] theorem clearDerived_err (s : State) : (clearDerived s).err = s.err := rfl
@[simp] theorem clearDerived_ovr (s : State) : (clearDerived s).ovr = s.ovr := rfl
@[simp] theorem clearDerived_freqValid (s : State) : (clearDerived s).freqValid = false := rfl
@[simp] theorem clearDerived_treeValid (s : State) : (clearDerived s).treeValid = false := rfl
@[simp] theorem clearDerived_codeValid (s : State) : (clearDerived s).codeValid = false := rfl
@[simp] theorem clearDerived_bwOpen (s : State) : (clearDerived s).bwOpen = false := rfl
@[simp] theorem clearDerived_brOpen (s : State) : (clearDerived s).brOpen = false := rfl
@[simp] theorem clearDerived_errCode (s : State) : (clearDerived s).errCode = s.errCode := rfl
@[simp] theorem clearDerived_errInfo (s : State) : (clearDerived s).errInfo = s.errInfo := rfl
@[simp] theorem clearDerived_inLen (s : State) : (clearDerived s).inLen = s.inLen := rfl
@[simp] theorem clearDerived_outLen (s : State) : (clearDerived s).outLen = 0 := rfl
@[simp] theorem clearDerived_symCount (s : State) : (clearDerived s).symCount = 0 := rfl
@[simp] theorem clearDerived_bitCount (s : State) : (clearDerived s).bitCount = 0 := rfl
@[simp] theorem clearDerived_bwBase (s : State) : (clearDerived s).bwBase = s.bwBase := rfl
@[simp] theorem clearDerived_brBase (s : State) : (clearDerived s).brBase = s.brBase := rfl
@[simp] theorem clearDerived_brLimit (s : State) : (clearDerived s).brLimit = s.brLimit := rfl
@[simp] theorem clearDerived_nodeCount (s : State) : (clearDerived s).nodeCount = 0 := rfl
@[simp] theorem clearDerived_root (s : State) : (clearDerived s).root = 0 := rfl
@[simp] theorem clearDerived_res (s : State) : (clearDerived s).res = s.res := rfl
@[simp] theorem clearDerived_freq (s : State) : (clearDerived s).freq = freeFreqTable s.draw := rfl
@[simp] theorem clearDerived_node (s : State) : (clearDerived s).node = freeNodeTable s.draw := rfl
@[simp] theorem clearDerived_codeLen (s : State) : (clearDerived s).codeLen = freeCodeLenTable s.draw := rfl
@[simp] theorem clearDerived_codeVal (s : State) : (clearDerived s).codeVal = freeCodeValTable s.draw := rfl
@[simp] theorem clearDerived_bwOrg (s : State) : (clearDerived s).bwOrg = Config.freeBwOrg s.draw := rfl
@[simp] theorem clearDerived_bwTotal (s : State) : (clearDerived s).bwTotal = 0 := rfl
@[simp] theorem clearDerived_bwAcc (s : State) : (clearDerived s).bwAcc = Config.freeBwAcc s.draw := rfl
@[simp] theorem clearDerived_brOrg (s : State) : (clearDerived s).brOrg = Config.freeBrOrg s.draw := rfl
@[simp] theorem clearDerived_brLim (s : State) : (clearDerived s).brLim = Config.freeBrLim s.draw := rfl
@[simp] theorem clearDerived_brPos (s : State) : (clearDerived s).brPos = 0 := rfl
@[simp] theorem clearDerived_inBuf (s : State) : (clearDerived s).inBuf = s.inBuf := rfl
@[simp] theorem clearDerived_outBuf (s : State) : (clearDerived s).outBuf = Memory.havoc s.draw := rfl
@[simp] theorem clearDerived_draw (s : State) : (clearDerived s).draw = s.draw + 1 := rfl
@[simp] theorem clearDerived_agenda (s : State) : (clearDerived s).agenda = s.agenda := rfl
@[simp] theorem clearDerived_resp (s : State) : (clearDerived s).resp = s.resp := rfl

/-! ## errorEntry -/

@[simp] theorem errorEntry_seq (c : Cause) (s : State) : (errorEntry c s).seq = s.seq := rfl
@[simp] theorem errorEntry_pend (c : Cause) (s : State) : (errorEntry c s).pend = s.pend := rfl
@[simp] theorem errorEntry_params (c : Cause) (s : State) : (errorEntry c s).params = s.params := rfl
@[simp] theorem errorEntry_ie (c : Cause) (s : State) : (errorEntry c s).ie = s.ie := rfl
@[simp] theorem errorEntry_done (c : Cause) (s : State) : (errorEntry c s).done = s.done := rfl
@[simp] theorem errorEntry_err (c : Cause) (s : State) : (errorEntry c s).err = true := rfl
@[simp] theorem errorEntry_ovr (c : Cause) (s : State) : (errorEntry c s).ovr = s.ovr := rfl
@[simp] theorem errorEntry_freqValid (c : Cause) (s : State) : (errorEntry c s).freqValid = false := rfl
@[simp] theorem errorEntry_treeValid (c : Cause) (s : State) : (errorEntry c s).treeValid = false := rfl
@[simp] theorem errorEntry_codeValid (c : Cause) (s : State) : (errorEntry c s).codeValid = false := rfl
@[simp] theorem errorEntry_bwOpen (c : Cause) (s : State) : (errorEntry c s).bwOpen = false := rfl
@[simp] theorem errorEntry_brOpen (c : Cause) (s : State) : (errorEntry c s).brOpen = false := rfl
@[simp] theorem errorEntry_errCode (c : Cause) (s : State) : (errorEntry c s).errCode = errorCode c := rfl
@[simp] theorem errorEntry_errInfo (c : Cause) (s : State) : (errorEntry c s).errInfo = errorInfo c := rfl
@[simp] theorem errorEntry_inLen (c : Cause) (s : State) : (errorEntry c s).inLen = s.inLen := rfl
@[simp] theorem errorEntry_outLen (c : Cause) (s : State) : (errorEntry c s).outLen = 0 := rfl
@[simp] theorem errorEntry_symCount (c : Cause) (s : State) : (errorEntry c s).symCount = 0 := rfl
@[simp] theorem errorEntry_bitCount (c : Cause) (s : State) : (errorEntry c s).bitCount = 0 := rfl
@[simp] theorem errorEntry_bwBase (c : Cause) (s : State) : (errorEntry c s).bwBase = s.bwBase := rfl
@[simp] theorem errorEntry_brBase (c : Cause) (s : State) : (errorEntry c s).brBase = s.brBase := rfl
@[simp] theorem errorEntry_brLimit (c : Cause) (s : State) : (errorEntry c s).brLimit = s.brLimit := rfl
@[simp] theorem errorEntry_nodeCount (c : Cause) (s : State) : (errorEntry c s).nodeCount = 0 := rfl
@[simp] theorem errorEntry_root (c : Cause) (s : State) : (errorEntry c s).root = 0 := rfl
@[simp] theorem errorEntry_res (c : Cause) (s : State) : (errorEntry c s).res = s.res := rfl
@[simp] theorem errorEntry_freq (c : Cause) (s : State) : (errorEntry c s).freq = freeFreqTable s.draw := rfl
@[simp] theorem errorEntry_node (c : Cause) (s : State) : (errorEntry c s).node = freeNodeTable s.draw := rfl
@[simp] theorem errorEntry_codeLen (c : Cause) (s : State) : (errorEntry c s).codeLen = freeCodeLenTable s.draw := rfl
@[simp] theorem errorEntry_codeVal (c : Cause) (s : State) : (errorEntry c s).codeVal = freeCodeValTable s.draw := rfl
@[simp] theorem errorEntry_bwOrg (c : Cause) (s : State) : (errorEntry c s).bwOrg = Config.freeBwOrg s.draw := rfl
@[simp] theorem errorEntry_bwTotal (c : Cause) (s : State) : (errorEntry c s).bwTotal = 0 := rfl
@[simp] theorem errorEntry_bwAcc (c : Cause) (s : State) : (errorEntry c s).bwAcc = Config.freeBwAcc s.draw := rfl
@[simp] theorem errorEntry_brOrg (c : Cause) (s : State) : (errorEntry c s).brOrg = Config.freeBrOrg s.draw := rfl
@[simp] theorem errorEntry_brLim (c : Cause) (s : State) : (errorEntry c s).brLim = Config.freeBrLim s.draw := rfl
@[simp] theorem errorEntry_brPos (c : Cause) (s : State) : (errorEntry c s).brPos = 0 := rfl
@[simp] theorem errorEntry_inBuf (c : Cause) (s : State) : (errorEntry c s).inBuf = s.inBuf := rfl
@[simp] theorem errorEntry_outBuf (c : Cause) (s : State) : (errorEntry c s).outBuf = Memory.havoc s.draw := rfl
@[simp] theorem errorEntry_draw (c : Cause) (s : State) : (errorEntry c s).draw = s.draw + 1 := rfl
@[simp] theorem errorEntry_agenda (c : Cause) (s : State) : (errorEntry c s).agenda = s.agenda := rfl
@[simp] theorem errorEntry_resp (c : Cause) (s : State) : (errorEntry c s).resp = s.resp := rfl

/-! ## accept -/

@[simp] theorem accept_seq (w : Word) (s : State) : (accept w s).seq = .exec := rfl
@[simp] theorem accept_pend (w : Word) (s : State) : (accept w s).pend = w := rfl
@[simp] theorem accept_params (w : Word) (s : State) : (accept w s).params = s.params := rfl
@[simp] theorem accept_ie (w : Word) (s : State) : (accept w s).ie = s.ie := rfl
@[simp] theorem accept_done (w : Word) (s : State) : (accept w s).done = false := rfl
@[simp] theorem accept_err (w : Word) (s : State) : (accept w s).err = false := rfl
@[simp] theorem accept_ovr (w : Word) (s : State) : (accept w s).ovr = s.ovr := rfl
@[simp] theorem accept_freqValid (w : Word) (s : State) : (accept w s).freqValid = s.freqValid := rfl
@[simp] theorem accept_treeValid (w : Word) (s : State) : (accept w s).treeValid = s.treeValid := rfl
@[simp] theorem accept_codeValid (w : Word) (s : State) : (accept w s).codeValid = s.codeValid := rfl
@[simp] theorem accept_bwOpen (w : Word) (s : State) : (accept w s).bwOpen = s.bwOpen := rfl
@[simp] theorem accept_brOpen (w : Word) (s : State) : (accept w s).brOpen = s.brOpen := rfl
@[simp] theorem accept_errCode (w : Word) (s : State) : (accept w s).errCode = 0 := rfl
@[simp] theorem accept_errInfo (w : Word) (s : State) : (accept w s).errInfo = 0 := rfl
@[simp] theorem accept_inLen (w : Word) (s : State) : (accept w s).inLen = s.inLen := rfl
@[simp] theorem accept_outLen (w : Word) (s : State) : (accept w s).outLen = s.outLen := rfl
@[simp] theorem accept_symCount (w : Word) (s : State) : (accept w s).symCount = s.symCount := rfl
@[simp] theorem accept_bitCount (w : Word) (s : State) : (accept w s).bitCount = s.bitCount := rfl
@[simp] theorem accept_bwBase (w : Word) (s : State) : (accept w s).bwBase = s.bwBase := rfl
@[simp] theorem accept_brBase (w : Word) (s : State) : (accept w s).brBase = s.brBase := rfl
@[simp] theorem accept_brLimit (w : Word) (s : State) : (accept w s).brLimit = s.brLimit := rfl
@[simp] theorem accept_nodeCount (w : Word) (s : State) : (accept w s).nodeCount = s.nodeCount := rfl
@[simp] theorem accept_root (w : Word) (s : State) : (accept w s).root = s.root := rfl
@[simp] theorem accept_res (w : Word) (s : State) : (accept w s).res = s.res := rfl
@[simp] theorem accept_freq (w : Word) (s : State) : (accept w s).freq = s.freq := rfl
@[simp] theorem accept_node (w : Word) (s : State) : (accept w s).node = s.node := rfl
@[simp] theorem accept_codeLen (w : Word) (s : State) : (accept w s).codeLen = s.codeLen := rfl
@[simp] theorem accept_codeVal (w : Word) (s : State) : (accept w s).codeVal = s.codeVal := rfl
@[simp] theorem accept_bwOrg (w : Word) (s : State) : (accept w s).bwOrg = s.bwOrg := rfl
@[simp] theorem accept_bwTotal (w : Word) (s : State) : (accept w s).bwTotal = s.bwTotal := rfl
@[simp] theorem accept_bwAcc (w : Word) (s : State) : (accept w s).bwAcc = s.bwAcc := rfl
@[simp] theorem accept_brOrg (w : Word) (s : State) : (accept w s).brOrg = s.brOrg := rfl
@[simp] theorem accept_brLim (w : Word) (s : State) : (accept w s).brLim = s.brLim := rfl
@[simp] theorem accept_brPos (w : Word) (s : State) : (accept w s).brPos = s.brPos := rfl
@[simp] theorem accept_inBuf (w : Word) (s : State) : (accept w s).inBuf = s.inBuf := rfl
@[simp] theorem accept_outBuf (w : Word) (s : State) : (accept w s).outBuf = s.outBuf := rfl
@[simp] theorem accept_draw (w : Word) (s : State) : (accept w s).draw = s.draw := rfl
@[simp] theorem accept_agenda (w : Word) (s : State) : (accept w s).agenda = s.agenda := rfl
@[simp] theorem accept_resp (w : Word) (s : State) : (accept w s).resp = s.resp := rfl

/-! ## complete -/

@[simp] theorem complete_seq (s : State) : (complete s).seq = .idle := rfl
@[simp] theorem complete_pend (s : State) : (complete s).pend = s.pend := rfl
@[simp] theorem complete_params (s : State) : (complete s).params = s.params := rfl
@[simp] theorem complete_ie (s : State) : (complete s).ie = s.ie := rfl
@[simp] theorem complete_done (s : State) : (complete s).done = true := rfl
@[simp] theorem complete_err (s : State) : (complete s).err = s.err := rfl
@[simp] theorem complete_ovr (s : State) : (complete s).ovr = s.ovr := rfl
@[simp] theorem complete_freqValid (s : State) : (complete s).freqValid = s.freqValid := rfl
@[simp] theorem complete_treeValid (s : State) : (complete s).treeValid = s.treeValid := rfl
@[simp] theorem complete_codeValid (s : State) : (complete s).codeValid = s.codeValid := rfl
@[simp] theorem complete_bwOpen (s : State) : (complete s).bwOpen = s.bwOpen := rfl
@[simp] theorem complete_brOpen (s : State) : (complete s).brOpen = s.brOpen := rfl
@[simp] theorem complete_errCode (s : State) : (complete s).errCode = s.errCode := rfl
@[simp] theorem complete_errInfo (s : State) : (complete s).errInfo = s.errInfo := rfl
@[simp] theorem complete_inLen (s : State) : (complete s).inLen = s.inLen := rfl
@[simp] theorem complete_outLen (s : State) : (complete s).outLen = s.outLen := rfl
@[simp] theorem complete_symCount (s : State) : (complete s).symCount = s.symCount := rfl
@[simp] theorem complete_bitCount (s : State) : (complete s).bitCount = s.bitCount := rfl
@[simp] theorem complete_bwBase (s : State) : (complete s).bwBase = s.bwBase := rfl
@[simp] theorem complete_brBase (s : State) : (complete s).brBase = s.brBase := rfl
@[simp] theorem complete_brLimit (s : State) : (complete s).brLimit = s.brLimit := rfl
@[simp] theorem complete_nodeCount (s : State) : (complete s).nodeCount = s.nodeCount := rfl
@[simp] theorem complete_root (s : State) : (complete s).root = s.root := rfl
@[simp] theorem complete_res (s : State) : (complete s).res = s.res := rfl
@[simp] theorem complete_freq (s : State) : (complete s).freq = s.freq := rfl
@[simp] theorem complete_node (s : State) : (complete s).node = s.node := rfl
@[simp] theorem complete_codeLen (s : State) : (complete s).codeLen = s.codeLen := rfl
@[simp] theorem complete_codeVal (s : State) : (complete s).codeVal = s.codeVal := rfl
@[simp] theorem complete_bwOrg (s : State) : (complete s).bwOrg = s.bwOrg := rfl
@[simp] theorem complete_bwTotal (s : State) : (complete s).bwTotal = s.bwTotal := rfl
@[simp] theorem complete_bwAcc (s : State) : (complete s).bwAcc = s.bwAcc := rfl
@[simp] theorem complete_brOrg (s : State) : (complete s).brOrg = s.brOrg := rfl
@[simp] theorem complete_brLim (s : State) : (complete s).brLim = s.brLim := rfl
@[simp] theorem complete_brPos (s : State) : (complete s).brPos = s.brPos := rfl
@[simp] theorem complete_inBuf (s : State) : (complete s).inBuf = s.inBuf := rfl
@[simp] theorem complete_outBuf (s : State) : (complete s).outBuf = s.outBuf := rfl
@[simp] theorem complete_draw (s : State) : (complete s).draw = s.draw := rfl
@[simp] theorem complete_agenda (s : State) : (complete s).agenda = s.agenda := rfl
@[simp] theorem complete_resp (s : State) : (complete s).resp = s.resp := rfl

/-! ## popMove -/

@[simp] theorem popMove_seq (s : State) : (s.popMove).seq = s.seq := rfl
@[simp] theorem popMove_pend (s : State) : (s.popMove).pend = s.pend := rfl
@[simp] theorem popMove_params (s : State) : (s.popMove).params = s.params := rfl
@[simp] theorem popMove_ie (s : State) : (s.popMove).ie = s.ie := rfl
@[simp] theorem popMove_done (s : State) : (s.popMove).done = s.done := rfl
@[simp] theorem popMove_err (s : State) : (s.popMove).err = s.err := rfl
@[simp] theorem popMove_ovr (s : State) : (s.popMove).ovr = s.ovr := rfl
@[simp] theorem popMove_freqValid (s : State) : (s.popMove).freqValid = s.freqValid := rfl
@[simp] theorem popMove_treeValid (s : State) : (s.popMove).treeValid = s.treeValid := rfl
@[simp] theorem popMove_codeValid (s : State) : (s.popMove).codeValid = s.codeValid := rfl
@[simp] theorem popMove_bwOpen (s : State) : (s.popMove).bwOpen = s.bwOpen := rfl
@[simp] theorem popMove_brOpen (s : State) : (s.popMove).brOpen = s.brOpen := rfl
@[simp] theorem popMove_errCode (s : State) : (s.popMove).errCode = s.errCode := rfl
@[simp] theorem popMove_errInfo (s : State) : (s.popMove).errInfo = s.errInfo := rfl
@[simp] theorem popMove_inLen (s : State) : (s.popMove).inLen = s.inLen := rfl
@[simp] theorem popMove_outLen (s : State) : (s.popMove).outLen = s.outLen := rfl
@[simp] theorem popMove_symCount (s : State) : (s.popMove).symCount = s.symCount := rfl
@[simp] theorem popMove_bitCount (s : State) : (s.popMove).bitCount = s.bitCount := rfl
@[simp] theorem popMove_bwBase (s : State) : (s.popMove).bwBase = s.bwBase := rfl
@[simp] theorem popMove_brBase (s : State) : (s.popMove).brBase = s.brBase := rfl
@[simp] theorem popMove_brLimit (s : State) : (s.popMove).brLimit = s.brLimit := rfl
@[simp] theorem popMove_nodeCount (s : State) : (s.popMove).nodeCount = s.nodeCount := rfl
@[simp] theorem popMove_root (s : State) : (s.popMove).root = s.root := rfl
@[simp] theorem popMove_res (s : State) : (s.popMove).res = s.res := rfl
@[simp] theorem popMove_freq (s : State) : (s.popMove).freq = s.freq := rfl
@[simp] theorem popMove_node (s : State) : (s.popMove).node = s.node := rfl
@[simp] theorem popMove_codeLen (s : State) : (s.popMove).codeLen = s.codeLen := rfl
@[simp] theorem popMove_codeVal (s : State) : (s.popMove).codeVal = s.codeVal := rfl
@[simp] theorem popMove_bwOrg (s : State) : (s.popMove).bwOrg = s.bwOrg := rfl
@[simp] theorem popMove_bwTotal (s : State) : (s.popMove).bwTotal = s.bwTotal := rfl
@[simp] theorem popMove_bwAcc (s : State) : (s.popMove).bwAcc = s.bwAcc := rfl
@[simp] theorem popMove_brOrg (s : State) : (s.popMove).brOrg = s.brOrg := rfl
@[simp] theorem popMove_brLim (s : State) : (s.popMove).brLim = s.brLim := rfl
@[simp] theorem popMove_brPos (s : State) : (s.popMove).brPos = s.brPos := rfl
@[simp] theorem popMove_inBuf (s : State) : (s.popMove).inBuf = s.inBuf := rfl
@[simp] theorem popMove_outBuf (s : State) : (s.popMove).outBuf = s.outBuf := rfl
@[simp] theorem popMove_draw (s : State) : (s.popMove).draw = s.draw := rfl
@[simp] theorem popMove_agenda (s : State) : (s.popMove).agenda = s.agenda.tail := rfl
@[simp] theorem popMove_resp (s : State) : (s.popMove).resp = s.resp := rfl

/-! ## dropTree -/

@[simp] theorem dropTree_seq (s : State) : (dropTree s).seq = s.seq := rfl
@[simp] theorem dropTree_pend (s : State) : (dropTree s).pend = s.pend := rfl
@[simp] theorem dropTree_params (s : State) : (dropTree s).params = s.params := rfl
@[simp] theorem dropTree_ie (s : State) : (dropTree s).ie = s.ie := rfl
@[simp] theorem dropTree_done (s : State) : (dropTree s).done = s.done := rfl
@[simp] theorem dropTree_err (s : State) : (dropTree s).err = s.err := rfl
@[simp] theorem dropTree_ovr (s : State) : (dropTree s).ovr = s.ovr := rfl
@[simp] theorem dropTree_freqValid (s : State) : (dropTree s).freqValid = s.freqValid := rfl
@[simp] theorem dropTree_treeValid (s : State) : (dropTree s).treeValid = false := rfl
@[simp] theorem dropTree_codeValid (s : State) : (dropTree s).codeValid = false := rfl
@[simp] theorem dropTree_bwOpen (s : State) : (dropTree s).bwOpen = s.bwOpen := rfl
@[simp] theorem dropTree_brOpen (s : State) : (dropTree s).brOpen = s.brOpen := rfl
@[simp] theorem dropTree_errCode (s : State) : (dropTree s).errCode = s.errCode := rfl
@[simp] theorem dropTree_errInfo (s : State) : (dropTree s).errInfo = s.errInfo := rfl
@[simp] theorem dropTree_inLen (s : State) : (dropTree s).inLen = s.inLen := rfl
@[simp] theorem dropTree_outLen (s : State) : (dropTree s).outLen = s.outLen := rfl
@[simp] theorem dropTree_symCount (s : State) : (dropTree s).symCount = s.symCount := rfl
@[simp] theorem dropTree_bitCount (s : State) : (dropTree s).bitCount = s.bitCount := rfl
@[simp] theorem dropTree_bwBase (s : State) : (dropTree s).bwBase = s.bwBase := rfl
@[simp] theorem dropTree_brBase (s : State) : (dropTree s).brBase = s.brBase := rfl
@[simp] theorem dropTree_brLimit (s : State) : (dropTree s).brLimit = s.brLimit := rfl
@[simp] theorem dropTree_nodeCount (s : State) : (dropTree s).nodeCount = s.nodeCount := rfl
@[simp] theorem dropTree_root (s : State) : (dropTree s).root = s.root := rfl
@[simp] theorem dropTree_res (s : State) : (dropTree s).res = s.res := rfl
@[simp] theorem dropTree_freq (s : State) : (dropTree s).freq = s.freq := rfl
@[simp] theorem dropTree_node (s : State) : (dropTree s).node = s.node := rfl
@[simp] theorem dropTree_codeLen (s : State) : (dropTree s).codeLen = s.codeLen := rfl
@[simp] theorem dropTree_codeVal (s : State) : (dropTree s).codeVal = s.codeVal := rfl
@[simp] theorem dropTree_bwOrg (s : State) : (dropTree s).bwOrg = s.bwOrg := rfl
@[simp] theorem dropTree_bwTotal (s : State) : (dropTree s).bwTotal = s.bwTotal := rfl
@[simp] theorem dropTree_bwAcc (s : State) : (dropTree s).bwAcc = s.bwAcc := rfl
@[simp] theorem dropTree_brOrg (s : State) : (dropTree s).brOrg = s.brOrg := rfl
@[simp] theorem dropTree_brLim (s : State) : (dropTree s).brLim = s.brLim := rfl
@[simp] theorem dropTree_brPos (s : State) : (dropTree s).brPos = s.brPos := rfl
@[simp] theorem dropTree_inBuf (s : State) : (dropTree s).inBuf = s.inBuf := rfl
@[simp] theorem dropTree_outBuf (s : State) : (dropTree s).outBuf = s.outBuf := rfl
@[simp] theorem dropTree_draw (s : State) : (dropTree s).draw = s.draw := rfl
@[simp] theorem dropTree_agenda (s : State) : (dropTree s).agenda = s.agenda := rfl
@[simp] theorem dropTree_resp (s : State) : (dropTree s).resp = s.resp := rfl

/-! ## dropCode -/

@[simp] theorem dropCode_seq (s : State) : (dropCode s).seq = s.seq := rfl
@[simp] theorem dropCode_pend (s : State) : (dropCode s).pend = s.pend := rfl
@[simp] theorem dropCode_params (s : State) : (dropCode s).params = s.params := rfl
@[simp] theorem dropCode_ie (s : State) : (dropCode s).ie = s.ie := rfl
@[simp] theorem dropCode_done (s : State) : (dropCode s).done = s.done := rfl
@[simp] theorem dropCode_err (s : State) : (dropCode s).err = s.err := rfl
@[simp] theorem dropCode_ovr (s : State) : (dropCode s).ovr = s.ovr := rfl
@[simp] theorem dropCode_freqValid (s : State) : (dropCode s).freqValid = s.freqValid := rfl
@[simp] theorem dropCode_treeValid (s : State) : (dropCode s).treeValid = s.treeValid := rfl
@[simp] theorem dropCode_codeValid (s : State) : (dropCode s).codeValid = false := rfl
@[simp] theorem dropCode_bwOpen (s : State) : (dropCode s).bwOpen = s.bwOpen := rfl
@[simp] theorem dropCode_brOpen (s : State) : (dropCode s).brOpen = s.brOpen := rfl
@[simp] theorem dropCode_errCode (s : State) : (dropCode s).errCode = s.errCode := rfl
@[simp] theorem dropCode_errInfo (s : State) : (dropCode s).errInfo = s.errInfo := rfl
@[simp] theorem dropCode_inLen (s : State) : (dropCode s).inLen = s.inLen := rfl
@[simp] theorem dropCode_outLen (s : State) : (dropCode s).outLen = s.outLen := rfl
@[simp] theorem dropCode_symCount (s : State) : (dropCode s).symCount = s.symCount := rfl
@[simp] theorem dropCode_bitCount (s : State) : (dropCode s).bitCount = s.bitCount := rfl
@[simp] theorem dropCode_bwBase (s : State) : (dropCode s).bwBase = s.bwBase := rfl
@[simp] theorem dropCode_brBase (s : State) : (dropCode s).brBase = s.brBase := rfl
@[simp] theorem dropCode_brLimit (s : State) : (dropCode s).brLimit = s.brLimit := rfl
@[simp] theorem dropCode_nodeCount (s : State) : (dropCode s).nodeCount = s.nodeCount := rfl
@[simp] theorem dropCode_root (s : State) : (dropCode s).root = s.root := rfl
@[simp] theorem dropCode_res (s : State) : (dropCode s).res = s.res := rfl
@[simp] theorem dropCode_freq (s : State) : (dropCode s).freq = s.freq := rfl
@[simp] theorem dropCode_node (s : State) : (dropCode s).node = s.node := rfl
@[simp] theorem dropCode_codeLen (s : State) : (dropCode s).codeLen = s.codeLen := rfl
@[simp] theorem dropCode_codeVal (s : State) : (dropCode s).codeVal = s.codeVal := rfl
@[simp] theorem dropCode_bwOrg (s : State) : (dropCode s).bwOrg = s.bwOrg := rfl
@[simp] theorem dropCode_bwTotal (s : State) : (dropCode s).bwTotal = s.bwTotal := rfl
@[simp] theorem dropCode_bwAcc (s : State) : (dropCode s).bwAcc = s.bwAcc := rfl
@[simp] theorem dropCode_brOrg (s : State) : (dropCode s).brOrg = s.brOrg := rfl
@[simp] theorem dropCode_brLim (s : State) : (dropCode s).brLim = s.brLim := rfl
@[simp] theorem dropCode_brPos (s : State) : (dropCode s).brPos = s.brPos := rfl
@[simp] theorem dropCode_inBuf (s : State) : (dropCode s).inBuf = s.inBuf := rfl
@[simp] theorem dropCode_outBuf (s : State) : (dropCode s).outBuf = s.outBuf := rfl
@[simp] theorem dropCode_draw (s : State) : (dropCode s).draw = s.draw := rfl
@[simp] theorem dropCode_agenda (s : State) : (dropCode s).agenda = s.agenda := rfl
@[simp] theorem dropCode_resp (s : State) : (dropCode s).resp = s.resp := rfl

/-! ## freqBuild -/

@[simp] theorem freqBuild_seq (s : State) : (freqBuild s).seq = s.seq := rfl
@[simp] theorem freqBuild_pend (s : State) : (freqBuild s).pend = s.pend := rfl
@[simp] theorem freqBuild_params (s : State) : (freqBuild s).params = s.params := rfl
@[simp] theorem freqBuild_ie (s : State) : (freqBuild s).ie = s.ie := rfl
@[simp] theorem freqBuild_done (s : State) : (freqBuild s).done = s.done := rfl
@[simp] theorem freqBuild_err (s : State) : (freqBuild s).err = s.err := rfl
@[simp] theorem freqBuild_ovr (s : State) : (freqBuild s).ovr = s.ovr := rfl
@[simp] theorem freqBuild_freqValid (s : State) : (freqBuild s).freqValid = true := rfl
@[simp] theorem freqBuild_treeValid (s : State) : (freqBuild s).treeValid = s.treeValid := rfl
@[simp] theorem freqBuild_codeValid (s : State) : (freqBuild s).codeValid = s.codeValid := rfl
@[simp] theorem freqBuild_bwOpen (s : State) : (freqBuild s).bwOpen = s.bwOpen := rfl
@[simp] theorem freqBuild_brOpen (s : State) : (freqBuild s).brOpen = s.brOpen := rfl
@[simp] theorem freqBuild_errCode (s : State) : (freqBuild s).errCode = s.errCode := rfl
@[simp] theorem freqBuild_errInfo (s : State) : (freqBuild s).errInfo = s.errInfo := rfl
@[simp] theorem freqBuild_inLen (s : State) : (freqBuild s).inLen = s.inLen := rfl
@[simp] theorem freqBuild_outLen (s : State) : (freqBuild s).outLen = s.outLen := rfl
@[simp] theorem freqBuild_symCount (s : State) : (freqBuild s).symCount = BitVec.ofNat 9 (symbolCount (countBytes (inBytes s s.inLen.toNat))) := rfl
@[simp] theorem freqBuild_bitCount (s : State) : (freqBuild s).bitCount = s.bitCount := rfl
@[simp] theorem freqBuild_bwBase (s : State) : (freqBuild s).bwBase = s.bwBase := rfl
@[simp] theorem freqBuild_brBase (s : State) : (freqBuild s).brBase = s.brBase := rfl
@[simp] theorem freqBuild_brLimit (s : State) : (freqBuild s).brLimit = s.brLimit := rfl
@[simp] theorem freqBuild_nodeCount (s : State) : (freqBuild s).nodeCount = s.nodeCount := rfl
@[simp] theorem freqBuild_root (s : State) : (freqBuild s).root = s.root := rfl
@[simp] theorem freqBuild_res (s : State) : (freqBuild s).res = s.res := rfl
@[simp] theorem freqBuild_freq (s : State) : (freqBuild s).freq = countBytes (inBytes s s.inLen.toNat) := rfl
@[simp] theorem freqBuild_node (s : State) : (freqBuild s).node = s.node := rfl
@[simp] theorem freqBuild_codeLen (s : State) : (freqBuild s).codeLen = s.codeLen := rfl
@[simp] theorem freqBuild_codeVal (s : State) : (freqBuild s).codeVal = s.codeVal := rfl
@[simp] theorem freqBuild_bwOrg (s : State) : (freqBuild s).bwOrg = s.bwOrg := rfl
@[simp] theorem freqBuild_bwTotal (s : State) : (freqBuild s).bwTotal = s.bwTotal := rfl
@[simp] theorem freqBuild_bwAcc (s : State) : (freqBuild s).bwAcc = s.bwAcc := rfl
@[simp] theorem freqBuild_brOrg (s : State) : (freqBuild s).brOrg = s.brOrg := rfl
@[simp] theorem freqBuild_brLim (s : State) : (freqBuild s).brLim = s.brLim := rfl
@[simp] theorem freqBuild_brPos (s : State) : (freqBuild s).brPos = s.brPos := rfl
@[simp] theorem freqBuild_inBuf (s : State) : (freqBuild s).inBuf = s.inBuf := rfl
@[simp] theorem freqBuild_outBuf (s : State) : (freqBuild s).outBuf = s.outBuf := rfl
@[simp] theorem freqBuild_draw (s : State) : (freqBuild s).draw = s.draw := rfl
@[simp] theorem freqBuild_agenda (s : State) : (freqBuild s).agenda = s.agenda := rfl
@[simp] theorem freqBuild_resp (s : State) : (freqBuild s).resp = s.resp := rfl

/-! ## treeBuild -/

@[simp] theorem treeBuild_seq (l : SymFreqs) (s : State) : (treeBuild l s).seq = s.seq := rfl
@[simp] theorem treeBuild_pend (l : SymFreqs) (s : State) : (treeBuild l s).pend = s.pend := rfl
@[simp] theorem treeBuild_params (l : SymFreqs) (s : State) : (treeBuild l s).params = s.params := rfl
@[simp] theorem treeBuild_ie (l : SymFreqs) (s : State) : (treeBuild l s).ie = s.ie := rfl
@[simp] theorem treeBuild_done (l : SymFreqs) (s : State) : (treeBuild l s).done = s.done := rfl
@[simp] theorem treeBuild_err (l : SymFreqs) (s : State) : (treeBuild l s).err = s.err := rfl
@[simp] theorem treeBuild_ovr (l : SymFreqs) (s : State) : (treeBuild l s).ovr = s.ovr := rfl
@[simp] theorem treeBuild_freqValid (l : SymFreqs) (s : State) : (treeBuild l s).freqValid = s.freqValid := rfl
@[simp] theorem treeBuild_treeValid (l : SymFreqs) (s : State) : (treeBuild l s).treeValid = true := rfl
@[simp] theorem treeBuild_codeValid (l : SymFreqs) (s : State) : (treeBuild l s).codeValid = s.codeValid := rfl
@[simp] theorem treeBuild_bwOpen (l : SymFreqs) (s : State) : (treeBuild l s).bwOpen = s.bwOpen := rfl
@[simp] theorem treeBuild_brOpen (l : SymFreqs) (s : State) : (treeBuild l s).brOpen = s.brOpen := rfl
@[simp] theorem treeBuild_errCode (l : SymFreqs) (s : State) : (treeBuild l s).errCode = s.errCode := rfl
@[simp] theorem treeBuild_errInfo (l : SymFreqs) (s : State) : (treeBuild l s).errInfo = s.errInfo := rfl
@[simp] theorem treeBuild_inLen (l : SymFreqs) (s : State) : (treeBuild l s).inLen = s.inLen := rfl
@[simp] theorem treeBuild_outLen (l : SymFreqs) (s : State) : (treeBuild l s).outLen = s.outLen := rfl
@[simp] theorem treeBuild_symCount (l : SymFreqs) (s : State) : (treeBuild l s).symCount = s.symCount := rfl
@[simp] theorem treeBuild_bitCount (l : SymFreqs) (s : State) : (treeBuild l s).bitCount = s.bitCount := rfl
@[simp] theorem treeBuild_bwBase (l : SymFreqs) (s : State) : (treeBuild l s).bwBase = s.bwBase := rfl
@[simp] theorem treeBuild_brBase (l : SymFreqs) (s : State) : (treeBuild l s).brBase = s.brBase := rfl
@[simp] theorem treeBuild_brLimit (l : SymFreqs) (s : State) : (treeBuild l s).brLimit = s.brLimit := rfl
@[simp] theorem treeBuild_nodeCount (l : SymFreqs) (s : State) : (treeBuild l s).nodeCount = BitVec.ofNat 9 (buildArena l).1.length := rfl
@[simp] theorem treeBuild_root (l : SymFreqs) (s : State) : (treeBuild l s).root = BitVec.ofNat 9 ((buildArena l).2.headD 0) := rfl
@[simp] theorem treeBuild_res (l : SymFreqs) (s : State) : (treeBuild l s).res = s.res := rfl
@[simp] theorem treeBuild_freq (l : SymFreqs) (s : State) : (treeBuild l s).freq = s.freq := rfl
@[simp] theorem treeBuild_node (l : SymFreqs) (s : State) : (treeBuild l s).node = arenaTable s.draw (buildArena l).1 := rfl
@[simp] theorem treeBuild_codeLen (l : SymFreqs) (s : State) : (treeBuild l s).codeLen = s.codeLen := rfl
@[simp] theorem treeBuild_codeVal (l : SymFreqs) (s : State) : (treeBuild l s).codeVal = s.codeVal := rfl
@[simp] theorem treeBuild_bwOrg (l : SymFreqs) (s : State) : (treeBuild l s).bwOrg = s.bwOrg := rfl
@[simp] theorem treeBuild_bwTotal (l : SymFreqs) (s : State) : (treeBuild l s).bwTotal = s.bwTotal := rfl
@[simp] theorem treeBuild_bwAcc (l : SymFreqs) (s : State) : (treeBuild l s).bwAcc = s.bwAcc := rfl
@[simp] theorem treeBuild_brOrg (l : SymFreqs) (s : State) : (treeBuild l s).brOrg = s.brOrg := rfl
@[simp] theorem treeBuild_brLim (l : SymFreqs) (s : State) : (treeBuild l s).brLim = s.brLim := rfl
@[simp] theorem treeBuild_brPos (l : SymFreqs) (s : State) : (treeBuild l s).brPos = s.brPos := rfl
@[simp] theorem treeBuild_inBuf (l : SymFreqs) (s : State) : (treeBuild l s).inBuf = s.inBuf := rfl
@[simp] theorem treeBuild_outBuf (l : SymFreqs) (s : State) : (treeBuild l s).outBuf = s.outBuf := rfl
@[simp] theorem treeBuild_draw (l : SymFreqs) (s : State) : (treeBuild l s).draw = s.draw + 1 := rfl
@[simp] theorem treeBuild_agenda (l : SymFreqs) (s : State) : (treeBuild l s).agenda = s.agenda := rfl
@[simp] theorem treeBuild_resp (l : SymFreqs) (s : State) : (treeBuild l s).resp = s.resp := rfl

/-! ## codeGen -/

@[simp] theorem codeGen_seq (s : State) : (codeGen s).seq = s.seq := rfl
@[simp] theorem codeGen_pend (s : State) : (codeGen s).pend = s.pend := rfl
@[simp] theorem codeGen_params (s : State) : (codeGen s).params = s.params := rfl
@[simp] theorem codeGen_ie (s : State) : (codeGen s).ie = s.ie := rfl
@[simp] theorem codeGen_done (s : State) : (codeGen s).done = s.done := rfl
@[simp] theorem codeGen_err (s : State) : (codeGen s).err = s.err := rfl
@[simp] theorem codeGen_ovr (s : State) : (codeGen s).ovr = s.ovr := rfl
@[simp] theorem codeGen_freqValid (s : State) : (codeGen s).freqValid = s.freqValid := rfl
@[simp] theorem codeGen_treeValid (s : State) : (codeGen s).treeValid = s.treeValid := rfl
@[simp] theorem codeGen_codeValid (s : State) : (codeGen s).codeValid = true := rfl
@[simp] theorem codeGen_bwOpen (s : State) : (codeGen s).bwOpen = s.bwOpen := rfl
@[simp] theorem codeGen_brOpen (s : State) : (codeGen s).brOpen = s.brOpen := rfl
@[simp] theorem codeGen_errCode (s : State) : (codeGen s).errCode = s.errCode := rfl
@[simp] theorem codeGen_errInfo (s : State) : (codeGen s).errInfo = s.errInfo := rfl
@[simp] theorem codeGen_inLen (s : State) : (codeGen s).inLen = s.inLen := rfl
@[simp] theorem codeGen_outLen (s : State) : (codeGen s).outLen = s.outLen := rfl
@[simp] theorem codeGen_symCount (s : State) : (codeGen s).symCount = s.symCount := rfl
@[simp] theorem codeGen_bitCount (s : State) : (codeGen s).bitCount = s.bitCount := rfl
@[simp] theorem codeGen_bwBase (s : State) : (codeGen s).bwBase = s.bwBase := rfl
@[simp] theorem codeGen_brBase (s : State) : (codeGen s).brBase = s.brBase := rfl
@[simp] theorem codeGen_brLimit (s : State) : (codeGen s).brLimit = s.brLimit := rfl
@[simp] theorem codeGen_nodeCount (s : State) : (codeGen s).nodeCount = s.nodeCount := rfl
@[simp] theorem codeGen_root (s : State) : (codeGen s).root = s.root := rfl
@[simp] theorem codeGen_res (s : State) : (codeGen s).res = s.res := rfl
@[simp] theorem codeGen_freq (s : State) : (codeGen s).freq = s.freq := rfl
@[simp] theorem codeGen_node (s : State) : (codeGen s).node = s.node := rfl
@[simp] theorem codeGen_codeLen (s : State) : (codeGen s).codeLen = (treeCodes s.nodeAt s.root).len := rfl
@[simp] theorem codeGen_codeVal (s : State) : (codeGen s).codeVal = (treeCodes s.nodeAt s.root).val := rfl
@[simp] theorem codeGen_bwOrg (s : State) : (codeGen s).bwOrg = s.bwOrg := rfl
@[simp] theorem codeGen_bwTotal (s : State) : (codeGen s).bwTotal = s.bwTotal := rfl
@[simp] theorem codeGen_bwAcc (s : State) : (codeGen s).bwAcc = s.bwAcc := rfl
@[simp] theorem codeGen_brOrg (s : State) : (codeGen s).brOrg = s.brOrg := rfl
@[simp] theorem codeGen_brLim (s : State) : (codeGen s).brLim = s.brLim := rfl
@[simp] theorem codeGen_brPos (s : State) : (codeGen s).brPos = s.brPos := rfl
@[simp] theorem codeGen_inBuf (s : State) : (codeGen s).inBuf = s.inBuf := rfl
@[simp] theorem codeGen_outBuf (s : State) : (codeGen s).outBuf = s.outBuf := rfl
@[simp] theorem codeGen_draw (s : State) : (codeGen s).draw = s.draw := rfl
@[simp] theorem codeGen_agenda (s : State) : (codeGen s).agenda = s.agenda := rfl
@[simp] theorem codeGen_resp (s : State) : (codeGen s).resp = s.resp := rfl

/-! ## bwInit -/

@[simp] theorem bwInit_seq (org : Word) (s : State) : (bwInit org s).seq = s.seq := rfl
@[simp] theorem bwInit_pend (org : Word) (s : State) : (bwInit org s).pend = s.pend := rfl
@[simp] theorem bwInit_params (org : Word) (s : State) : (bwInit org s).params = s.params := rfl
@[simp] theorem bwInit_ie (org : Word) (s : State) : (bwInit org s).ie = s.ie := rfl
@[simp] theorem bwInit_done (org : Word) (s : State) : (bwInit org s).done = s.done := rfl
@[simp] theorem bwInit_err (org : Word) (s : State) : (bwInit org s).err = s.err := rfl
@[simp] theorem bwInit_ovr (org : Word) (s : State) : (bwInit org s).ovr = s.ovr := rfl
@[simp] theorem bwInit_freqValid (org : Word) (s : State) : (bwInit org s).freqValid = s.freqValid := rfl
@[simp] theorem bwInit_treeValid (org : Word) (s : State) : (bwInit org s).treeValid = s.treeValid := rfl
@[simp] theorem bwInit_codeValid (org : Word) (s : State) : (bwInit org s).codeValid = s.codeValid := rfl
@[simp] theorem bwInit_bwOpen (org : Word) (s : State) : (bwInit org s).bwOpen = true := rfl
@[simp] theorem bwInit_brOpen (org : Word) (s : State) : (bwInit org s).brOpen = s.brOpen := rfl
@[simp] theorem bwInit_errCode (org : Word) (s : State) : (bwInit org s).errCode = s.errCode := rfl
@[simp] theorem bwInit_errInfo (org : Word) (s : State) : (bwInit org s).errInfo = s.errInfo := rfl
@[simp] theorem bwInit_inLen (org : Word) (s : State) : (bwInit org s).inLen = s.inLen := rfl
@[simp] theorem bwInit_outLen (org : Word) (s : State) : (bwInit org s).outLen = s.outLen := rfl
@[simp] theorem bwInit_symCount (org : Word) (s : State) : (bwInit org s).symCount = s.symCount := rfl
@[simp] theorem bwInit_bitCount (org : Word) (s : State) : (bwInit org s).bitCount = s.bitCount := rfl
@[simp] theorem bwInit_bwBase (org : Word) (s : State) : (bwInit org s).bwBase = s.bwBase := rfl
@[simp] theorem bwInit_brBase (org : Word) (s : State) : (bwInit org s).brBase = s.brBase := rfl
@[simp] theorem bwInit_brLimit (org : Word) (s : State) : (bwInit org s).brLimit = s.brLimit := rfl
@[simp] theorem bwInit_nodeCount (org : Word) (s : State) : (bwInit org s).nodeCount = s.nodeCount := rfl
@[simp] theorem bwInit_root (org : Word) (s : State) : (bwInit org s).root = s.root := rfl
@[simp] theorem bwInit_res (org : Word) (s : State) : (bwInit org s).res = s.res := rfl
@[simp] theorem bwInit_freq (org : Word) (s : State) : (bwInit org s).freq = s.freq := rfl
@[simp] theorem bwInit_node (org : Word) (s : State) : (bwInit org s).node = s.node := rfl
@[simp] theorem bwInit_codeLen (org : Word) (s : State) : (bwInit org s).codeLen = s.codeLen := rfl
@[simp] theorem bwInit_codeVal (org : Word) (s : State) : (bwInit org s).codeVal = s.codeVal := rfl
@[simp] theorem bwInit_bwOrg (org : Word) (s : State) : (bwInit org s).bwOrg = org := rfl
@[simp] theorem bwInit_bwTotal (org : Word) (s : State) : (bwInit org s).bwTotal = 0 := rfl
@[simp] theorem bwInit_bwAcc (org : Word) (s : State) : (bwInit org s).bwAcc = 0 := rfl
@[simp] theorem bwInit_brOrg (org : Word) (s : State) : (bwInit org s).brOrg = s.brOrg := rfl
@[simp] theorem bwInit_brLim (org : Word) (s : State) : (bwInit org s).brLim = s.brLim := rfl
@[simp] theorem bwInit_brPos (org : Word) (s : State) : (bwInit org s).brPos = s.brPos := rfl
@[simp] theorem bwInit_inBuf (org : Word) (s : State) : (bwInit org s).inBuf = s.inBuf := rfl
@[simp] theorem bwInit_outBuf (org : Word) (s : State) : (bwInit org s).outBuf = s.outBuf := rfl
@[simp] theorem bwInit_draw (org : Word) (s : State) : (bwInit org s).draw = s.draw := rfl
@[simp] theorem bwInit_agenda (org : Word) (s : State) : (bwInit org s).agenda = s.agenda := rfl
@[simp] theorem bwInit_resp (org : Word) (s : State) : (bwInit org s).resp = s.resp := rfl

/-! ## skipBit -/

@[simp] theorem skipBit_seq (s : State) : (skipBit s).seq = s.seq := rfl
@[simp] theorem skipBit_pend (s : State) : (skipBit s).pend = s.pend := rfl
@[simp] theorem skipBit_params (s : State) : (skipBit s).params = s.params := rfl
@[simp] theorem skipBit_ie (s : State) : (skipBit s).ie = s.ie := rfl
@[simp] theorem skipBit_done (s : State) : (skipBit s).done = s.done := rfl
@[simp] theorem skipBit_err (s : State) : (skipBit s).err = s.err := rfl
@[simp] theorem skipBit_ovr (s : State) : (skipBit s).ovr = s.ovr := rfl
@[simp] theorem skipBit_freqValid (s : State) : (skipBit s).freqValid = s.freqValid := rfl
@[simp] theorem skipBit_treeValid (s : State) : (skipBit s).treeValid = s.treeValid := rfl
@[simp] theorem skipBit_codeValid (s : State) : (skipBit s).codeValid = s.codeValid := rfl
@[simp] theorem skipBit_bwOpen (s : State) : (skipBit s).bwOpen = s.bwOpen := rfl
@[simp] theorem skipBit_brOpen (s : State) : (skipBit s).brOpen = s.brOpen := rfl
@[simp] theorem skipBit_errCode (s : State) : (skipBit s).errCode = s.errCode := rfl
@[simp] theorem skipBit_errInfo (s : State) : (skipBit s).errInfo = s.errInfo := rfl
@[simp] theorem skipBit_inLen (s : State) : (skipBit s).inLen = s.inLen := rfl
@[simp] theorem skipBit_outLen (s : State) : (skipBit s).outLen = s.outLen := rfl
@[simp] theorem skipBit_symCount (s : State) : (skipBit s).symCount = s.symCount := rfl
@[simp] theorem skipBit_bitCount (s : State) : (skipBit s).bitCount = s.bitCount := rfl
@[simp] theorem skipBit_bwBase (s : State) : (skipBit s).bwBase = s.bwBase := rfl
@[simp] theorem skipBit_brBase (s : State) : (skipBit s).brBase = s.brBase := rfl
@[simp] theorem skipBit_brLimit (s : State) : (skipBit s).brLimit = s.brLimit := rfl
@[simp] theorem skipBit_nodeCount (s : State) : (skipBit s).nodeCount = s.nodeCount := rfl
@[simp] theorem skipBit_root (s : State) : (skipBit s).root = s.root := rfl
@[simp] theorem skipBit_res (s : State) : (skipBit s).res = s.res := rfl
@[simp] theorem skipBit_freq (s : State) : (skipBit s).freq = s.freq := rfl
@[simp] theorem skipBit_node (s : State) : (skipBit s).node = s.node := rfl
@[simp] theorem skipBit_codeLen (s : State) : (skipBit s).codeLen = s.codeLen := rfl
@[simp] theorem skipBit_codeVal (s : State) : (skipBit s).codeVal = s.codeVal := rfl
@[simp] theorem skipBit_bwOrg (s : State) : (skipBit s).bwOrg = s.bwOrg := rfl
@[simp] theorem skipBit_bwTotal (s : State) : (skipBit s).bwTotal = s.bwTotal := rfl
@[simp] theorem skipBit_bwAcc (s : State) : (skipBit s).bwAcc = s.bwAcc := rfl
@[simp] theorem skipBit_brOrg (s : State) : (skipBit s).brOrg = s.brOrg := rfl
@[simp] theorem skipBit_brLim (s : State) : (skipBit s).brLim = s.brLim := rfl
@[simp] theorem skipBit_brPos (s : State) : (skipBit s).brPos = s.brPos + 1 := rfl
@[simp] theorem skipBit_inBuf (s : State) : (skipBit s).inBuf = s.inBuf := rfl
@[simp] theorem skipBit_outBuf (s : State) : (skipBit s).outBuf = s.outBuf := rfl
@[simp] theorem skipBit_draw (s : State) : (skipBit s).draw = s.draw := rfl
@[simp] theorem skipBit_agenda (s : State) : (skipBit s).agenda = s.agenda := rfl
@[simp] theorem skipBit_resp (s : State) : (skipBit s).resp = s.resp := rfl

/-! ## brInit -/

@[simp] theorem brInit_seq (org lim : Word) (s : State) : (brInit org lim s).seq = s.seq := rfl
@[simp] theorem brInit_pend (org lim : Word) (s : State) : (brInit org lim s).pend = s.pend := rfl
@[simp] theorem brInit_params (org lim : Word) (s : State) : (brInit org lim s).params = s.params := rfl
@[simp] theorem brInit_ie (org lim : Word) (s : State) : (brInit org lim s).ie = s.ie := rfl
@[simp] theorem brInit_done (org lim : Word) (s : State) : (brInit org lim s).done = s.done := rfl
@[simp] theorem brInit_err (org lim : Word) (s : State) : (brInit org lim s).err = s.err := rfl
@[simp] theorem brInit_ovr (org lim : Word) (s : State) : (brInit org lim s).ovr = s.ovr := rfl
@[simp] theorem brInit_freqValid (org lim : Word) (s : State) : (brInit org lim s).freqValid = s.freqValid := rfl
@[simp] theorem brInit_treeValid (org lim : Word) (s : State) : (brInit org lim s).treeValid = s.treeValid := rfl
@[simp] theorem brInit_codeValid (org lim : Word) (s : State) : (brInit org lim s).codeValid = s.codeValid := rfl
@[simp] theorem brInit_bwOpen (org lim : Word) (s : State) : (brInit org lim s).bwOpen = s.bwOpen := rfl
@[simp] theorem brInit_brOpen (org lim : Word) (s : State) : (brInit org lim s).brOpen = true := rfl
@[simp] theorem brInit_errCode (org lim : Word) (s : State) : (brInit org lim s).errCode = s.errCode := rfl
@[simp] theorem brInit_errInfo (org lim : Word) (s : State) : (brInit org lim s).errInfo = s.errInfo := rfl
@[simp] theorem brInit_inLen (org lim : Word) (s : State) : (brInit org lim s).inLen = s.inLen := rfl
@[simp] theorem brInit_outLen (org lim : Word) (s : State) : (brInit org lim s).outLen = s.outLen := rfl
@[simp] theorem brInit_symCount (org lim : Word) (s : State) : (brInit org lim s).symCount = s.symCount := rfl
@[simp] theorem brInit_bitCount (org lim : Word) (s : State) : (brInit org lim s).bitCount = s.bitCount := rfl
@[simp] theorem brInit_bwBase (org lim : Word) (s : State) : (brInit org lim s).bwBase = s.bwBase := rfl
@[simp] theorem brInit_brBase (org lim : Word) (s : State) : (brInit org lim s).brBase = s.brBase := rfl
@[simp] theorem brInit_brLimit (org lim : Word) (s : State) : (brInit org lim s).brLimit = s.brLimit := rfl
@[simp] theorem brInit_nodeCount (org lim : Word) (s : State) : (brInit org lim s).nodeCount = s.nodeCount := rfl
@[simp] theorem brInit_root (org lim : Word) (s : State) : (brInit org lim s).root = s.root := rfl
@[simp] theorem brInit_res (org lim : Word) (s : State) : (brInit org lim s).res = s.res := rfl
@[simp] theorem brInit_freq (org lim : Word) (s : State) : (brInit org lim s).freq = s.freq := rfl
@[simp] theorem brInit_node (org lim : Word) (s : State) : (brInit org lim s).node = s.node := rfl
@[simp] theorem brInit_codeLen (org lim : Word) (s : State) : (brInit org lim s).codeLen = s.codeLen := rfl
@[simp] theorem brInit_codeVal (org lim : Word) (s : State) : (brInit org lim s).codeVal = s.codeVal := rfl
@[simp] theorem brInit_bwOrg (org lim : Word) (s : State) : (brInit org lim s).bwOrg = s.bwOrg := rfl
@[simp] theorem brInit_bwTotal (org lim : Word) (s : State) : (brInit org lim s).bwTotal = s.bwTotal := rfl
@[simp] theorem brInit_bwAcc (org lim : Word) (s : State) : (brInit org lim s).bwAcc = s.bwAcc := rfl
@[simp] theorem brInit_brOrg (org lim : Word) (s : State) : (brInit org lim s).brOrg = org := rfl
@[simp] theorem brInit_brLim (org lim : Word) (s : State) : (brInit org lim s).brLim = lim := rfl
@[simp] theorem brInit_brPos (org lim : Word) (s : State) : (brInit org lim s).brPos = 0 := rfl
@[simp] theorem brInit_inBuf (org lim : Word) (s : State) : (brInit org lim s).inBuf = s.inBuf := rfl
@[simp] theorem brInit_outBuf (org lim : Word) (s : State) : (brInit org lim s).outBuf = s.outBuf := rfl
@[simp] theorem brInit_draw (org lim : Word) (s : State) : (brInit org lim s).draw = s.draw := rfl
@[simp] theorem brInit_agenda (org lim : Word) (s : State) : (brInit org lim s).agenda = s.agenda := rfl
@[simp] theorem brInit_resp (org lim : Word) (s : State) : (brInit org lim s).resp = s.resp := rfl

/-! ## pushBit -/

@[simp] theorem pushBit_seq (b : Bool) (s : State) : (pushBit b s).seq = s.seq := by unfold pushBit; split <;> rfl
@[simp] theorem pushBit_pend (b : Bool) (s : State) : (pushBit b s).pend = s.pend := by unfold pushBit; split <;> rfl
@[simp] theorem pushBit_params (b : Bool) (s : State) : (pushBit b s).params = s.params := by unfold pushBit; split <;> rfl
@[simp] theorem pushBit_ie (b : Bool) (s : State) : (pushBit b s).ie = s.ie := by unfold pushBit; split <;> rfl
@[simp] theorem pushBit_done (b : Bool) (s : State) : (pushBit b s).done = s.done := by unfold pushBit; split <;> rfl
@[simp] theorem pushBit_err (b : Bool) (s : State) : (pushBit b s).err = s.err := by unfold pushBit; split <;> rfl
@[simp] theorem pushBit_ovr (b : Bool) (s : State) : (pushBit b s).ovr = s.ovr := by unfold pushBit; split <;> rfl
@[simp] theorem pushBit_freqValid (b : Bool) (s : State) : (pushBit b s).freqValid = s.freqValid := by unfold pushBit; split <;> rfl
@[simp] theorem pushBit_treeValid (b : Bool) (s : State) : (pushBit b s).treeValid = s.treeValid := by unfold pushBit; split <;> rfl
@[simp] theorem pushBit_codeValid (b : Bool) (s : State) : (pushBit b s).codeValid = s.codeValid := by unfold pushBit; split <;> rfl
@[simp] theorem pushBit_bwOpen (b : Bool) (s : State) : (pushBit b s).bwOpen = s.bwOpen := by unfold pushBit; split <;> rfl
@[simp] theorem pushBit_brOpen (b : Bool) (s : State) : (pushBit b s).brOpen = s.brOpen := by unfold pushBit; split <;> rfl
@[simp] theorem pushBit_errCode (b : Bool) (s : State) : (pushBit b s).errCode = s.errCode := by unfold pushBit; split <;> rfl
@[simp] theorem pushBit_errInfo (b : Bool) (s : State) : (pushBit b s).errInfo = s.errInfo := by unfold pushBit; split <;> rfl
@[simp] theorem pushBit_inLen (b : Bool) (s : State) : (pushBit b s).inLen = s.inLen := by unfold pushBit; split <;> rfl
@[simp] theorem pushBit_outLen (b : Bool) (s : State) : (pushBit b s).outLen = s.outLen := by unfold pushBit; split <;> rfl
@[simp] theorem pushBit_symCount (b : Bool) (s : State) : (pushBit b s).symCount = s.symCount := by unfold pushBit; split <;> rfl
@[simp] theorem pushBit_bitCount (b : Bool) (s : State) : (pushBit b s).bitCount = s.bitCount := by unfold pushBit; split <;> rfl
@[simp] theorem pushBit_bwBase (b : Bool) (s : State) : (pushBit b s).bwBase = s.bwBase := by unfold pushBit; split <;> rfl
@[simp] theorem pushBit_brBase (b : Bool) (s : State) : (pushBit b s).brBase = s.brBase := by unfold pushBit; split <;> rfl
@[simp] theorem pushBit_brLimit (b : Bool) (s : State) : (pushBit b s).brLimit = s.brLimit := by unfold pushBit; split <;> rfl
@[simp] theorem pushBit_nodeCount (b : Bool) (s : State) : (pushBit b s).nodeCount = s.nodeCount := by unfold pushBit; split <;> rfl
@[simp] theorem pushBit_root (b : Bool) (s : State) : (pushBit b s).root = s.root := by unfold pushBit; split <;> rfl
@[simp] theorem pushBit_res (b : Bool) (s : State) : (pushBit b s).res = s.res := by unfold pushBit; split <;> rfl
@[simp] theorem pushBit_freq (b : Bool) (s : State) : (pushBit b s).freq = s.freq := by unfold pushBit; split <;> rfl
@[simp] theorem pushBit_node (b : Bool) (s : State) : (pushBit b s).node = s.node := by unfold pushBit; split <;> rfl
@[simp] theorem pushBit_codeLen (b : Bool) (s : State) : (pushBit b s).codeLen = s.codeLen := by unfold pushBit; split <;> rfl
@[simp] theorem pushBit_codeVal (b : Bool) (s : State) : (pushBit b s).codeVal = s.codeVal := by unfold pushBit; split <;> rfl
@[simp] theorem pushBit_bwOrg (b : Bool) (s : State) : (pushBit b s).bwOrg = s.bwOrg := by unfold pushBit; split <;> rfl
@[simp] theorem pushBit_bwTotal (b : Bool) (s : State) : (pushBit b s).bwTotal = s.bwTotal + 1 := by unfold pushBit; split <;> rfl
@[simp] theorem pushBit_brOrg (b : Bool) (s : State) : (pushBit b s).brOrg = s.brOrg := by unfold pushBit; split <;> rfl
@[simp] theorem pushBit_brLim (b : Bool) (s : State) : (pushBit b s).brLim = s.brLim := by unfold pushBit; split <;> rfl
@[simp] theorem pushBit_brPos (b : Bool) (s : State) : (pushBit b s).brPos = s.brPos := by unfold pushBit; split <;> rfl
@[simp] theorem pushBit_inBuf (b : Bool) (s : State) : (pushBit b s).inBuf = s.inBuf := by unfold pushBit; split <;> rfl
@[simp] theorem pushBit_draw (b : Bool) (s : State) : (pushBit b s).draw = s.draw := by unfold pushBit; split <;> rfl
@[simp] theorem pushBit_agenda (b : Bool) (s : State) : (pushBit b s).agenda = s.agenda := by unfold pushBit; split <;> rfl
@[simp] theorem pushBit_resp (b : Bool) (s : State) : (pushBit b s).resp = s.resp := by unfold pushBit; split <;> rfl

/-! ## bwFinish -/

@[simp] theorem bwFinish_seq (s : State) : (bwFinish s).seq = s.seq := by unfold bwFinish; split <;> rfl
@[simp] theorem bwFinish_pend (s : State) : (bwFinish s).pend = s.pend := by unfold bwFinish; split <;> rfl
@[simp] theorem bwFinish_params (s : State) : (bwFinish s).params = s.params := by unfold bwFinish; split <;> rfl
@[simp] theorem bwFinish_ie (s : State) : (bwFinish s).ie = s.ie := by unfold bwFinish; split <;> rfl
@[simp] theorem bwFinish_done (s : State) : (bwFinish s).done = s.done := by unfold bwFinish; split <;> rfl
@[simp] theorem bwFinish_err (s : State) : (bwFinish s).err = s.err := by unfold bwFinish; split <;> rfl
@[simp] theorem bwFinish_ovr (s : State) : (bwFinish s).ovr = s.ovr := by unfold bwFinish; split <;> rfl
@[simp] theorem bwFinish_freqValid (s : State) : (bwFinish s).freqValid = s.freqValid := by unfold bwFinish; split <;> rfl
@[simp] theorem bwFinish_treeValid (s : State) : (bwFinish s).treeValid = s.treeValid := by unfold bwFinish; split <;> rfl
@[simp] theorem bwFinish_codeValid (s : State) : (bwFinish s).codeValid = s.codeValid := by unfold bwFinish; split <;> rfl
@[simp] theorem bwFinish_bwOpen (s : State) : (bwFinish s).bwOpen = false := by unfold bwFinish; split <;> rfl
@[simp] theorem bwFinish_brOpen (s : State) : (bwFinish s).brOpen = s.brOpen := by unfold bwFinish; split <;> rfl
@[simp] theorem bwFinish_errCode (s : State) : (bwFinish s).errCode = s.errCode := by unfold bwFinish; split <;> rfl
@[simp] theorem bwFinish_errInfo (s : State) : (bwFinish s).errInfo = s.errInfo := by unfold bwFinish; split <;> rfl
@[simp] theorem bwFinish_inLen (s : State) : (bwFinish s).inLen = s.inLen := by unfold bwFinish; split <;> rfl
@[simp] theorem bwFinish_outLen (s : State) : (bwFinish s).outLen = s.outLen := by unfold bwFinish; split <;> rfl
@[simp] theorem bwFinish_symCount (s : State) : (bwFinish s).symCount = s.symCount := by unfold bwFinish; split <;> rfl
@[simp] theorem bwFinish_bitCount (s : State) : (bwFinish s).bitCount = s.bitCount := by unfold bwFinish; split <;> rfl
@[simp] theorem bwFinish_bwBase (s : State) : (bwFinish s).bwBase = s.bwBase := by unfold bwFinish; split <;> rfl
@[simp] theorem bwFinish_brBase (s : State) : (bwFinish s).brBase = s.brBase := by unfold bwFinish; split <;> rfl
@[simp] theorem bwFinish_brLimit (s : State) : (bwFinish s).brLimit = s.brLimit := by unfold bwFinish; split <;> rfl
@[simp] theorem bwFinish_nodeCount (s : State) : (bwFinish s).nodeCount = s.nodeCount := by unfold bwFinish; split <;> rfl
@[simp] theorem bwFinish_root (s : State) : (bwFinish s).root = s.root := by unfold bwFinish; split <;> rfl
@[simp] theorem bwFinish_res (s : State) : (bwFinish s).res = s.res := by unfold bwFinish; split <;> rfl
@[simp] theorem bwFinish_freq (s : State) : (bwFinish s).freq = s.freq := by unfold bwFinish; split <;> rfl
@[simp] theorem bwFinish_node (s : State) : (bwFinish s).node = s.node := by unfold bwFinish; split <;> rfl
@[simp] theorem bwFinish_codeLen (s : State) : (bwFinish s).codeLen = s.codeLen := by unfold bwFinish; split <;> rfl
@[simp] theorem bwFinish_codeVal (s : State) : (bwFinish s).codeVal = s.codeVal := by unfold bwFinish; split <;> rfl
@[simp] theorem bwFinish_bwOrg (s : State) : (bwFinish s).bwOrg = s.bwOrg := by unfold bwFinish; split <;> rfl
@[simp] theorem bwFinish_bwTotal (s : State) : (bwFinish s).bwTotal = s.bwTotal := by unfold bwFinish; split <;> rfl
@[simp] theorem bwFinish_brOrg (s : State) : (bwFinish s).brOrg = s.brOrg := by unfold bwFinish; split <;> rfl
@[simp] theorem bwFinish_brLim (s : State) : (bwFinish s).brLim = s.brLim := by unfold bwFinish; split <;> rfl
@[simp] theorem bwFinish_brPos (s : State) : (bwFinish s).brPos = s.brPos := by unfold bwFinish; split <;> rfl
@[simp] theorem bwFinish_inBuf (s : State) : (bwFinish s).inBuf = s.inBuf := by unfold bwFinish; split <;> rfl
@[simp] theorem bwFinish_draw (s : State) : (bwFinish s).draw = s.draw := by unfold bwFinish; split <;> rfl
@[simp] theorem bwFinish_agenda (s : State) : (bwFinish s).agenda = s.agenda := by unfold bwFinish; split <;> rfl
@[simp] theorem bwFinish_resp (s : State) : (bwFinish s).resp = s.resp := by unfold bwFinish; split <;> rfl

/-! ## putOutBytes -/

@[simp] theorem putOutBytes_seq (bs : List Byte) : ∀ (a : Nat) (s : State), (putOutBytes a bs s).seq = s.seq := by
  induction bs with
  | nil => intros; rfl
  | cons b rest ih => intro a s; exact ih (a + 1) (putOut a b s)
@[simp] theorem putOutBytes_pend (bs : List Byte) : ∀ (a : Nat) (s : State), (putOutBytes a bs s).pend = s.pend := by
  induction bs with
  | nil => intros; rfl
  | cons b rest ih => intro a s; exact ih (a + 1) (putOut a b s)
@[simp] theorem putOutBytes_params (bs : List Byte) : ∀ (a : Nat) (s : State), (putOutBytes a bs s).params = s.params := by
  induction bs with
  | nil => intros; rfl
  | cons b rest ih => intro a s; exact ih (a + 1) (putOut a b s)
@[simp] theorem putOutBytes_ie (bs : List Byte) : ∀ (a : Nat) (s : State), (putOutBytes a bs s).ie = s.ie := by
  induction bs with
  | nil => intros; rfl
  | cons b rest ih => intro a s; exact ih (a + 1) (putOut a b s)
@[simp] theorem putOutBytes_done (bs : List Byte) : ∀ (a : Nat) (s : State), (putOutBytes a bs s).done = s.done := by
  induction bs with
  | nil => intros; rfl
  | cons b rest ih => intro a s; exact ih (a + 1) (putOut a b s)
@[simp] theorem putOutBytes_err (bs : List Byte) : ∀ (a : Nat) (s : State), (putOutBytes a bs s).err = s.err := by
  induction bs with
  | nil => intros; rfl
  | cons b rest ih => intro a s; exact ih (a + 1) (putOut a b s)
@[simp] theorem putOutBytes_ovr (bs : List Byte) : ∀ (a : Nat) (s : State), (putOutBytes a bs s).ovr = s.ovr := by
  induction bs with
  | nil => intros; rfl
  | cons b rest ih => intro a s; exact ih (a + 1) (putOut a b s)
@[simp] theorem putOutBytes_freqValid (bs : List Byte) : ∀ (a : Nat) (s : State), (putOutBytes a bs s).freqValid = s.freqValid := by
  induction bs with
  | nil => intros; rfl
  | cons b rest ih => intro a s; exact ih (a + 1) (putOut a b s)
@[simp] theorem putOutBytes_treeValid (bs : List Byte) : ∀ (a : Nat) (s : State), (putOutBytes a bs s).treeValid = s.treeValid := by
  induction bs with
  | nil => intros; rfl
  | cons b rest ih => intro a s; exact ih (a + 1) (putOut a b s)
@[simp] theorem putOutBytes_codeValid (bs : List Byte) : ∀ (a : Nat) (s : State), (putOutBytes a bs s).codeValid = s.codeValid := by
  induction bs with
  | nil => intros; rfl
  | cons b rest ih => intro a s; exact ih (a + 1) (putOut a b s)
@[simp] theorem putOutBytes_bwOpen (bs : List Byte) : ∀ (a : Nat) (s : State), (putOutBytes a bs s).bwOpen = s.bwOpen := by
  induction bs with
  | nil => intros; rfl
  | cons b rest ih => intro a s; exact ih (a + 1) (putOut a b s)
@[simp] theorem putOutBytes_brOpen (bs : List Byte) : ∀ (a : Nat) (s : State), (putOutBytes a bs s).brOpen = s.brOpen := by
  induction bs with
  | nil => intros; rfl
  | cons b rest ih => intro a s; exact ih (a + 1) (putOut a b s)
@[simp] theorem putOutBytes_errCode (bs : List Byte) : ∀ (a : Nat) (s : State), (putOutBytes a bs s).errCode = s.errCode := by
  induction bs with
  | nil => intros; rfl
  | cons b rest ih => intro a s; exact ih (a + 1) (putOut a b s)
@[simp] theorem putOutBytes_errInfo (bs : List Byte) : ∀ (a : Nat) (s : State), (putOutBytes a bs s).errInfo = s.errInfo := by
  induction bs with
  | nil => intros; rfl
  | cons b rest ih => intro a s; exact ih (a + 1) (putOut a b s)
@[simp] theorem putOutBytes_inLen (bs : List Byte) : ∀ (a : Nat) (s : State), (putOutBytes a bs s).inLen = s.inLen := by
  induction bs with
  | nil => intros; rfl
  | cons b rest ih => intro a s; exact ih (a + 1) (putOut a b s)
@[simp] theorem putOutBytes_outLen (bs : List Byte) : ∀ (a : Nat) (s : State), (putOutBytes a bs s).outLen = s.outLen := by
  induction bs with
  | nil => intros; rfl
  | cons b rest ih => intro a s; exact ih (a + 1) (putOut a b s)
@[simp] theorem putOutBytes_symCount (bs : List Byte) : ∀ (a : Nat) (s : State), (putOutBytes a bs s).symCount = s.symCount := by
  induction bs with
  | nil => intros; rfl
  | cons b rest ih => intro a s; exact ih (a + 1) (putOut a b s)
@[simp] theorem putOutBytes_bitCount (bs : List Byte) : ∀ (a : Nat) (s : State), (putOutBytes a bs s).bitCount = s.bitCount := by
  induction bs with
  | nil => intros; rfl
  | cons b rest ih => intro a s; exact ih (a + 1) (putOut a b s)
@[simp] theorem putOutBytes_bwBase (bs : List Byte) : ∀ (a : Nat) (s : State), (putOutBytes a bs s).bwBase = s.bwBase := by
  induction bs with
  | nil => intros; rfl
  | cons b rest ih => intro a s; exact ih (a + 1) (putOut a b s)
@[simp] theorem putOutBytes_brBase (bs : List Byte) : ∀ (a : Nat) (s : State), (putOutBytes a bs s).brBase = s.brBase := by
  induction bs with
  | nil => intros; rfl
  | cons b rest ih => intro a s; exact ih (a + 1) (putOut a b s)
@[simp] theorem putOutBytes_brLimit (bs : List Byte) : ∀ (a : Nat) (s : State), (putOutBytes a bs s).brLimit = s.brLimit := by
  induction bs with
  | nil => intros; rfl
  | cons b rest ih => intro a s; exact ih (a + 1) (putOut a b s)
@[simp] theorem putOutBytes_nodeCount (bs : List Byte) : ∀ (a : Nat) (s : State), (putOutBytes a bs s).nodeCount = s.nodeCount := by
  induction bs with
  | nil => intros; rfl
  | cons b rest ih => intro a s; exact ih (a + 1) (putOut a b s)
@[simp] theorem putOutBytes_root (bs : List Byte) : ∀ (a : Nat) (s : State), (putOutBytes a bs s).root = s.root := by
  induction bs with
  | nil => intros; rfl
  | cons b rest ih => intro a s; exact ih (a + 1) (putOut a b s)
@[simp] theorem putOutBytes_res (bs : List Byte) : ∀ (a : Nat) (s : State), (putOutBytes a bs s).res = s.res := by
  induction bs with
  | nil => intros; rfl
  | cons b rest ih => intro a s; exact ih (a + 1) (putOut a b s)
@[simp] theorem putOutBytes_freq (bs : List Byte) : ∀ (a : Nat) (s : State), (putOutBytes a bs s).freq = s.freq := by
  induction bs with
  | nil => intros; rfl
  | cons b rest ih => intro a s; exact ih (a + 1) (putOut a b s)
@[simp] theorem putOutBytes_node (bs : List Byte) : ∀ (a : Nat) (s : State), (putOutBytes a bs s).node = s.node := by
  induction bs with
  | nil => intros; rfl
  | cons b rest ih => intro a s; exact ih (a + 1) (putOut a b s)
@[simp] theorem putOutBytes_codeLen (bs : List Byte) : ∀ (a : Nat) (s : State), (putOutBytes a bs s).codeLen = s.codeLen := by
  induction bs with
  | nil => intros; rfl
  | cons b rest ih => intro a s; exact ih (a + 1) (putOut a b s)
@[simp] theorem putOutBytes_codeVal (bs : List Byte) : ∀ (a : Nat) (s : State), (putOutBytes a bs s).codeVal = s.codeVal := by
  induction bs with
  | nil => intros; rfl
  | cons b rest ih => intro a s; exact ih (a + 1) (putOut a b s)
@[simp] theorem putOutBytes_bwOrg (bs : List Byte) : ∀ (a : Nat) (s : State), (putOutBytes a bs s).bwOrg = s.bwOrg := by
  induction bs with
  | nil => intros; rfl
  | cons b rest ih => intro a s; exact ih (a + 1) (putOut a b s)
@[simp] theorem putOutBytes_bwTotal (bs : List Byte) : ∀ (a : Nat) (s : State), (putOutBytes a bs s).bwTotal = s.bwTotal := by
  induction bs with
  | nil => intros; rfl
  | cons b rest ih => intro a s; exact ih (a + 1) (putOut a b s)
@[simp] theorem putOutBytes_bwAcc (bs : List Byte) : ∀ (a : Nat) (s : State), (putOutBytes a bs s).bwAcc = s.bwAcc := by
  induction bs with
  | nil => intros; rfl
  | cons b rest ih => intro a s; exact ih (a + 1) (putOut a b s)
@[simp] theorem putOutBytes_brOrg (bs : List Byte) : ∀ (a : Nat) (s : State), (putOutBytes a bs s).brOrg = s.brOrg := by
  induction bs with
  | nil => intros; rfl
  | cons b rest ih => intro a s; exact ih (a + 1) (putOut a b s)
@[simp] theorem putOutBytes_brLim (bs : List Byte) : ∀ (a : Nat) (s : State), (putOutBytes a bs s).brLim = s.brLim := by
  induction bs with
  | nil => intros; rfl
  | cons b rest ih => intro a s; exact ih (a + 1) (putOut a b s)
@[simp] theorem putOutBytes_brPos (bs : List Byte) : ∀ (a : Nat) (s : State), (putOutBytes a bs s).brPos = s.brPos := by
  induction bs with
  | nil => intros; rfl
  | cons b rest ih => intro a s; exact ih (a + 1) (putOut a b s)
@[simp] theorem putOutBytes_inBuf (bs : List Byte) : ∀ (a : Nat) (s : State), (putOutBytes a bs s).inBuf = s.inBuf := by
  induction bs with
  | nil => intros; rfl
  | cons b rest ih => intro a s; exact ih (a + 1) (putOut a b s)
@[simp] theorem putOutBytes_draw (bs : List Byte) : ∀ (a : Nat) (s : State), (putOutBytes a bs s).draw = s.draw := by
  induction bs with
  | nil => intros; rfl
  | cons b rest ih => intro a s; exact ih (a + 1) (putOut a b s)
@[simp] theorem putOutBytes_agenda (bs : List Byte) : ∀ (a : Nat) (s : State), (putOutBytes a bs s).agenda = s.agenda := by
  induction bs with
  | nil => intros; rfl
  | cons b rest ih => intro a s; exact ih (a + 1) (putOut a b s)
@[simp] theorem putOutBytes_resp (bs : List Byte) : ∀ (a : Nat) (s : State), (putOutBytes a bs s).resp = s.resp := by
  induction bs with
  | nil => intros; rfl
  | cons b rest ih => intro a s; exact ih (a + 1) (putOut a b s)

end Sys2Proof.Machine
end

