-- ==== Sys2Proof/Laws/Memory.lean ====
section
/-! SUPPORT. The laws of byte memory: read after write, and the canonical form and the bound on addresses that every
memory operation keeps. -/

namespace Sys2Proof.Machine

theorem lookupCell_insertCell_same (a : Nat) (b : Byte) (l : List Host.Cell) :
    lookupCell a (insertCell a b l) = some b := by
  induction l with
  | nil => simp [insertCell, lookupCell]
  | cons c rest ih =>
    obtain ⟨x, v⟩ := c
    simp only [insertCell]
    split
    · simp [lookupCell]
    · split
      · simp [lookupCell]
      · rw [lookupCell, if_neg (by omega), ih]

theorem lookupCell_insertCell_other {a a' : Nat} (h : a' ≠ a) (b : Byte) (l : List Host.Cell) :
    lookupCell a' (insertCell a b l) = lookupCell a' l := by
  induction l with
  | nil => simp [insertCell, lookupCell, Ne.symm h]
  | cons c rest ih =>
    obtain ⟨x, v⟩ := c
    simp only [insertCell]
    split
    · rw [lookupCell, if_neg (Ne.symm h)]
    · split
      · rename_i hx
        subst hx
        simp [lookupCell, Ne.symm h]
      · simp only [lookupCell, ih]

theorem mem_insertCell {c : Host.Cell} {a : Nat} {b : Byte} {l : List Host.Cell} (h : c ∈ insertCell a b l) :
    c = (a, b) ∨ c ∈ l := by
  induction l with
  | nil => simpa [insertCell] using h
  | cons d rest ih =>
    obtain ⟨x, v⟩ := d
    simp only [insertCell] at h
    split at h
    · simpa using h
    · split at h
      · rcases List.mem_cons.mp h with h | h
        · exact .inl h
        · exact .inr (List.mem_cons_of_mem _ h)
      · rcases List.mem_cons.mp h with h | h
        · exact .inr (h ▸ List.mem_cons_self)
        · exact (ih h).imp id (List.mem_cons_of_mem _)

theorem insertCell_sorted {a : Nat} {b : Byte} {l : List Host.Cell} (h : l.Pairwise fun x y => x.1 < y.1) :
    (insertCell a b l).Pairwise fun x y => x.1 < y.1 := by
  induction l with
  | nil => simp [insertCell]
  | cons d rest ih =>
    obtain ⟨x, v⟩ := d
    obtain ⟨hx, hr⟩ := List.pairwise_cons.mp h
    simp only [insertCell]
    split
    · rename_i hlt
      refine List.pairwise_cons.mpr ⟨fun c hc => ?_, h⟩
      rcases List.mem_cons.mp hc with hc | hc
      · subst hc; exact hlt
      · exact Nat.lt_trans hlt (hx c hc)
    · split
      · rename_i heq
        subst heq
        exact List.pairwise_cons.mpr ⟨hx, hr⟩
      · refine List.pairwise_cons.mpr ⟨fun c hc => ?_, ih hr⟩
        rcases mem_insertCell hc with hc | hc
        · subst hc; simp only; omega
        · exact hx c hc

@[simp] theorem Memory.read_write_same (free : Nat → Nat → Byte) (m : Memory) (a : Nat) (b : Byte) :
    (m.write a b).read free a = b := by
  simp [Memory.read, Memory.write, lookupCell_insertCell_same]

theorem Memory.read_write_other (free : Nat → Nat → Byte) (m : Memory) {a a' : Nat} (h : a' ≠ a) (b : Byte) :
    (m.write a b).read free a' = m.read free a' := by
  simp [Memory.read, Memory.write, lookupCell_insertCell_other h]

theorem Memory.wf_write {m : Memory} (h : m.wf) (a : Nat) (b : Byte) : (m.write a b).wf := insertCell_sorted h

theorem Memory.wf_havoc (d : Nat) : (Memory.havoc d).wf := List.Pairwise.nil

theorem Memory.below_write {m : Memory} {cap a : Nat} (h : m.below cap) (ha : a < cap) (b : Byte) :
    (m.write a b).below cap := by
  intro c hc
  rcases mem_insertCell hc with hc | hc
  · subst hc; exact ha
  · exact h c hc

theorem Memory.below_havoc (cap d : Nat) : (Memory.havoc d).below cap := by
  intro c hc; simp [Memory.havoc] at hc

/-- Two memories in canonical form that record the same bytes are equal data. -/
theorem lookupCell_below {a : Nat} {l : List Host.Cell} (h : ∀ c ∈ l, a < c.1) : lookupCell a l = none := by
  induction l with
  | nil => rfl
  | cons c rest ih =>
    obtain ⟨x, v⟩ := c
    have := h (x, v) List.mem_cons_self
    rw [lookupCell, if_neg (by simp only at this; omega)]
    exact ih fun c hc => h c (List.mem_cons_of_mem _ hc)

theorem cells_ext {l l' : List Host.Cell} (h : l.Pairwise fun x y => x.1 < y.1)
    (h' : l'.Pairwise fun x y => x.1 < y.1) (he : ∀ a, lookupCell a l = lookupCell a l') : l = l' := by
  induction l generalizing l' with
  | nil =>
    cases l' with
    | nil => rfl
    | cons c rest => have := he c.1; simp [lookupCell] at this
  | cons c rest ih =>
    cases l' with
    | nil => have := he c.1; simp [lookupCell] at this
    | cons d rest' =>
      obtain ⟨x, v⟩ := c
      obtain ⟨y, w⟩ := d
      obtain ⟨hx, hr⟩ := List.pairwise_cons.mp h
      obtain ⟨hy, hr'⟩ := List.pairwise_cons.mp h'
      have hxy : x = y := by
        rcases Nat.lt_trichotomy x y with hlt | heq | hgt
        · have h1 := he x
          rw [lookupCell, if_pos rfl, lookupCell, if_neg (by omega),
            lookupCell_below fun c hc => Nat.lt_trans hlt (hy c hc)] at h1
          simp at h1
        · exact heq
        · have h1 := he y
          rw [lookupCell, if_neg (by omega), lookupCell_below fun c hc => Nat.lt_trans hgt (hx c hc), lookupCell,
            if_pos rfl] at h1
          simp at h1
      subst hxy
      have hv : v = w := by have h1 := he x; simpa [lookupCell] using h1
      subst hv
      congr 1
      refine ih hr hr' fun a => ?_
      by_cases ha : x = a
      · subst ha
        rw [lookupCell_below hx, lookupCell_below hy]
      · have h1 := he a
        rwa [lookupCell, if_neg ha, lookupCell, if_neg ha] at h1

/-! ## The windows -/

@[simp] theorem outAt_putOut_same (a : Nat) (b : Byte) (s : State) : (putOut a b s).outAt a = b := by
  simp [State.outAt]

theorem outAt_putOut_other {a a' : Nat} (h : a' ≠ a) (b : Byte) (s : State) :
    (putOut a b s).outAt a' = s.outAt a' := by
  simp [State.outAt, Memory.read_write_other _ _ h]

@[simp] theorem inAt_putIn_same (a : Nat) (b : Byte) (s : State) : (putIn a b s).inAt a = b := by
  simp [State.inAt]

theorem inAt_putIn_other {a a' : Nat} (h : a' ≠ a) (b : Byte) (s : State) : (putIn a b s).inAt a' = s.inAt a' := by
  simp [State.inAt, Memory.read_write_other _ _ h]

/-- A state with the same IN has the same bytes of IN. -/
theorem inAt_congr {s t : State} (h : t.inBuf = s.inBuf) : t.inAt = s.inAt := by
  funext a; simp [State.inAt, h]

theorem outAt_congr {s t : State} (h : t.outBuf = s.outBuf) : t.outAt = s.outAt := by
  funext a; simp [State.outAt, h]

theorem outAt_putOutBytes_before {a x : Nat} (h : x < a) (bs : List Byte) (s : State) :
    (putOutBytes a bs s).outAt x = s.outAt x := by
  induction bs generalizing a s with
  | nil => rfl
  | cons b rest ih =>
    rw [putOutBytes, ih (by omega), outAt_putOut_other (by omega)]

theorem outAt_putOutBytes_after {a x : Nat} (bs : List Byte) (h : a + bs.length ≤ x) (s : State) :
    (putOutBytes a bs s).outAt x = s.outAt x := by
  induction bs generalizing a s with
  | nil => rfl
  | cons b rest ih =>
    simp only [List.length_cons] at h
    rw [putOutBytes, ih (by omega), outAt_putOut_other (by omega)]

theorem outAt_putOutBytes (a : Nat) (bs : List Byte) (s : State) {i : Nat} (h : i < bs.length) :
    (putOutBytes a bs s).outAt (a + i) = bs[i] := by
  induction bs generalizing a s i with
  | nil => simp at h
  | cons b rest ih =>
    rw [putOutBytes]
    cases i with
    | zero => rw [Nat.add_zero, outAt_putOutBytes_before (by omega)]; simp
    | succ j =>
      have := ih (a + 1) (putOut a b s) (i := j) (by simpa using h)
      rw [show a + (j + 1) = a + 1 + j by omega, this]; rfl

theorem wf_putOutBytes {s : State} (h : s.outBuf.wf) (a : Nat) (bs : List Byte) : (putOutBytes a bs s).outBuf.wf := by
  induction bs generalizing a s with
  | nil => exact h
  | cons b rest ih => exact ih (s := putOut a b s) (Memory.wf_write h a b) (a + 1)

theorem below_putOutBytes {s : State} {cap : Nat} (h : s.outBuf.below cap) {a : Nat} {bs : List Byte}
    (hb : a + bs.length ≤ cap) : (putOutBytes a bs s).outBuf.below cap := by
  induction bs generalizing a s with
  | nil => exact h
  | cons b rest ih =>
    simp only [List.length_cons] at hb
    exact ih (s := putOut a b s) (a := a + 1) (Memory.below_write h (by omega) b) (by omega)

end Sys2Proof.Machine
end

