-- ==== Sys2Proof/Laws/Exec.lean ====
section
/-! SUPPORT. How a command's body ends: `require`, sequencing, and the two ends of `runBody`. -/

namespace Sys2Proof.Machine

theorem require_ok_iff {c : Prop} [Decidable c] {e : Cause} {u : Unit} : require c e = .ok u ↔ c := by
  unfold require; split <;> simp_all

theorem require_error_iff {c : Prop} [Decidable c] {e e' : Cause} : require c e = .error e' ↔ ¬ c ∧ e' = e := by
  unfold require; split <;> simp_all [eq_comm]

theorem require_pos {c : Prop} [Decidable c] {e : Cause} (h : c) : require c e = .ok () := by simp [require, h]

theorem require_neg {c : Prop} [Decidable c] {e : Cause} (h : ¬ c) : require c e = .error e := by simp [require, h]

/-- Sequencing after a value. -/
theorem ok_bind {α β : Type} (a : α) (f : α → Except Cause β) : (Except.ok a >>= f) = f a := rfl

/-- Sequencing after a raise. -/
theorem error_bind {α β : Type} (e : Cause) (f : α → Except Cause β) :
    ((Except.error e : Except Cause α) >>= f) = .error e := rfl

theorem bind_ok_iff {α β : Type} {x : Except Cause α} {f : α → Except Cause β} {r : β} :
    (x >>= f) = .ok r ↔ ∃ a, x = .ok a ∧ f a = .ok r := by
  cases x <;> simp [bind, Except.bind]

theorem bind_error_iff {α β : Type} {x : Except Cause α} {f : α → Except Cause β} {e : Cause} :
    (x >>= f) = .error e ↔ x = .error e ∨ ∃ a, x = .ok a ∧ f a = .error e := by
  cases x <;> simp [bind, Except.bind]

/-- A `require` that passes is skipped. -/
theorem require_bind_pos {β : Type} {c : Prop} [Decidable c] {e : Cause} (h : c) (f : Unit → Except Cause β) :
    (require c e >>= f) = f () := by simp [require, h, bind, Except.bind]

/-- A `require` that fails raises. -/
theorem require_bind_neg {β : Type} {c : Prop} [Decidable c] {e : Cause} (h : ¬ c) (f : Unit → Except Cause β) :
    (require c e >>= f) = .error e := by simp [require, h, bind, Except.bind]

/-- What `require c e; f` can do. -/
theorem require_bind_ok_iff {β : Type} {c : Prop} [Decidable c] {e : Cause} {f : Unit → Except Cause β} {r : β} :
    (require c e >>= f) = .ok r ↔ c ∧ f () = .ok r := by
  by_cases h : c <;> simp [require, h, bind, Except.bind]

theorem require_bind_error_iff {β : Type} {c : Prop} [Decidable c] {e e' : Cause} {f : Unit → Except Cause β} :
    (require c e >>= f) = .error e' ↔ (¬ c ∧ e' = e) ∨ (c ∧ f () = .error e') := by
  by_cases h : c <;> simp [require, h, bind, Except.bind, eq_comm]

theorem runBody_ok (s t : State) : runBody s (.ok t) = .next t := rfl

theorem runBody_error (s : State) (c : Cause) : runBody s (.error c) = .next (errorEntry c s) := rfl

theorem runBody_of_ok {s t : State} {r : Except Cause State} (h : r = .ok t) : runBody s r = .next t := by
  subst h; rfl

theorem runBody_of_error {s : State} {c : Cause} {r : Except Cause State} (h : r = .error c) :
    runBody s r = .next (errorEntry c s) := by
  subst h; rfl

/-- Everything `runBody` can do: the body ends, or it raises and the state is that of error entry. -/
theorem runBody_cases {s t : State} {r : Except Cause State} (h : runBody s r = .next t) :
    r = .ok t ∨ ∃ c, r = .error c ∧ t = errorEntry c s := by
  cases r with
  | ok u => exact .inl (congrArg _ (Host.Outcome.next.inj h))
  | error c => exact .inr ⟨c, rfl, (Host.Outcome.next.inj h).symm⟩

/-- The body of each command: what `exec` runs (R27). -/
def bodyOf (i : Instr) (s : State) : Except Cause State :=
  match i with
  | .nop => .ok s
  | .clear => .ok (setRes [] (clearDerived s))
  | .tblRead sym => .ok (setRes (tblReadValues s sym) s)
  | .nodeRead h => nodeReadBody h s
  | .freqBuild => freqBuildBody s
  | .treeBuild => treeBuildBody s
  | .codeGen => codeGenBody s
  | .bwInit => bwInitBody s
  | .bwWriteBit b => bwWriteBitBody b s
  | .bwWriteCode sym => bwWriteCodeBody sym s
  | .bwFinish => bwFinishBody s
  | .brInit => brInitBody s
  | .brReadBit => brReadBitBody s
  | .brDecodeSym => brDecodeSymBody s
  | .compress => compressBody s
  | .decompress => decompressBody s

/-- Every command is its body, ended by `runBody`. -/
theorem exec_eq_runBody (i : Instr) (s : State) : exec i s = runBody s (bodyOf i s) := by cases i <;> rfl

end Sys2Proof.Machine
end

