-- ==== Sys2Proof/Laws/Frequency.lean ====
section
/-! SUPPORT. What `freq_build()` counts (rule R142) and what the list of present symbols holds (rules R151, R154). -/

namespace Sys2Proof.Machine

theorem countBytes_append (bs : List Byte) (b : Byte) :
    countBytes (bs ++ [b]) = bumpFreq (countBytes bs) b := by simp [countBytes]

/-- FREQ[s] is the number of positions that hold s; no counter wraps (R142). -/
theorem countBytes_toNat {bs : List Byte} (h : bs.length < 2 ^ 32) (sym : Byte) :
    ((countBytes bs)[sym.toNat]).toNat = bs.count sym := by
  induction bs using List.reverseRecOn with
  | nil => simp [countBytes]
  | append_singleton bs b ih =>
    simp only [List.length_append, List.length_cons, List.length_nil] at h
    have ih := ih (by omega)
    have hle : bs.count b ≤ bs.length := List.count_le_length
    simp only [countBytes_append, bumpFreq, Vector.getElem_set]
    by_cases hb : b = sym
    · subst hb
      rw [if_pos rfl, List.count_append]
      rw [BitVec.toNat_add, ih, List.count_singleton_self, show (1 : BitVec 32).toNat = 1 from rfl]
      omega
    · rw [if_neg (by rw [BitVec.toNat_inj]; exact hb), ih, List.count_append]
      simp [hb]

theorem symbolCount_le (f : Vector (BitVec 32) 256) : symbolCount f ≤ 256 := by
  have := List.countP_le_length (p := fun c : BitVec 32 => decide (c ≠ 0)) (l := f.toList)
  simpa [symbolCount] using this

theorem symbolCount_toNat (f : Vector (BitVec 32) 256) : (BitVec.ofNat 9 (symbolCount f)).toNat = symbolCount f := by
  have := symbolCount_le f
  simp only [BitVec.toNat_ofNat]; omega

theorem length_presentSymbols (f : Vector (BitVec 32) 256) : (presentSymbols f).length = symbolCount f := by
  simp only [presentSymbols, symbolCount, List.length_map, ← List.countP_eq_length_filter]
  have : ∀ (l : List (BitVec 32)) (n : Nat),
      (l.zipIdx n).countP (fun p => decide (p.1 ≠ 0)) = l.countP fun c => decide (c ≠ 0) := by
    intro l
    induction l with
    | nil => simp
    | cons c rest ih => intro n; simp only [List.zipIdx_cons, List.countP_cons, ih]
  exact this _ _

/-- A pair is listed exactly if the symbol is present with that count (R143, R154). -/
theorem mem_presentSymbols {f : Vector (BitVec 32) 256} {e : Byte × BitVec 32} :
    e ∈ presentSymbols f ↔ e.2 ≠ 0 ∧ f[e.1.toNat] = e.2 := by
  obtain ⟨sym, c⟩ := e
  simp only [presentSymbols, List.mem_map, List.mem_filter, Prod.mk.injEq, Prod.exists, List.mem_zipIdx_iff_getElem?]
  constructor
  · rintro ⟨c', k, ⟨hk, hc⟩, rfl, rfl⟩
    have hlt : k < 256 := by
      have := (List.getElem?_eq_some_iff.mp hk).1
      simpa using this
    refine ⟨by simpa using hc, ?_⟩
    simp only [BitVec.toNat_ofNat, Nat.mod_eq_of_lt (show k < 2 ^ 8 by omega)]
    simpa [hlt] using hk
  · rintro ⟨hc, hf⟩
    refine ⟨c, sym.toNat, ⟨?_, by simpa using hc⟩, by simp, rfl⟩
    rw [Vector.getElem?_toList, Vector.getElem?_eq_getElem sym.isLt]
    exact congrArg some hf

/-- The list is in strictly ascending order of symbol value (R154). -/
theorem presentSymbols_ascending (f : Vector (BitVec 32) 256) :
    (presentSymbols f).Pairwise fun x y => x.1.toNat < y.1.toNat := by
  simp only [presentSymbols, List.pairwise_map]
  have key : ∀ (l : List (BitVec 32)) (n : Nat), n + l.length ≤ 256 →
      (l.zipIdx n).Pairwise fun x y => (BitVec.ofNat 8 x.2).toNat < (BitVec.ofNat 8 y.2).toNat := by
    intro l
    induction l with
    | nil => simp
    | cons c rest ih =>
      intro n hn
      simp only [List.length_cons] at hn
      rw [List.zipIdx_cons, List.pairwise_cons]
      refine ⟨fun p hp => ?_, ih (n + 1) (by omega)⟩
      have h1 := List.le_snd_of_mem_zipIdx hp
      have h2 := List.snd_lt_add_of_mem_zipIdx hp
      simp only [BitVec.toNat_ofNat]
      omega
  exact (key f.toList 0 (by simp)).filter _

theorem presentSymbols_nodup (f : Vector (BitVec 32) 256) : ((presentSymbols f).map Prod.fst).Nodup := by
  rw [List.Nodup, List.pairwise_map]
  exact (presentSymbols_ascending f).imp fun h he => by rw [he] at h; omega

theorem presentSymbols_eq_nil {f : Vector (BitVec 32) 256} : presentSymbols f = [] ↔ symbolCount f = 0 := by
  rw [← length_presentSymbols, List.length_eq_zero_iff]

@[simp] theorem length_inBytes (s : State) (n : Nat) : (inBytes s n).length = n := by simp [inBytes]

theorem inBytes_congr {s t : State} (h : t.inBuf = s.inBuf) (n : Nat) : inBytes t n = inBytes s n := by
  simp [inBytes, inAt_congr h]

end Sys2Proof.Machine
end

