-- ==== Sys2Proof/Laws/Tree.lean ====
section
/-! SUPPORT. What the merge loop of `tree_build` makes (rules R152 to R157): the priority order is total, each
extraction takes the least element, and the finished arena is a forest of one tree. -/

namespace Sys2Proof.Machine

/-! ## The priority order (R153) -/

theorem comesBefore_iff (arena : List Node) (x y : Nat) :
    comesBefore arena x y = true ↔
      arenaWeight arena x < arenaWeight arena y ∨ (arenaWeight arena x = arenaWeight arena y ∧ x < y) := by
  simp [comesBefore]

theorem comesBefore_trans {arena : List Node} {x y z : Nat} (h : comesBefore arena x y = true)
    (h' : comesBefore arena y z = true) : comesBefore arena x z = true := by
  rw [comesBefore_iff] at *
  simp only [BitVec.lt_def, ← BitVec.toNat_inj] at *
  omega

theorem comesBefore_total {arena : List Node} {x y : Nat} (h : comesBefore arena x y ≠ true) (hxy : x ≠ y) :
    comesBefore arena y x = true := by
  rw [ne_eq, comesBefore_iff] at h
  rw [comesBefore_iff]
  simp only [BitVec.lt_def, ← BitVec.toNat_inj] at *
  omega

theorem leastHandle_none {arena : List Node} {q : List Nat} (h : leastHandle arena q = none) : q = [] := by
  cases q with
  | nil => rfl
  | cons x rest =>
    simp only [leastHandle] at h
    split at h
    · simp at h
    · split at h <;> simp at h

/-- The extracted handle is in Q and comes before every other element of Q. -/
theorem leastHandle_some {arena : List Node} {q : List Nat} {a : Nat} (h : leastHandle arena q = some a) :
    a ∈ q ∧ ∀ x ∈ q, x ≠ a → comesBefore arena a x = true := by
  induction q generalizing a with
  | nil => simp [leastHandle] at h
  | cons x rest ih =>
    simp only [leastHandle] at h
    split at h
    · rename_i hn
      have hr := leastHandle_none hn
      subst hr
      obtain rfl : x = a := by simpa using h
      simp
    · rename_i y hy
      obtain ⟨hm, hl⟩ := ih hy
      split at h
      · rename_i hb
        obtain rfl : x = a := by simpa using h
        refine ⟨List.mem_cons_self, fun z hz hne => ?_⟩
        rcases List.mem_cons.mp hz with rfl | hz
        · exact absurd rfl hne
        · by_cases hzy : z = y
          · subst hzy; exact hb
          · exact comesBefore_trans hb (hl z hz hzy)
      · rename_i hb
        obtain rfl : y = a := by simpa using h
        refine ⟨List.mem_cons_of_mem _ hm, fun z hz hne => ?_⟩
        rcases List.mem_cons.mp hz with rfl | hz
        · exact comesBefore_total hb hne
        · exact hl z hz hne

/-! ## The arena -/

/-- `x` is a child of the node at handle `m`. -/
def isChild (arena : List Node) (m x : Nat) : Prop :=
  ∃ n, arena[m]? = some n ∧ n.isLeaf = false ∧ (n.left.toNat = x ∨ n.right.toNat = x)

/-- The node at handle `m` is the merge of the two least elements of the handles then in Q (R152, R153, R155):
those below `m` that are children of no earlier node. -/
def mergedAt (arena : List Node) (m : Nat) : Prop :=
  ∃ n a b, arena[m]? = some n ∧ n.isLeaf = false ∧ n.sym = 0 ∧
    n.left = BitVec.ofNat 9 a ∧ n.right = BitVec.ofNat 9 b ∧ a < m ∧ b < m ∧ a ≠ b ∧
    n.weight = arenaWeight arena a + arenaWeight arena b ∧
    (∀ m' < m, ¬ isChild arena m' a) ∧ (∀ m' < m, ¬ isChild arena m' b) ∧
    ∀ x < m, (∀ m' < m, ¬ isChild arena m' x) →
      (x ≠ a → comesBefore arena a x = true) ∧ (x ≠ a → x ≠ b → comesBefore arena b x = true)

/-- What holds of the arena and of Q before and after every pass of the merge loop for a list of `k` leaves. -/
structure MergeInv (l : SymFreqs) (arena : List Node) (q : List Nat) : Prop where
  size : arena.length + q.length = 2 * l.length
  leaves_le : l.length ≤ arena.length
  nonempty : q ≠ []
  nodup : q.Nodup
  bound : ∀ x ∈ q, x < arena.length
  leaf : ∀ i (h : i < l.length), arena[i]? = some (leafNode l[i])
  merged : ∀ m, l.length ≤ m → m < arena.length → mergedAt arena m
  free : ∀ x ∈ q, ∀ m, ¬ isChild arena m x
  taken : ∀ x < arena.length, x ∉ q → ∃ m, isChild arena m x
  once : ∀ x m m', isChild arena m x → isChild arena m' x → m = m'

theorem isChild_lt {arena : List Node} {m x : Nat} (h : isChild arena m x) : m < arena.length := by
  obtain ⟨n, h, -⟩ := h
  exact (List.getElem?_eq_some_iff.mp h).1

theorem isChild_append {arena : List Node} {n : Node} {m x : Nat} (h : m < arena.length) :
    isChild (arena ++ [n]) m x ↔ isChild arena m x := by
  simp [isChild, List.getElem?_append_left h]

theorem isChild_last {arena : List Node} {n : Node} {x : Nat} :
    isChild (arena ++ [n]) arena.length x ↔ n.isLeaf = false ∧ (n.left.toNat = x ∨ n.right.toNat = x) := by
  simp [isChild]

theorem arenaWeight_append {arena : List Node} {n : Node} {x : Nat} (h : x < arena.length) :
    arenaWeight (arena ++ [n]) x = arenaWeight arena x := by
  simp [arenaWeight, List.getElem?_append_left h]

theorem comesBefore_append {arena : List Node} {n : Node} {x y : Nat} (hx : x < arena.length)
    (hy : y < arena.length) : comesBefore (arena ++ [n]) x y = comesBefore arena x y := by
  simp [comesBefore, arenaWeight_append hx, arenaWeight_append hy]

theorem mergedAt_append {arena : List Node} {n : Node} {m : Nat} (h : mergedAt arena m) (hm : m < arena.length) :
    mergedAt (arena ++ [n]) m := by
  obtain ⟨v, a, b, hv, h1, h2, h3, h4, ha, hb, hab, hw, hfa, hfb, hmin⟩ := h
  have hc : ∀ m' < m, ∀ x, isChild (arena ++ [n]) m' x ↔ isChild arena m' x := fun m' h' x =>
    isChild_append (by omega)
  refine ⟨v, a, b, by rw [List.getElem?_append_left hm]; exact hv, h1, h2, h3, h4, ha, hb, hab, ?_, ?_, ?_, ?_⟩
  · rw [arenaWeight_append (by omega), arenaWeight_append (by omega), hw]
  · intro m' h'; rw [hc m' h']; exact hfa m' h'
  · intro m' h'; rw [hc m' h']; exact hfb m' h'
  · intro x hx hfx
    have hfx' : ∀ m' < m, ¬ isChild arena m' x := fun m' h' => by rw [← hc m' h']; exact hfx m' h'
    obtain ⟨h5, h6⟩ := hmin x hx hfx'
    rw [comesBefore_append (by omega) (by omega), comesBefore_append (by omega) (by omega)]
    exact ⟨h5, h6⟩

theorem isChild_mergeNode {arena : List Node} {a b x : Nat} (ha : a < 512) (hb : b < 512) :
    isChild (arena ++ [mergeNode arena a b]) arena.length x ↔ x = a ∨ x = b := by
  rw [isChild_last]
  simp only [mergeNode, BitVec.toNat_ofNat, true_and]
  omega

/-- One pass of the merge loop keeps the invariant. -/
theorem MergeInv.merge {l : SymFreqs} {arena : List Node} {q : List Nat} (hl : l.length ≤ 256)
    (h : MergeInv l arena q) {a b : Nat} (ha : leastHandle arena q = some a)
    (hb : leastHandle arena (q.erase a) = some b) :
    MergeInv l (arena ++ [mergeNode arena a b]) ((q.erase a).erase b ++ [arena.length]) := by
  obtain ⟨haq, hamin⟩ := leastHandle_some ha
  obtain ⟨hbe, hbmin⟩ := leastHandle_some hb
  have hmem : ∀ x, x ∈ q.erase a ↔ x ≠ a ∧ x ∈ q := fun x => h.nodup.mem_erase_iff
  have hbq := ((hmem b).mp hbe).2
  have hba := ((hmem b).mp hbe).1
  have hnd : (q.erase a).Nodup := h.nodup.erase a
  have hmem2 : ∀ x, x ∈ (q.erase a).erase b ↔ x ≠ b ∧ x ≠ a ∧ x ∈ q := fun x => by
    rw [hnd.mem_erase_iff, hmem]
  have hlen1 := List.length_erase_of_mem haq
  have hlen2 := List.length_erase_of_mem hbe
  have hq2 : 2 ≤ q.length := by
    have h0 : 0 < (q.erase a).length := List.length_pos_of_mem hbe
    omega
  have hA : arena.length ≤ 510 := by have := h.size; omega
  have hal := h.bound a haq
  have hbl := h.bound b hbq
  have hnew : ∀ x, isChild (arena ++ [mergeNode arena a b]) arena.length x ↔ x = a ∨ x = b := fun x =>
    isChild_mergeNode (by omega) (by omega)
  have hcases : ∀ m x, isChild (arena ++ [mergeNode arena a b]) m x ↔
      (m = arena.length ∧ (x = a ∨ x = b)) ∨ isChild arena m x := by
    intro m x
    rcases Nat.lt_trichotomy m arena.length with hm | hm | hm
    · rw [isChild_append hm]; constructor
      · exact .inr
      · rintro (⟨rfl, -⟩ | h')
        · omega
        · exact h'
    · subst hm
      rw [hnew]; constructor
      · exact fun h' => .inl ⟨rfl, h'⟩
      · rintro (⟨-, h'⟩ | h')
        · exact h'
        · have := isChild_lt h'; omega
    · constructor
      · intro h'; have := isChild_lt h'; simp at this; omega
      · rintro (⟨rfl, -⟩ | h')
        · omega
        · have := isChild_lt h'; omega
  refine ⟨?_, ?_, ?_, ?_, ?_, ?_, ?_, ?_, ?_, ?_⟩
  · have := h.size
    simp only [List.length_append, List.length_cons, List.length_nil]
    omega
  · have := h.leaves_le; simp; omega
  · simp
  · refine (hnd.erase b).append (by simp) ?_
    intro x hx hx'
    rw [List.mem_singleton] at hx'
    have := h.bound x ((hmem2 x).mp hx).2.2
    omega
  · intro x hx
    rcases List.mem_append.mp hx with hx | hx
    · have := h.bound x ((hmem2 x).mp hx).2.2; simp; omega
    · simp at hx; simp [hx]
  · intro i hi
    have := h.leaves_le
    rw [List.getElem?_append_left (by omega)]
    exact h.leaf i hi
  · intro m hm hm'
    rcases Nat.lt_or_ge m arena.length with hlt | hge
    · exact mergedAt_append (h.merged m hm hlt) hlt
    · obtain rfl : m = arena.length := by simp at hm'; omega
      refine ⟨mergeNode arena a b, a, b, by simp, rfl, rfl, rfl, rfl, hal, hbl, Ne.symm hba, ?_, ?_, ?_, ?_⟩
      · rw [arenaWeight_append hal, arenaWeight_append hbl]; rfl
      · intro m' h'; rw [isChild_append h']; exact h.free a haq m'
      · intro m' h'; rw [isChild_append h']; exact h.free b hbq m'
      · intro x hx hfx
        have hxq : x ∈ q := by
          by_contra hxq
          obtain ⟨m', hm'⟩ := h.taken x hx hxq
          exact hfx m' (isChild_lt hm') ((isChild_append (isChild_lt hm')).mpr hm')
        rw [comesBefore_append hal hx, comesBefore_append hbl hx]
        exact ⟨fun hne => hamin x hxq hne, fun hne hne' => hbmin x ((hmem x).mpr ⟨hne, hxq⟩) hne'⟩
  · intro x hx m hc
    rw [hcases] at hc
    rcases List.mem_append.mp hx with hx | hx
    · have hx' := (hmem2 x).mp hx
      rcases hc with ⟨-, rfl | rfl⟩ | hc
      · exact hx'.2.1 rfl
      · exact hx'.1 rfl
      · exact h.free x hx'.2.2 m hc
    · rw [List.mem_singleton] at hx
      subst hx
      rcases hc with ⟨-, hc | hc⟩ | hc
      · omega
      · omega
      · have hm := isChild_lt hc
        obtain ⟨n, hn, hnl, hch⟩ := hc
        rcases Nat.lt_or_ge m l.length with hml | hml
        · rw [h.leaf m hml] at hn
          obtain rfl := Option.some.inj hn
          simp [leafNode] at hnl
        · obtain ⟨n', a', b', hn', -, -, e1, e2, ha', hb', -⟩ := h.merged m hml hm
          rw [hn] at hn'
          obtain rfl := Option.some.inj hn'
          rw [e1, e2] at hch
          simp only [BitVec.toNat_ofNat] at hch
          omega
  · intro x hx hxq
    simp only [List.mem_append, List.mem_singleton, not_or, hmem2] at hxq
    simp only [List.length_append, List.length_cons, List.length_nil] at hx
    by_cases hxa : x = a
    · exact ⟨arena.length, (hcases _ _).mpr (.inl ⟨rfl, .inl hxa⟩)⟩
    · by_cases hxb : x = b
      · exact ⟨arena.length, (hcases _ _).mpr (.inl ⟨rfl, .inr hxb⟩)⟩
      · have hxn : x ∉ q := fun hx' => hxq.1 ⟨hxb, hxa, hx'⟩
        obtain ⟨m, hm⟩ := h.taken x (by omega) hxn
        exact ⟨m, (hcases _ _).mpr (.inr hm)⟩
  · intro x m m' hm hm'
    rw [hcases] at hm hm'
    have hno : ∀ m, (x = a ∨ x = b) → ¬ isChild arena m x := by
      rintro m (rfl | rfl)
      · exact h.free _ haq m
      · exact h.free _ hbq m
    rcases hm with ⟨rfl, hx⟩ | hm
    · rcases hm' with ⟨rfl, -⟩ | hm'
      · rfl
      · exact absurd hm' (hno m' hx)
    · rcases hm' with ⟨rfl, hx⟩ | hm'
      · exact absurd hm (hno m hx)
      · exact h.once x m m' hm hm'

theorem MergeInv.initial {l : SymFreqs} (hl : l ≠ []) : MergeInv l (l.map leafNode) (List.range l.length) := by
  have hchild : ∀ m x, ¬ isChild (l.map leafNode) m x := by
    rintro m x ⟨n, hn, hnl, -⟩
    rw [List.getElem?_map, Option.map_eq_some_iff] at hn
    obtain ⟨e, -, rfl⟩ := hn
    simp [leafNode] at hnl
  refine ⟨by simp; omega, by simp, ?_, List.nodup_range, by simp, ?_, ?_, ?_, ?_, ?_⟩
  · simpa using hl
  · intro i hi; simp [hi]
  · intro m hm hm'; simp at hm'; omega
  · intro x _ m; exact hchild m x
  · intro x hx hxq; simp at hx hxq; omega
  · intro x m m' hm; exact absurd hm (hchild m x)

/-- The merge loop from any arena and Q that meet the invariant ends with one handle in Q, given enough passes. -/
theorem mergeLoop_spec {l : SymFreqs} (hl : l.length ≤ 256) :
    ∀ (fuel : Nat) (arena : List Node) (q : List Nat), MergeInv l arena q → q.length ≤ fuel + 1 →
      MergeInv l (mergeLoop fuel arena q).1 (mergeLoop fuel arena q).2 ∧ (mergeLoop fuel arena q).2.length = 1 := by
  intro fuel
  induction fuel with
  | zero =>
    intro arena q h hq
    have : q.length ≠ 0 := fun h0 => h.nonempty (List.length_eq_zero_iff.mp h0)
    exact ⟨h, by simp only [mergeLoop]; omega⟩
  | succ fuel ih =>
    intro arena q h hq
    simp only [mergeLoop]
    split
    · rename_i hn; exact absurd (leastHandle_none hn) h.nonempty
    · rename_i a ha
      have hm := (leastHandle_some ha).1
      have hlen := List.length_erase_of_mem hm
      split
      · rename_i hn
        have := leastHandle_none hn
        rw [this] at hlen
        simp at hlen
        have : 0 < q.length := List.length_pos_of_mem hm
        exact ⟨h, by simp only; omega⟩
      · rename_i b hb
        have hlen2 := List.length_erase_of_mem (leastHandle_some hb).1
        refine ih _ _ (h.merge hl ha hb) ?_
        simp only [List.length_append, List.length_cons, List.length_nil]
        have : 0 < (q.erase a).length := List.length_pos_of_mem (leastHandle_some hb).1
        omega

/-- The finished arena (R152): 2K - 1 nodes, and the one handle left in Q is the last. -/
theorem buildArena_spec {l : SymFreqs} (hne : l ≠ []) (hl : l.length ≤ 256) :
    MergeInv l (buildArena l).1 (buildArena l).2 ∧ (buildArena l).1.length = 2 * l.length - 1 ∧
      (buildArena l).2 = [2 * l.length - 2] := by
  have hpos : 0 < l.length := List.length_pos_iff.mpr hne
  obtain ⟨h, h1⟩ := mergeLoop_spec hl (l.length - 1) _ _ (MergeInv.initial hne) (by simp; omega)
  obtain ⟨r, hr⟩ := List.length_eq_one_iff.mp h1
  have hsize : (buildArena l).1.length = 2 * l.length - 1 := by
    have := h.size
    rw [h1] at this
    simp only [buildArena]
    omega
  refine ⟨h, hsize, ?_⟩
  simp only [buildArena] at hsize ⊢
  rw [hr]
  congr 1
  have hrb := h.bound r (by rw [hr]; simp)
  rcases Nat.lt_or_ge r (2 * l.length - 2) with hlt | hge
  · exfalso
    -- the last node is no child of any node, so it is in Q
    have hq : 2 * l.length - 2 ∉ (mergeLoop (l.length - 1) (l.map leafNode) (List.range l.length)).2 := by
      rw [hr]; simp; omega
    obtain ⟨m, hm⟩ := h.taken _ (by omega) hq
    have hml := isChild_lt hm
    obtain ⟨n, hn, hnl, hch⟩ := hm
    rcases Nat.lt_or_ge m l.length with hm' | hm'
    · rw [h.leaf m hm'] at hn
      obtain rfl := Option.some.inj hn
      simp [leafNode] at hnl
    · obtain ⟨n', a', b', hn', -, -, e1, e2, ha', hb', -⟩ := h.merged m hm' hml
      rw [hn] at hn'
      obtain rfl := Option.some.inj hn'
      rw [e1, e2] at hch
      simp only [BitVec.toNat_ofNat] at hch
      omega
  · omega

/-! ## Weights -/

/-- The weights of Q sum to the sum of the list's counts, and no weight has wrapped (R159, R160). -/
structure SumInv (total : Nat) (arena : List Node) (q : List Nat) : Prop where
  sum : (q.map fun x => (arenaWeight arena x).toNat).sum = total
  exact : ∀ (m : Nat) (n : Node), arena[m]? = some n → n.isLeaf = false →
    n.weight.toNat = (arenaWeight arena n.left.toNat).toNat + (arenaWeight arena n.right.toNat).toNat

theorem sum_erase {q : List Nat} {a : Nat} (h : a ∈ q) (f : Nat → Nat) :
    (q.map f).sum = f a + ((q.erase a).map f).sum := by
  induction q with
  | nil => simp at h
  | cons x rest ih =>
    by_cases hx : x = a
    · subst hx; simp
    · have ha : a ∈ rest := by rcases List.mem_cons.mp h with h | h; exact absurd h.symm hx; exact h
      rw [List.erase_cons_tail (by simpa using hx)]
      simp only [List.map_cons, List.sum_cons, ih ha]; omega

theorem SumInv.merge {total : Nat} (ht : total < 2 ^ 40) {l : SymFreqs} {arena : List Node} {q : List Nat}
    (hl : l.length ≤ 256) (h : MergeInv l arena q) (w : SumInv total arena q) {a b : Nat}
    (ha : leastHandle arena q = some a) (hb : leastHandle arena (q.erase a) = some b) :
    SumInv total (arena ++ [mergeNode arena a b]) ((q.erase a).erase b ++ [arena.length]) := by
  have haq := (leastHandle_some ha).1
  have hbe := (leastHandle_some hb).1
  have hbq := List.mem_of_mem_erase hbe
  have hal := h.bound a haq
  have hbl := h.bound b hbq
  have h0 : 0 < (q.erase a).length := List.length_pos_of_mem hbe
  have hlen1 := List.length_erase_of_mem haq
  have hA : arena.length ≤ 510 := by have := h.size; omega
  have hsum := w.sum
  rw [sum_erase haq, sum_erase hbe] at hsum
  have hnew : (mergeNode arena a b).weight.toNat = (arenaWeight arena a).toNat + (arenaWeight arena b).toNat := by
    show (arenaWeight arena a + arenaWeight arena b).toNat = _
    rw [BitVec.toNat_add]; omega
  constructor
  · have hkeep : ((q.erase a).erase b).map (fun x => (arenaWeight (arena ++ [mergeNode arena a b]) x).toNat) =
        ((q.erase a).erase b).map (fun x => (arenaWeight arena x).toNat) := by
      apply List.map_congr_left
      intro x hx
      rw [arenaWeight_append (h.bound x (List.mem_of_mem_erase (List.mem_of_mem_erase hx)))]
    have hlast : arenaWeight (arena ++ [mergeNode arena a b]) arena.length = (mergeNode arena a b).weight := by
      simp [arenaWeight]
    rw [List.map_append, List.sum_append, hkeep]
    simp only [List.map_cons, List.map_nil, List.sum_cons, List.sum_nil, hlast, hnew]
    omega
  · intro m n hn hnl
    rcases Nat.lt_trichotomy m arena.length with hm | hm | hm
    · rw [List.getElem?_append_left hm] at hn
      rcases Nat.lt_or_ge m l.length with hml | hml
      · rw [h.leaf m hml] at hn
        obtain rfl := Option.some.inj hn
        simp [leafNode] at hnl
      · obtain ⟨n', a', b', hn', -, -, e1, e2, ha', hb', -⟩ := h.merged m hml hm
        rw [hn] at hn'
        obtain rfl := Option.some.inj hn'
        have l1 : n.left.toNat = a' := by rw [e1, BitVec.toNat_ofNat]; omega
        have l2 : n.right.toNat = b' := by rw [e2, BitVec.toNat_ofNat]; omega
        rw [w.exact m n hn hnl, l1, l2, arenaWeight_append (by omega), arenaWeight_append (by omega)]
    · subst hm
      have : n = mergeNode arena a b := by simpa using hn.symm
      subst this
      have l1 : (mergeNode arena a b).left.toNat = a := by simp only [mergeNode, BitVec.toNat_ofNat]; omega
      have l2 : (mergeNode arena a b).right.toNat = b := by simp only [mergeNode, BitVec.toNat_ofNat]; omega
      rw [hnew, l1, l2, arenaWeight_append hal, arenaWeight_append hbl]
    · rw [List.getElem?_eq_none (by simp; omega)] at hn; cases hn

theorem mergeLoop_sum {total : Nat} (ht : total < 2 ^ 40) {l : SymFreqs} (hl : l.length ≤ 256) :
    ∀ (fuel : Nat) (arena : List Node) (q : List Nat), MergeInv l arena q → SumInv total arena q →
      SumInv total (mergeLoop fuel arena q).1 (mergeLoop fuel arena q).2 := by
  intro fuel
  induction fuel with
  | zero => intro arena q _ w; exact w
  | succ fuel ih =>
    intro arena q h w
    simp only [mergeLoop]
    split
    · exact w
    · rename_i a ha
      split
      · exact w
      · rename_i b hb
        exact ih _ _ (h.merge hl ha hb) (w.merge ht hl h ha hb)

/-- The sum of the counts of a list of at most 256 entries is below 2^40 (R159). -/
theorem sum_counts_lt {l : SymFreqs} (hl : l.length ≤ 256) : (l.map fun e => e.2.toNat).sum < 2 ^ 40 := by
  have h : ∀ l : SymFreqs, (l.map fun e => e.2.toNat).sum ≤ l.length * (2 ^ 32 - 1) := by
    intro l
    induction l with
    | nil => simp
    | cons e rest ih =>
      have := e.2.isLt
      simp only [List.map_cons, List.sum_cons, List.length_cons]; omega
  have := h l
  omega

theorem buildArena_sum {l : SymFreqs} (hne : l ≠ []) (hl : l.length ≤ 256) :
    SumInv (l.map fun e => e.2.toNat).sum (buildArena l).1 (buildArena l).2 := by
  refine mergeLoop_sum (sum_counts_lt hl) hl _ _ _ (MergeInv.initial hne) ⟨?_, ?_⟩
  · congr 1
    apply List.ext_getElem
    · simp
    · intro i h1 h2
      simp only [List.length_map, List.length_range] at h1
      simp only [List.getElem_map, List.getElem_range, arenaWeight, List.getElem?_map, List.getElem?_eq_getElem h1,
        Option.map_some, Option.getD_some, leafNode, BitVec.toNat_setWidth]
      have := l[i].2.isLt
      omega
  · intro m n hn hnl
    rw [List.getElem?_map, Option.map_eq_some_iff] at hn
    obtain ⟨e, -, rfl⟩ := hn
    simp [leafNode] at hnl

end Sys2Proof.Machine
end

