-- ==== Sys2Proof/Laws/TreeState.lean ====
section
/-! SUPPORT. `tree_build` on the state: NODE holds the finished arena, and it is a valid tree (rules R49, R152). -/

namespace Sys2Proof.Machine

/-- What `tree_build` needs of its list for the state's FREQ (R152): distinct symbols, each with its non-zero count,
and every present symbol listed. -/
structure ListsFreq (l : SymFreqs) (s : State) : Prop where
  nonempty : l ≠ []
  small : l.length ≤ 256
  distinct : (l.map Prod.fst).Nodup
  counts : ∀ e ∈ l, s.freqAt e.1 = e.2 ∧ e.2 ≠ 0
  covers : ∀ sym : Byte, s.freqAt sym ≠ 0 → ∃ e ∈ l, e.1 = sym

theorem listsFreq_presentSymbols {s : State} (h : presentSymbols s.freq ≠ []) :
    ListsFreq (presentSymbols s.freq) s where
  nonempty := h
  small := by rw [length_presentSymbols]; exact symbolCount_le _
  distinct := presentSymbols_nodup _
  counts := fun e he => by
    obtain ⟨h1, h2⟩ := mem_presentSymbols.mp he
    exact ⟨h2, h1⟩
  covers := fun sym hs => ⟨(sym, s.freqAt sym), mem_presentSymbols.mpr ⟨hs, rfl⟩, rfl⟩

theorem nodeAt_of_lt {s : State} {h : Handle} (hlt : h.toNat < 511) : s.nodeAt h = s.node[h.toNat] := by
  simp [State.nodeAt, hlt]

/-- NODE after `tree_build`, below NODE_COUNT. -/
theorem nodeAt_treeBuild {l : SymFreqs} (hne : l ≠ []) (hl : l.length ≤ 256) (s : State) {h : Handle} {n : Node}
    (hn : (buildArena l).1[h.toNat]? = some n) : (treeBuild l s).nodeAt h = n := by
  have hlen := (buildArena_spec hne hl).2.1
  obtain ⟨hlt, hget⟩ := List.getElem?_eq_some_iff.mp hn
  rw [nodeAt_of_lt (by omega)]
  simp only [treeBuild_node, arenaTable, Vector.getElem_ofFn, List.getD_eq_getElem?_getD, hn, Option.getD_some]

theorem treeBuild_nodeCount_toNat {l : SymFreqs} (hne : l ≠ []) (hl : l.length ≤ 256) (s : State) :
    (treeBuild l s).nodeCount.toNat = 2 * l.length - 1 := by
  have hlen := (buildArena_spec hne hl).2.1
  simp only [treeBuild_nodeCount, BitVec.toNat_ofNat, hlen]; omega

theorem treeBuild_root_toNat {l : SymFreqs} (hne : l ≠ []) (hl : l.length ≤ 256) (s : State) :
    (treeBuild l s).root.toNat = 2 * l.length - 2 := by
  have hq := (buildArena_spec hne hl).2.2
  simp only [treeBuild_root, BitVec.toNat_ofNat, hq, List.headD_cons]; omega

theorem arenaWeight_of_get {arena : List Node} {x : Nat} {n : Node} (h : arena[x]? = some n) :
    arenaWeight arena x = n.weight := by simp [arenaWeight, h]

/-- `tree_build` makes a valid tree of FREQ. -/
theorem treeBuild_shape {l : SymFreqs} {s : State} (h : ListsFreq l s) : TreeShape (treeBuild l s) l.length := by
  have hne := h.nonempty
  have hl := h.small
  have hpos : 0 < l.length := List.length_pos_iff.mpr hne
  obtain ⟨inv, hlen, hq⟩ := buildArena_spec hne hl
  have hfreq : ∀ sym, (treeBuild l s).freqAt sym = s.freqAt sym := fun _ => rfl
  -- the leaf at handle i
  have hleaf : ∀ (h : Handle) (hlt : h.toNat < l.length),
      (treeBuild l s).nodeAt h = leafNode l[h.toNat] := fun h hlt =>
    nodeAt_treeBuild hne hl s (inv.leaf h.toNat hlt)
  -- the internal node at handle m
  have hget : ∀ (x : Nat), x < 2 * l.length - 1 → ∃ n, (buildArena l).1[x]? = some n ∧
      (treeBuild l s).nodeAt (BitVec.ofNat 9 x) = n := fun x hx => by
    have hx' : x < (buildArena l).1.length := by omega
    refine ⟨(buildArena l).1[x], List.getElem?_eq_getElem hx', nodeAt_treeBuild hne hl s ?_⟩
    rw [BitVec.toNat_ofNat, Nat.mod_eq_of_lt (by omega)]
    exact List.getElem?_eq_getElem hx'
  have hchild : ∀ (p h : Handle), p.toNat < 2 * l.length - 1 → l.length ≤ p.toNat →
      (((treeBuild l s).nodeAt p).left = h ∨ ((treeBuild l s).nodeAt p).right = h ↔
        isChild (buildArena l).1 p.toNat h.toNat) := by
    intro p g hp hpl
    obtain ⟨n, a, b, hn, hnl, -⟩ := inv.merged p.toNat hpl (by omega)
    rw [nodeAt_treeBuild hne hl s hn]
    constructor
    · intro hc
      exact ⟨n, hn, hnl, hc.imp (congrArg _) (congrArg _)⟩
    · rintro ⟨n', hn', -, hc⟩
      rw [hn] at hn'
      obtain rfl := Option.some.inj hn'
      exact hc.imp BitVec.eq_of_toNat_eq BitVec.eq_of_toNat_eq
  refine ⟨⟨hpos, hl⟩, treeBuild_nodeCount_toNat hne hl s, treeBuild_root_toNat hne hl s, ?_, ?_, ?_, ?_, ?_⟩
  · intro g hg
    rw [hleaf g hg]
    obtain ⟨h1, h2⟩ := h.counts l[g.toNat] (List.getElem_mem hg)
    refine ⟨rfl, rfl, rfl, ?_, ?_⟩
    · rw [hfreq]
      show (l[g.toNat].2.setWidth 40).toNat = (s.freqAt l[g.toNat].1).toNat
      rw [h1]
      have := l[g.toNat].2.isLt
      simp only [BitVec.toNat_setWidth]; omega
    · rw [hfreq]
      show s.freqAt l[g.toNat].1 ≠ 0
      rw [h1]; exact h2
  · intro g g' hg hg' he
    rw [hleaf g hg, hleaf g' hg'] at he
    have he' : (l.map Prod.fst)[g.toNat]'(by simpa using hg) = (l.map Prod.fst)[g'.toNat]'(by simpa using hg') := by
      simpa [leafNode] using he
    have := (List.Nodup.getElem_inj_iff h.distinct).mp he'
    exact BitVec.eq_of_toNat_eq this
  · intro sym hs
    rw [hfreq] at hs
    obtain ⟨e, he, rfl⟩ := h.covers sym hs
    obtain ⟨i, hi, rfl⟩ := List.getElem_of_mem he
    have hi' : (BitVec.ofNat 9 i).toNat = i := by rw [BitVec.toNat_ofNat, Nat.mod_eq_of_lt (by omega)]
    refine ⟨BitVec.ofNat 9 i, by rw [hi']; exact hi, ?_⟩
    rw [nodeAt_treeBuild hne hl s (n := leafNode l[i]) (by rw [hi']; exact inv.leaf i hi)]
    rfl
  · intro g hg hg'
    obtain ⟨n, a, b, hn, hnl, hs, e1, e2, ha, hb, hab, hw, -⟩ := inv.merged g.toNat hg (by omega)
    rw [nodeAt_treeBuild hne hl s hn]
    obtain ⟨na, hna, hna'⟩ := hget a (by omega)
    obtain ⟨nb, hnb, hnb'⟩ := hget b (by omega)
    refine ⟨hnl, hs, ?_, ?_, ?_, ?_⟩
    · rw [e1, BitVec.lt_def, BitVec.toNat_ofNat]; omega
    · rw [e2, BitVec.lt_def, BitVec.toNat_ofNat]; omega
    · rw [e1, e2, ne_eq, ← BitVec.toNat_inj, BitVec.toNat_ofNat, BitVec.toNat_ofNat]; omega
    · rw [e1, e2, hna', hnb', hw, arenaWeight_of_get hna, arenaWeight_of_get hnb]
  · intro g hg
    have hgq : g.toNat ∉ (buildArena l).2 := by rw [hq]; simp; omega
    obtain ⟨m, hm⟩ := inv.taken g.toNat (by omega) hgq
    have hml := isChild_lt hm
    have hmk : l.length ≤ m := by
      by_contra hlt
      obtain ⟨n, hn, hnl, -⟩ := hm
      rw [inv.leaf m (by omega)] at hn
      obtain rfl := Option.some.inj hn
      simp [leafNode] at hnl
    have hm' : (BitVec.ofNat 9 m).toNat = m := by rw [BitVec.toNat_ofNat, Nat.mod_eq_of_lt (by omega)]
    refine ⟨BitVec.ofNat 9 m, ⟨by omega, by omega, ?_⟩, ?_⟩
    · rw [hchild _ _ (by omega) (by omega), hm']; exact hm
    · intro p hp hp' hc
      rw [hchild p g hp' hp] at hc
      have := inv.once _ _ _ hc hm
      exact BitVec.eq_of_toNat_eq (by omega)

end Sys2Proof.Machine
end

