-- ==== Sys2Proof/Laws/Code.lean ====
section
/-! SUPPORT. Paths in a valid tree: every node has exactly one from ROOT, at most K - 1 bits long; `code_gen()` writes
exactly the paths of the leaves (rules R160, R171 to R175). -/

namespace Sys2Proof.Machine

/-! ## Paths -/

theorem nodeAt_congr {s t : State} (h : t.node = s.node) : t.nodeAt = s.nodeAt := by
  funext a; simp [State.nodeAt, h]

theorem leadsTo_congr {s t : State} (h : t.nodeAt = s.nodeAt) : leadsTo t = leadsTo s := by
  funext a p g
  induction p generalizing a with
  | nil => rfl
  | cons b rest ih => simp only [leadsTo, h, ih]

theorem isCodeOf_congr {s t : State} (h : t.nodeAt = s.nodeAt) (hr : t.root = s.root) : isCodeOf t = isCodeOf s := by
  funext p sym; simp only [isCodeOf, h, hr, leadsTo_congr h]

theorem leadsTo_append {s : State} {h g : Handle} {p q : List Bool} :
    leadsTo s h (p ++ q) g ↔ ∃ m, leadsTo s h p m ∧ leadsTo s m q g := by
  induction p generalizing h with
  | nil => simp [leadsTo]
  | cons b rest ih => simp only [List.cons_append, leadsTo, ih]; constructor <;> aesop

theorem leadsTo_det {s : State} {h g g' : Handle} {p : List Bool} (h1 : leadsTo s h p g) (h2 : leadsTo s h p g') :
    g = g' := by
  induction p generalizing h with
  | nil => exact h1.symm.trans h2
  | cons b rest ih => exact ih h1.2 h2.2

theorem leadsTo_leaf {s : State} {h g : Handle} {p : List Bool} (hl : (s.nodeAt h).isLeaf = true)
    (hp : leadsTo s h p g) : p = [] ∧ g = h := by
  cases p with
  | nil => exact ⟨rfl, hp.symm⟩
  | cons b rest => simp [leadsTo, hl] at hp

/-- An internal node of a valid tree. -/
theorem TreeShape.internal_of {s : State} {k : Nat} (ts : TreeShape s k) {h : Handle} (_hlt : h.toNat < 2 * k - 1)
    (hl : (s.nodeAt h).isLeaf = false) : k ≤ h.toNat := by
  by_contra hk
  have := (ts.leaf h (by omega)).1
  rw [hl] at this; cases this

theorem TreeShape.leaf_lt {s : State} {k : Nat} (ts : TreeShape s k) {h : Handle} (hlt : h.toNat < 2 * k - 1)
    (hl : (s.nodeAt h).isLeaf = true) : h.toNat < k := by
  by_contra hk
  have := (ts.internal h (by omega) hlt).1
  rw [hl] at this; cases this

theorem TreeShape.child_lt {s : State} {k : Nat} (ts : TreeShape s k) {h : Handle} (hlt : h.toNat < 2 * k - 1)
    (hl : (s.nodeAt h).isLeaf = false) (b : Bool) : (childOf (s.nodeAt h) b).toNat < h.toNat := by
  obtain ⟨-, -, h1, h2, -⟩ := ts.internal h (ts.internal_of hlt hl) hlt
  cases b
  · exact BitVec.lt_def.mp h1
  · exact BitVec.lt_def.mp h2

/-- A path descends, so it ends in the arena and is no longer than the internal handles it passes. -/
theorem TreeShape.path_bound {s : State} {k : Nat} (ts : TreeShape s k) {h g : Handle} {p : List Bool}
    (hlt : h.toNat < 2 * k - 1) (hp : leadsTo s h p g) :
    g.toNat ≤ h.toNat ∧ p.length ≤ h.toNat + 1 - k ∧ (p ≠ [] → g.toNat < h.toNat) := by
  induction p generalizing h with
  | nil =>
    obtain rfl : h = g := hp
    simp
  | cons b rest ih =>
    obtain ⟨hl, hr⟩ := hp
    have hk := ts.internal_of hlt hl
    have hc := ts.child_lt hlt hl b
    obtain ⟨h1, h2, -⟩ := ih (by omega) hr
    refine ⟨by omega, ?_, fun _ => by omega⟩
    simp only [List.length_cons]
    rcases Nat.lt_or_ge (childOf (s.nodeAt h) b).toNat k with hck | hck
    · have := (leadsTo_leaf (ts.leaf _ hck).1 hr).1
      subst this
      simp only [List.length_nil]; omega
    · omega

theorem TreeShape.root_lt {s : State} {k : Nat} (ts : TreeShape s k) : s.root.toNat < 2 * k - 1 := by
  have := ts.rootLast; have := ts.leaves; omega

theorem TreeShape.code_length {s : State} {k : Nat} (ts : TreeShape s k) {g : Handle} {p : List Bool}
    (hp : leadsTo s s.root p g) : p.length ≤ k - 1 := by
  have := (ts.path_bound ts.root_lt hp).2.1
  have := ts.rootLast
  have := ts.leaves
  omega

theorem childOf_eq_iff {n : Node} {h : Handle} : (∃ b, childOf n b = h) ↔ n.left = h ∨ n.right = h := by
  constructor
  · rintro ⟨b, hb⟩; cases b
    · exact .inl hb
    · exact .inr hb
  · rintro (hb | hb)
    · exact ⟨false, hb⟩
    · exact ⟨true, hb⟩

/-- Every node has a path from ROOT (R160 (b)). -/
theorem TreeShape.path_exists {s : State} {k : Nat} (ts : TreeShape s k) :
    ∀ (d : Nat) (h : Handle), h.toNat + d = 2 * k - 2 → ∃ p, leadsTo s s.root p h := by
  intro d
  induction d using Nat.strong_induction_on with
  | _ d ih =>
    intro h hd
    by_cases hd0 : d = 0
    · refine ⟨[], BitVec.eq_of_toNat_eq ?_⟩
      have := ts.rootLast; omega
    · obtain ⟨p, ⟨hpk, hpl, hc⟩, -⟩ := ts.parent h (by omega)
      have hint := ts.internal p hpk hpl
      obtain ⟨b, hb⟩ := childOf_eq_iff.mpr hc
      have hlt := ts.child_lt hpl hint.1 b
      rw [hb] at hlt
      obtain ⟨q, hq⟩ := ih (2 * k - 2 - p.toNat) (by omega) p (by omega)
      exact ⟨q ++ [b], leadsTo_append.mpr ⟨p, hq, hint.1, hb⟩⟩

/-- No node has two paths from ROOT (R160 (b)). -/
theorem TreeShape.path_unique {s : State} {k : Nat} (ts : TreeShape s k) {p q : List Bool} {h : Handle}
    (hp : leadsTo s s.root p h) (hq : leadsTo s s.root q h) : p = q := by
  induction p using List.reverseRecOn generalizing q h with
  | nil =>
    by_contra hne
    have := (ts.path_bound ts.root_lt hq).2.2 (Ne.symm hne)
    obtain rfl : s.root = h := hp
    omega
  | append_singleton p b ih =>
    rcases List.eq_nil_or_concat q with rfl | ⟨q, c, rfl⟩
    · have := (ts.path_bound ts.root_lt hp).2.2 (by simp)
      obtain rfl : s.root = h := hq
      omega
    · rw [List.concat_eq_append] at hq ⊢
      obtain ⟨m, hm, hml, hmc⟩ := leadsTo_append.mp hp
      obtain ⟨m', hm', hml', hmc'⟩ := leadsTo_append.mp hq
      have hmlt : m.toNat < 2 * k - 1 := by have := (ts.path_bound ts.root_lt hm).1; have := ts.root_lt; omega
      have hmlt' : m'.toNat < 2 * k - 1 := by have := (ts.path_bound ts.root_lt hm').1; have := ts.root_lt; omega
      have hlt := ts.child_lt hmlt hml b
      obtain rfl : childOf (s.nodeAt m) b = h := hmc
      obtain ⟨r, -, hr⟩ := ts.parent (childOf (s.nodeAt m) b) (by omega)
      have e1 := hr m (ts.internal_of hmlt hml) hmlt (childOf_eq_iff.mp ⟨b, rfl⟩)
      have e2 := hr m' (ts.internal_of hmlt' hml') hmlt' (childOf_eq_iff.mp ⟨c, hmc'⟩)
      obtain rfl : m = m' := e1.trans e2.symm
      obtain rfl := ih hm hm'
      have hne := (ts.internal m (ts.internal_of hmlt hml) hmlt).2.2.2.2.1
      have : b = c := by
        cases b <;> cases c <;> first | rfl | exact absurd hmc' (Ne.symm hne) | exact absurd hmc' hne
      rw [this]

/-! ## The walk of `code_gen()` -/

theorem codeValue_append (p : List Bool) (b : Bool) : codeValue (p ++ [b]) = 2 * codeValue p + b.toNat := by
  simp [codeValue]

theorem codeValue_cons (b : Bool) (p : List Bool) : codeValue (b :: p) = b.toNat * 2 ^ p.length + codeValue p := by
  induction p using List.reverseRecOn with
  | nil => simp [codeValue]
  | append_singleton p c ih =>
    rw [← List.cons_append, codeValue_append, ih, codeValue_append, List.length_append]
    simp only [List.length_cons, List.length_nil, Nat.pow_succ]
    ring

theorem codeValue_lt (p : List Bool) : codeValue p < 2 ^ p.length := by
  induction p with
  | nil => simp [codeValue]
  | cons b rest ih =>
    rw [codeValue_cons, List.length_cons, Nat.pow_succ]
    cases b <;> simp only [Bool.toNat_false, Bool.toNat_true] <;> omega

/-- The two entries of `sym` in a code table. -/
def Codes.entry (c : Codes) (sym : Byte) : BitVec 8 × CodeBits := (c.len[sym.toNat], c.val[sym.toNat])

theorem entry_setCode_same (sym : Byte) (len val : Nat) (c : Codes) :
    (setCode sym len val c).entry sym = (BitVec.ofNat 8 len, BitVec.ofNat 255 val) := by
  simp [setCode, Codes.entry]

theorem entry_setCode_other {sym sym' : Byte} (h : sym' ≠ sym) (len val : Nat) (c : Codes) :
    (setCode sym len val c).entry sym' = c.entry sym' := by
  have : sym.toNat ≠ sym'.toNat := fun he => h (BitVec.eq_of_toNat_eq he.symm)
  simp [setCode, Codes.entry, Vector.getElem_set_ne, this]

/-- What the walk below a node does to the entry of one symbol: it holds a path to a leaf with that symbol, or there is
none and the entry is as before. -/
theorem codeWalk_entry {s : State} {k : Nat} (ts : TreeShape s k) (sym : Byte) :
    ∀ (fuel : Nat) (h : Handle) (len val : Nat) (c : Codes), h.toNat < 2 * k - 1 → h.toNat + 1 - k < fuel →
      (∃ p g, leadsTo s h p g ∧ (s.nodeAt g).isLeaf = true ∧ (s.nodeAt g).sym = sym ∧
        (codeWalk s.nodeAt fuel h len val c).entry sym =
          (BitVec.ofNat 8 (len + p.length), BitVec.ofNat 255 (val * 2 ^ p.length + codeValue p))) ∨
      ((∀ p g, leadsTo s h p g → (s.nodeAt g).isLeaf = true → (s.nodeAt g).sym ≠ sym) ∧
        (codeWalk s.nodeAt fuel h len val c).entry sym = c.entry sym) := by
  intro fuel
  induction fuel with
  | zero => intro h len val c _ hf; omega
  | succ fuel ih =>
    intro h len val c hlt hf
    simp only [codeWalk]
    split
    · rename_i hl
      by_cases hs : (s.nodeAt h).sym = sym
      · subst hs
        exact .inl ⟨[], h, rfl, hl, rfl, by simp [entry_setCode_same, codeValue]⟩
      · refine .inr ⟨fun p g hp _ => ?_, entry_setCode_other (Ne.symm hs) _ _ _⟩
        obtain ⟨-, rfl⟩ := leadsTo_leaf hl hp
        exact hs
    · rename_i hl
      have hl : (s.nodeAt h).isLeaf = false := by simpa using hl
      have hk := ts.internal_of hlt hl
      have hr := ts.child_lt hlt hl true
      have hlft := ts.child_lt hlt hl false
      simp only [childOf, if_true, Bool.false_eq_true, if_false] at hr hlft
      have arith : ∀ (b : Bool) (q : List Bool), len + 1 + q.length = len + (b :: q).length ∧
          (2 * val + b.toNat) * 2 ^ q.length + codeValue q = val * 2 ^ (b :: q).length + codeValue (b :: q) := by
        intro b q
        rw [codeValue_cons, List.length_cons, Nat.pow_succ]
        exact ⟨by omega, by ring⟩
      rcases ih (s.nodeAt h).right (len + 1) (2 * val + 1)
          (codeWalk s.nodeAt fuel (s.nodeAt h).left (len + 1) (2 * val) c) (by omega) (by omega) with
        ⟨p, g, hp, hg, hs, he⟩ | ⟨hno, he⟩
      · refine .inl ⟨true :: p, g, ⟨hl, hp⟩, hg, hs, ?_⟩
        rw [he, ← (arith true p).1, ← (arith true p).2]; rfl
      · rcases ih (s.nodeAt h).left (len + 1) (2 * val) c (by omega) (by omega) with
          ⟨p, g, hp, hg, hs, he'⟩ | ⟨hno', he'⟩
        · refine .inl ⟨false :: p, g, ⟨hl, hp⟩, hg, hs, ?_⟩
          rw [he, he', ← (arith false p).1, ← (arith false p).2]; rfl
        · refine .inr ⟨fun p g hp hg => ?_, by rw [he, he']⟩
          cases p with
          | nil =>
            obtain rfl : h = g := hp
            rw [hl] at hg; cases hg
          | cons b rest =>
            cases b
            · exact hno' rest g hp.2 hg
            · exact hno rest g hp.2 hg

/-- `code_gen()` on a valid tree writes the code table of the tree (R174). -/
theorem codeGen_entryOk {s : State} {k : Nat} (ts : TreeShape s k) (sym : Byte) : codeEntryOk (codeGen s) sym := by
  have hn : (codeGen s).nodeAt = s.nodeAt := nodeAt_congr rfl
  have hc : isCodeOf (codeGen s) = isCodeOf s := isCodeOf_congr hn rfl
  have hk := ts.leaves
  have hnone : noCodes.entry sym = (0, 0) := by simp [noCodes, Codes.entry]
  have hentry : ((codeGen s).codeLenAt sym, (codeGen s).codeValAt sym) = (treeCodes s.nodeAt s.root).entry sym := rfl
  have split2 : ∀ {a b : BitVec 8} {x y : CodeBits}, (a, x) = (b, y) → a = b ∧ x = y := fun h => by simpa using h
  unfold codeEntryOk
  rw [hc]
  unfold treeCodes at hentry
  split at hentry
  · rename_i hl
    by_cases hs : (s.nodeAt s.root).sym = sym
    · left
      refine ⟨[false], by simp [isCodeOf, hl, hs], ?_⟩
      subst hs
      rw [entry_setCode_same] at hentry
      obtain ⟨h1, h2⟩ := split2 hentry
      simp [h1, h2, codeValue]
    · right
      rw [entry_setCode_other (Ne.symm hs), hnone] at hentry
      obtain ⟨h1, h2⟩ := split2 hentry
      exact ⟨fun p hp => by simp [isCodeOf, hl, hs] at hp, h1, h2⟩
  · rename_i hl
    rcases codeWalk_entry ts sym 256 s.root 0 0 noCodes ts.root_lt (by have := ts.rootLast; omega) with
      ⟨p, g, hp, hg, hs, he⟩ | ⟨hno, he⟩
    · left
      refine ⟨p, by simpa [isCodeOf, hl] using ⟨g, hp, hg, hs⟩, ?_⟩
      rw [he] at hentry
      obtain ⟨h1, h2⟩ := split2 hentry
      have hlen := ts.code_length hp
      have hval : codeValue p < 2 ^ 255 :=
        Nat.lt_of_lt_of_le (codeValue_lt p) (Nat.pow_le_pow_right (by omega) (by omega))
      rw [h1, h2]
      simp only [BitVec.toNat_ofNat, Nat.zero_add, Nat.zero_mul]
      exact ⟨Nat.mod_eq_of_lt (by omega), Nat.mod_eq_of_lt hval⟩
    · right
      rw [he, hnone] at hentry
      obtain ⟨h1, h2⟩ := split2 hentry
      refine ⟨fun p hp => ?_, h1, h2⟩
      obtain ⟨g, hp, hg, hs⟩ : ∃ g, leadsTo s s.root p g ∧ (s.nodeAt g).isLeaf = true ∧ (s.nodeAt g).sym = sym := by
        simpa [isCodeOf, hl] using hp
      exact hno p g hp hg hs

/-! ## The set of codes -/

/-- A symbol has at most one code (R170). -/
theorem TreeShape.code_unique {s : State} {k : Nat} (ts : TreeShape s k) {p q : List Bool} {sym : Byte}
    (hp : isCodeOf s p sym) (hq : isCodeOf s q sym) : p = q := by
  unfold isCodeOf at hp hq
  split at hp
  · rename_i hl
    rw [if_pos hl] at hq
    rw [hp.1, hq.1]
  · rename_i hl
    rw [if_neg hl] at hq
    obtain ⟨g, hg, hgl, hgs⟩ := hp
    obtain ⟨g', hg', hgl', hgs'⟩ := hq
    have hlt : g.toNat < 2 * k - 1 := by have := (ts.path_bound ts.root_lt hg).1; have := ts.root_lt; omega
    have hlt' : g'.toNat < 2 * k - 1 := by have := (ts.path_bound ts.root_lt hg').1; have := ts.root_lt; omega
    obtain rfl := ts.distinct g g' (ts.leaf_lt hlt hgl) (ts.leaf_lt hlt' hgl') (hgs.trans hgs'.symm)
    exact ts.path_unique hg hg'

/-- Every present symbol has a code, and only those (R175 (a)). -/
theorem TreeShape.code_exists_iff {s : State} {k : Nat} (ts : TreeShape s k) (sym : Byte) :
    (∃ p, isCodeOf s p sym) ↔ s.freqAt sym ≠ 0 := by
  have hk := ts.leaves
  constructor
  · rintro ⟨p, hp⟩
    unfold isCodeOf at hp
    split at hp
    · rename_i hl
      have := (ts.leaf s.root (ts.leaf_lt ts.root_lt hl)).2.2.2.2
      rwa [hp.2] at this
    · obtain ⟨g, hg, hgl, hgs⟩ := hp
      have hlt : g.toNat < 2 * k - 1 := by have := (ts.path_bound ts.root_lt hg).1; have := ts.root_lt; omega
      have := (ts.leaf g (ts.leaf_lt hlt hgl)).2.2.2.2
      rwa [hgs] at this
  · intro hs
    obtain ⟨g, hg, rfl⟩ := ts.covers sym hs
    obtain ⟨p, hp⟩ := ts.path_exists (2 * k - 2 - g.toNat) g (by omega)
    unfold isCodeOf
    split
    · rename_i hl
      obtain ⟨-, rfl⟩ := leadsTo_leaf hl hp
      exact ⟨[false], rfl, rfl⟩
    · exact ⟨p, g, hp, (ts.leaf g hg).1, rfl⟩

theorem TreeShape.code_length_bounds {s : State} {k : Nat} (ts : TreeShape s k) {p : List Bool} {sym : Byte}
    (hp : isCodeOf s p sym) : 1 ≤ p.length ∧ p.length ≤ 255 := by
  have hk := ts.leaves
  unfold isCodeOf at hp
  split at hp
  · rw [hp.1]; simp
  · rename_i hl
    obtain ⟨g, hg, hgl, -⟩ := hp
    have := ts.code_length hg
    refine ⟨?_, by omega⟩
    cases p with
    | nil =>
      obtain rfl : s.root = g := hg
      exact absurd hgl hl
    | cons b rest => simp

end Sys2Proof.Machine
end

