-- ==== Sys2Proof/Laws/Stream.lean ====
section
/-! SUPPORT. The bit writer and the bit reader as lists of bits (rules R78, R185, R186, R188, R193, R194). -/

namespace Sys2Proof.Machine

theorem ceilDiv8_mono {a b : Nat} (h : a ≤ b) : ceilDiv8 a ≤ ceilDiv8 b := by unfold ceilDiv8; omega

/-! ## The writer -/

/-- `t` differs from `s` in BW_TOTAL, BW_ACC and OUT only. -/
def onlyWriter (s t : State) : Prop :=
  t = { s with bwTotal := t.bwTotal, bwAcc := t.bwAcc, outBuf := t.outBuf }

theorem onlyWriter_refl (s : State) : onlyWriter s s := rfl

theorem onlyWriter_trans {s t u : State} (h : onlyWriter s t) (h' : onlyWriter t u) : onlyWriter s u := by
  unfold onlyWriter at *; rw [h'] ; rw [h]

theorem onlyWriter_pushBit (b : Bool) (s : State) : onlyWriter s (pushBit b s) := by
  unfold onlyWriter pushBit; split <;> rfl

theorem getLsbD_nextAcc (b : Bool) (s : State) {i : Nat} (hi : i < 8) :
    (nextAcc b s).getLsbD i = (s.bwAcc.getLsbD i || (decide (i = streamBit s.bwTotal.toNat) && b)) := by
  have hb : streamBit s.bwTotal.toNat < 8 := by unfold streamBit; omega
  simp only [nextAcc, BitVec.getLsbD_or, BitVec.getLsbD_shiftLeft, BitVec.getLsbD_setWidth, BitVec.getLsbD_ofBool]
  congr 1
  by_cases h : i = streamBit s.bwTotal.toNat
  · subst h; simp [hi]
  · rcases Nat.lt_or_ge i (streamBit s.bwTotal.toNat) with hlt | hge
    · simp [h, hlt]
    · have : i - streamBit s.bwTotal.toNat ≠ 0 := by omega
      simp [h, this]

/-- The next total, where the stream's next byte lies in OUT. -/
theorem bwTotal_succ {s : State} (h : s.bwOrg.toNat + ceilDiv8 (s.bwTotal.toNat + 1) ≤ s.params.outCap) :
    (s.bwTotal + 1).toNat = s.bwTotal.toNat + 1 := by
  have := s.params.bounded.2.2
  unfold ceilDiv8 at h
  rw [BitVec.toNat_add, show (1 : Word).toNat = 1 from rfl]
  omega

/-- One bit more (R185). -/
theorem pushBit_spec {s : State} (b : Bool) (hw : ∀ i, i + partialBits s < 8 → s.bwAcc.getLsbD i = false)
    (hf : s.bwOrg.toNat + ceilDiv8 (s.bwTotal.toNat + 1) ≤ s.params.outCap) :
    WriterOk (pushBit b s) ∧ (pushBit b s).bwTotal.toNat = s.bwTotal.toNat + 1 ∧
      (∀ k < s.bwTotal.toNat, writtenBit (pushBit b s) k = writtenBit s k) ∧
      writtenBit (pushBit b s) s.bwTotal.toNat = b ∧
      (∀ a, a ≠ writerAddr s → (pushBit b s).outAt a = s.outAt a) := by
  have hsucc := bwTotal_succ hf
  have htot : (pushBit b s).bwTotal.toNat = s.bwTotal.toNat + 1 := by rw [pushBit_bwTotal, hsucc]
  have hpb : partialBits (pushBit b s) = (s.bwTotal.toNat + 1) % 8 := by rw [partialBits, htot]
  have hacc : ∀ i, i < 8 → partialBits s ≠ 7 → (pushBit b s).bwAcc.getLsbD i =
      (s.bwAcc.getLsbD i || (decide (i = streamBit s.bwTotal.toNat) && b)) := by
    intro i hi hne
    rw [← getLsbD_nextAcc b s hi, pushBit, if_neg hne]
  have hacc7 : partialBits s = 7 → (pushBit b s).bwAcc = 0 := by
    intro h; rw [pushBit, if_pos h]
  have hout7 : partialBits s = 7 → (pushBit b s).outAt (writerAddr s) = nextAcc b s := by
    intro h; rw [pushBit, if_pos h]; exact outAt_putOut_same _ _ _
  have hout : ∀ a, a ≠ writerAddr s → (pushBit b s).outAt a = s.outAt a := by
    intro a ha
    unfold pushBit; split
    · exact outAt_putOut_other ha _ _
    · rfl
  have hout' : partialBits s ≠ 7 → (pushBit b s).outAt = s.outAt := by
    intro h; rw [pushBit, if_neg h]; rfl
  refine ⟨⟨?_, ?_⟩, htot, ?_, ?_, hout⟩
  · simp only [pushBit_bwOrg, pushBit_params, htot]; exact hf
  · intro i hi
    rw [hpb] at hi
    by_cases h7 : partialBits s = 7
    · rw [hacc7 h7]; simp
    · have hk : partialBits s = s.bwTotal.toNat % 8 := rfl
      rw [hacc i (by omega) h7, hw i (by omega)]
      have : i ≠ streamBit s.bwTotal.toNat := by unfold streamBit; omega
      simp [this]
  · intro k hk
    unfold writtenBit outStreamBit
    rw [htot, pushBit_bwOrg]
    have hp : partialBits s = s.bwTotal.toNat % 8 := rfl
    by_cases h7 : partialBits s = 7
    · by_cases hkb : k / 8 < s.bwTotal.toNat / 8
      · rw [if_pos (by omega), if_pos hkb, hout]
        unfold writerAddr streamByte; omega
      · have hke : k / 8 = s.bwTotal.toNat / 8 := by omega
        rw [if_pos (by omega), if_neg hkb]
        have : streamByte s.bwOrg.toNat k = writerAddr s := by unfold writerAddr streamByte; omega
        rw [this, hout7 h7, getLsbD_nextAcc b s (by unfold streamBit; omega)]
        have : streamBit k ≠ streamBit s.bwTotal.toNat := by unfold streamBit; omega
        simp [this]
    · have e : (s.bwTotal.toNat + 1) / 8 = s.bwTotal.toNat / 8 := by omega
      rw [e, hout' h7]
      split
      · rfl
      · rw [hacc _ (by unfold streamBit; omega) h7]
        have : streamBit k ≠ streamBit s.bwTotal.toNat := by unfold streamBit; omega
        simp [this]
  · unfold writtenBit outStreamBit
    rw [htot, pushBit_bwOrg]
    have hp : partialBits s = s.bwTotal.toNat % 8 := rfl
    have hzero : s.bwAcc.getLsbD (streamBit s.bwTotal.toNat) = false := hw _ (by unfold streamBit; omega)
    by_cases h7 : partialBits s = 7
    · rw [if_pos (by omega)]
      show ((pushBit b s).outAt (writerAddr s)).getLsbD _ = b
      rw [hout7 h7, getLsbD_nextAcc b s (by unfold streamBit; omega), hzero]
      simp
    · rw [if_neg (by omega), hacc _ (by unfold streamBit; omega) h7, hzero]
      simp

theorem pushBit_wf {s : State} (b : Bool) (h : s.outBuf.wf) : (pushBit b s).outBuf.wf := by
  unfold pushBit; split
  · exact Memory.wf_write h _ _
  · exact h

theorem pushBit_below {s : State} (b : Bool) {cap : Nat} (h : s.outBuf.below cap) (ha : writerAddr s < cap) :
    (pushBit b s).outBuf.below cap := by
  unfold pushBit; split
  · exact Memory.below_write h ha _
  · exact h

theorem bwWriteBits_nil (s : State) : bwWriteBits [] s = .ok s := rfl

theorem bwWriteBits_cons (b : Bool) (bs : List Bool) (s : State) :
    bwWriteBits (b :: bs) s = (bwWriteBit b s >>= bwWriteBits bs) := rfl

theorem bwWriteBits_append (bs cs : List Bool) (s : State) :
    bwWriteBits (bs ++ cs) s = (bwWriteBits bs s >>= bwWriteBits cs) := by
  simp [bwWriteBits, List.foldlM_append]; rfl

/-- Everything `bwWriteBits` does where the bits fit (R185): the state after, the bits of the stream, the bytes of OUT. -/
structure Wrote (s t : State) (bs : List Bool) : Prop where
  only : onlyWriter s t
  ok : WriterOk t
  total : t.bwTotal.toNat = s.bwTotal.toNat + bs.length
  old : ∀ k < s.bwTotal.toNat, writtenBit t k = writtenBit s k
  new : ∀ i (h : i < bs.length), writtenBit t (s.bwTotal.toNat + i) = bs[i]
  before : ∀ a, a < writerAddr s → t.outAt a = s.outAt a
  after : ∀ a, streamByte s.bwOrg.toNat t.bwTotal.toNat ≤ a → t.outAt a = s.outAt a
  wf : s.outBuf.wf → t.outBuf.wf
  below : s.outBuf.below s.params.outCap → t.outBuf.below s.params.outCap

theorem bwWriteBits_spec {bs : List Bool} {s : State} (hw : WriterOk s)
    (hf : s.bwOrg.toNat + ceilDiv8 (s.bwTotal.toNat + bs.length) ≤ s.params.outCap) :
    ∃ t, bwWriteBits bs s = .ok t ∧ Wrote s t bs := by
  induction bs generalizing s with
  | nil => exact ⟨s, rfl, rfl, hw, rfl, fun _ _ => rfl, fun i h => by simp at h, fun _ _ => rfl, fun _ _ => rfl, id, id⟩
  | cons b rest ih =>
    simp only [List.length_cons] at hf
    have hf1 : s.bwOrg.toNat + ceilDiv8 (s.bwTotal.toNat + 1) ≤ s.params.outCap :=
      Nat.le_trans (Nat.add_le_add_left (ceilDiv8_mono (by omega)) _) hf
    have haddr : writerAddr s < s.params.outCap := by
      unfold writerAddr streamByte; unfold ceilDiv8 at hf1; omega
    obtain ⟨h1, h2, h3, h4, h5⟩ := pushBit_spec b hw.clear hf1
    obtain ⟨t, ht, w⟩ := ih (s := pushBit b s) h1 (by
      rw [h2, pushBit_bwOrg, pushBit_params, show s.bwTotal.toNat + 1 + rest.length = s.bwTotal.toNat + (rest.length + 1)
        by omega]
      exact hf)
    have hstep : bwWriteBit b s = .ok (pushBit b s) := by
      simp [bwWriteBit, require_bind_pos (show partialBits s = 0 → writerAddr s < s.params.outCap from fun _ => haddr)]
      rfl
    refine ⟨t, by rw [bwWriteBits_cons, hstep]; exact ht, ?_⟩
    have hta : t.bwTotal.toNat = s.bwTotal.toNat + (rest.length + 1) := by rw [w.total, h2]; omega
    have hwa : writerAddr s ≤ writerAddr (pushBit b s) := by
      unfold writerAddr streamByte; rw [h2, pushBit_bwOrg]; omega
    refine ⟨onlyWriter_trans (onlyWriter_pushBit b s) w.only, w.ok, hta, ?_, ?_, ?_, ?_, ?_, ?_⟩
    · intro k hk; rw [w.old k (by omega), h3 k hk]
    · intro i hi
      cases i with
      | zero => rw [Nat.add_zero, w.old _ (by omega), h4]; rfl
      | succ j =>
        have := w.new j (by simpa using hi)
        rw [h2] at this
        rw [show s.bwTotal.toNat + (j + 1) = s.bwTotal.toNat + 1 + j by omega, this]; rfl
    · intro a ha
      rw [w.before a (by omega), h5 a (by omega)]
    · intro a ha
      rw [w.after a (by simpa using ha)]
      by_cases h7 : partialBits s = 7
      · refine h5 a ?_
        have hp : partialBits s = s.bwTotal.toNat % 8 := rfl
        unfold streamByte at ha; unfold writerAddr streamByte; omega
      · have : (pushBit b s).outAt = s.outAt := by rw [pushBit, if_neg h7]; rfl
        rw [this]
    · exact fun h => w.wf (pushBit_wf b h)
    · exact fun h => by
        have := w.below (by rw [pushBit_params]; exact pushBit_below b h haddr)
        rwa [pushBit_params] at this

/-- Where the bits do not fit, the first bit that would open a byte beyond OUT_CAP raises (R183, R185). -/
theorem bwWriteBits_over {bs : List Bool} {s : State} (hw : WriterOk s)
    (hf : s.params.outCap < s.bwOrg.toNat + ceilDiv8 (s.bwTotal.toNat + bs.length)) :
    bwWriteBits bs s = .error (.capacity .outOver) := by
  induction bs generalizing s with
  | nil => have := hw.fits; simp only [List.length_nil, Nat.add_zero] at hf; omega
  | cons b rest ih =>
    simp only [List.length_cons] at hf
    rw [bwWriteBits_cons]
    by_cases hf1 : s.bwOrg.toNat + ceilDiv8 (s.bwTotal.toNat + 1) ≤ s.params.outCap
    · have haddr : writerAddr s < s.params.outCap := by
        unfold writerAddr streamByte; unfold ceilDiv8 at hf1; omega
      obtain ⟨h1, h2, -⟩ := pushBit_spec b hw.clear hf1
      have hstep : bwWriteBit b s = .ok (pushBit b s) := by
        simp [bwWriteBit, require_bind_pos (show partialBits s = 0 → writerAddr s < s.params.outCap from fun _ => haddr)]
        rfl
      rw [hstep]
      refine ih (s := pushBit b s) h1 ?_
      rw [h2, pushBit_bwOrg, pushBit_params, show s.bwTotal.toNat + 1 + rest.length = s.bwTotal.toNat + (rest.length + 1)
        by omega]
      exact hf
    · have hfits := hw.fits
      have hp : partialBits s = s.bwTotal.toNat % 8 := rfl
      have hneg : ¬ (partialBits s = 0 → writerAddr s < s.params.outCap) := by
        unfold ceilDiv8 at hf1 hfits
        unfold writerAddr streamByte
        intro himp
        rcases Nat.eq_zero_or_pos (partialBits s) with h0 | h0
        · have := himp h0; omega
        · omega
      rw [bwWriteBit, require_bind_neg hneg]; rfl

/-! ## `bw_finish()` -/

theorem onlyWriter_congr {s t : State} (h : onlyWriter s t) :
    t.node = s.node ∧ t.root = s.root ∧ t.codeLen = s.codeLen ∧ t.codeVal = s.codeVal ∧ t.params = s.params ∧
      t.bwOrg = s.bwOrg ∧ t.inBuf = s.inBuf := by
  rw [onlyWriter] at h; rw [h]; simp

/-- The bits of the finished stream: those written, then zeros to the end of the byte (R188). -/
theorem outStreamBit_bwFinish {s : State} (hw : WriterOk s) (k : Nat) (hk : k < 8 * ceilDiv8 s.bwTotal.toNat) :
    outStreamBit (bwFinish s) s.bwOrg.toNat k = if k < s.bwTotal.toNat then writtenBit s k else false := by
  have hp : partialBits s = s.bwTotal.toNat % 8 := rfl
  unfold ceilDiv8 at hk
  unfold outStreamBit writtenBit
  by_cases h0 : partialBits s = 0
  · have : (bwFinish s).outAt = s.outAt := by rw [bwFinish, if_neg (by omega)]; rfl
    rw [this, if_pos (by omega), if_pos (by omega)]; rfl
  · have hout : (bwFinish s).outBuf = (putOut (writerAddr s) s.bwAcc s).outBuf := by rw [bwFinish, if_pos h0]
    rw [outAt_congr hout]
    by_cases hkb : k / 8 < s.bwTotal.toNat / 8
    · rw [if_pos (by omega), if_pos hkb, outAt_putOut_other (by unfold writerAddr streamByte; omega)]; rfl
    · have : streamByte s.bwOrg.toNat k = writerAddr s := by unfold writerAddr streamByte; omega
      rw [this, outAt_putOut_same, if_neg hkb]
      split
      · rfl
      · exact hw.clear _ (by unfold streamBit; omega)

theorem outAt_bwFinish_other {s : State} {a : Nat} (h : partialBits s ≠ 0 → a ≠ writerAddr s) :
    (bwFinish s).outAt a = s.outAt a := by
  unfold bwFinish; split
  · rename_i hp; exact outAt_putOut_other (h hp) _ _
  · rfl

theorem bwFinish_wf {s : State} (h : s.outBuf.wf) : (bwFinish s).outBuf.wf := by
  unfold bwFinish; split
  · exact Memory.wf_write h _ _
  · exact h

theorem bwFinish_below {s : State} (hw : WriterOk s) (h : s.outBuf.below s.params.outCap) :
    (bwFinish s).outBuf.below s.params.outCap := by
  have hfits := hw.fits
  unfold bwFinish; split
  · rename_i hp
    refine Memory.below_write h ?_ _
    have hp' : partialBits s = s.bwTotal.toNat % 8 := rfl
    unfold writerAddr streamByte; unfold ceilDiv8 at hfits; omega
  · exact h

/-! ## The reader -/

theorem brReadBit_ok {s : State} (h : s.brPos.toNat < s.brLim.toNat) :
    brReadBit s = .ok (inStreamBit s s.brOrg.toNat s.brPos.toNat, (skipBit s)) := by
  rw [brReadBit, require_bind_pos (BitVec.lt_def.mpr h)]; rfl

theorem brReadBit_end {s : State} (h : s.brLim.toNat ≤ s.brPos.toNat) : brReadBit s = .error .endOfStream := by
  rw [brReadBit, require_bind_neg (by rw [BitVec.lt_def]; omega)]

theorem brPos_succ {s : State} (h : s.brPos.toNat < s.brLim.toNat) : (s.brPos + 1).toNat = s.brPos.toNat + 1 := by
  have := s.brLim.isLt
  rw [BitVec.toNat_add, show (1 : Word).toNat = 1 from rfl]; omega

/-- The state after `n` bits are read. -/
def readBits (n : Nat) (s : State) : State := { s with brPos := BitVec.ofNat 32 (s.brPos.toNat + n) }

theorem readBits_zero (s : State) : readBits 0 s = s := by simp [readBits]

theorem readBits_succ {s : State} (h : s.brPos.toNat < s.brLim.toNat) (n : Nat) :
    readBits n (skipBit s) = readBits (n + 1) s := by
  simp only [readBits, skipBit, brPos_succ h, Nat.add_assoc, Nat.add_comm 1 n]

theorem readBits_brPos {s : State} {n : Nat} (h : s.brPos.toNat + n ≤ s.brLim.toNat) :
    (readBits n s).brPos.toNat = s.brPos.toNat + n := by
  have := s.brLim.isLt
  simp only [readBits, BitVec.toNat_ofNat]; omega

/-- The stream holds the bits `p` from bit `pos` on. -/
def streamHas (s : State) (p : List Bool) : Prop :=
  ∀ i (h : i < p.length), inStreamBit s s.brOrg.toNat (s.brPos.toNat + i) = p[i]

theorem streamHas_cons {s : State} {b : Bool} {p : List Bool} (hl : s.brPos.toNat < s.brLim.toNat) :
    streamHas s (b :: p) ↔
      inStreamBit s s.brOrg.toNat s.brPos.toNat = b ∧ streamHas (skipBit s) p := by
  constructor
  · intro h
    refine ⟨h 0 (by simp), fun i hi => ?_⟩
    have := h (i + 1) (by simpa using hi)
    simp only [skipBit_brPos, skipBit_brOrg, brPos_succ hl]
    rw [show s.brPos.toNat + 1 + i = s.brPos.toNat + (i + 1) by omega]
    exact this
  · rintro ⟨h0, h⟩ i hi
    cases i with
    | zero => exact h0
    | succ j =>
      have := h j (by simpa using hi)
      simp only [skipBit_brPos, skipBit_brOrg, brPos_succ hl] at this
      rw [show s.brPos.toNat + (j + 1) = s.brPos.toNat + 1 + j by omega]
      exact this

/-- The walk follows the stream's bits to the leaf they lead to (R194). -/
theorem walkFrom_path {p : List Bool} {left : Nat} {cur g : Handle} {n : Nat} {s : State}
    (hp : leadsTo s cur p g) (hg : (s.nodeAt g).isLeaf = true) (hs : streamHas s p)
    (hfit : s.brPos.toNat + p.length ≤ s.brLim.toNat) (hleft : s.brLim.toNat - s.brPos.toNat = left) :
    walkFrom left cur n s = .ok ((s.nodeAt g).sym, n + p.length, readBits p.length s) := by
  induction p generalizing left cur n s with
  | nil =>
    obtain rfl : cur = g := hp
    cases left <;> simp [walkFrom, hg, readBits_zero]
  | cons b rest ih =>
    obtain ⟨hl, hr⟩ := hp
    simp only [List.length_cons] at hfit
    have hlt : s.brPos.toNat < s.brLim.toNat := by omega
    obtain ⟨left, rfl⟩ : ∃ m, left = m + 1 := ⟨left - 1, by omega⟩
    obtain ⟨hb, hs'⟩ := (streamHas_cons hlt).mp hs
    have ih' := ih (s := (skipBit s)) (left := left) (cur := childOf (s.nodeAt cur) b)
      (n := n + 1) (by rw [leadsTo_congr (s := s) (t := skipBit s) rfl]; exact hr) hg hs' (by simp only [skipBit_brPos, skipBit_brLim, brPos_succ hlt]; omega) (by simp only [skipBit_brPos, skipBit_brLim, brPos_succ hlt]; omega)
    rw [walkFrom, if_neg (by simp [hl]), brReadBit_ok hlt, hb]
    refine Eq.trans ?_ (ih'.trans ?_)
    · rfl
    · rw [readBits_succ hlt, List.length_cons, show n + 1 + rest.length = n + (rest.length + 1) by omega]; rfl

/-- Where the bits of the stream start with the code of a symbol, `walk_symbol()` returns it and its length (R194). -/
theorem walkSymbol_code {p : List Bool} {sym : Byte} {s : State} (hc : isCodeOf s p sym) (hs : streamHas s p)
    (hfit : s.brPos.toNat + p.length ≤ s.brLim.toNat) :
    walkSymbol s = .ok (sym, p.length, readBits p.length s) := by
  unfold isCodeOf at hc
  unfold walkSymbol
  split at hc
  · rename_i hl
    obtain ⟨rfl, rfl⟩ := hc
    simp only [List.length_cons, List.length_nil] at hfit
    have hlt : s.brPos.toNat < s.brLim.toNat := by omega
    obtain ⟨hb, -⟩ := (streamHas_cons hlt).mp hs
    rw [if_pos hl, brReadBit_ok hlt, hb]
    rw [ok_bind]
    dsimp only
    rw [require_bind_pos rfl, ← readBits_zero (skipBit s), readBits_succ hlt]; rfl
  · rename_i hl
    obtain ⟨g, hg, hgl, rfl⟩ := hc
    rw [if_neg hl]
    have := walkFrom_path (n := 0) hg hgl hs hfit rfl
    simpa using this

end Sys2Proof.Machine
end

