-- ==== Sys2Proof/Laws/Container.lean ====
section
/-! SUPPORT. The pieces of COMPRESS and DECOMPRESS: the code table as bits, the payload as one list of bits, the header
as bytes, and the decode loop over a payload (rules R110, R116, R186, R213, R215, R233, R243). -/

namespace Sys2Proof.Machine

/-! ## The code table as bit sequences -/

theorem testBit_codeValue (p : List Bool) {i : Nat} (h : i < p.length) :
    (codeValue p).testBit (p.length - 1 - i) = p[i] := by
  induction p generalizing i with
  | nil => simp at h
  | cons b rest ih =>
    rw [codeValue_cons, Nat.mul_comm, Nat.testBit_two_pow_mul_add _ (codeValue_lt rest)]
    simp only [List.length_cons] at h ⊢
    cases i with
    | zero =>
      rw [if_neg (by omega)]
      cases b <;> simp
    | succ j =>
      rw [if_pos (by omega)]
      have := ih (i := j) (by omega)
      rw [show rest.length + 1 - 1 - (j + 1) = rest.length - 1 - j by omega, this]; rfl

/-- The bits BW_WRITE_CODE sends are the code that CODELEN and CODEVAL hold (R50, R186). -/
theorem codeBits_eq {s : State} {sym : Byte} {p : List Bool} (hl : (s.codeLenAt sym).toNat = p.length)
    (hv : (s.codeValAt sym).toNat = codeValue p) : codeBits s sym = p := by
  apply List.ext_getElem
  · simp [codeBits, hl]
  · intro i h1 h2
    simp only [codeBits, List.getElem_map, List.getElem_range, BitVec.getLsbD, hl, hv]
    exact testBit_codeValue p h2

theorem length_codeBits (s : State) (sym : Byte) : (codeBits s sym).length = (s.codeLenAt sym).toNat := by
  simp [codeBits]

theorem codeBits_congr {s t : State} (hl : t.codeLen = s.codeLen) (hv : t.codeVal = s.codeVal) :
    codeBits t = codeBits s := by
  funext sym; simp [codeBits, State.codeLenAt, State.codeValAt, hl, hv]

/-- The shape of the tree depends on four parts of the state. -/
theorem TreeShape.congr {s t : State} {k : Nat} (ts : TreeShape s k) (hn : t.nodeAt = s.nodeAt)
    (hr : t.root = s.root) (hc : t.nodeCount = s.nodeCount) (hf : t.freq = s.freq) : TreeShape t k := by
  have hf' : t.freqAt = s.freqAt := by funext x; simp [State.freqAt, hf]
  constructor
  · exact ts.leaves
  · rw [hc]; exact ts.count
  · rw [hr]; exact ts.rootLast
  · rw [hn, hf']; exact ts.leaf
  · rw [hn]; exact ts.distinct
  · rw [hn, hf']; exact ts.covers
  · rw [hn]; exact ts.internal
  · rw [hn]; exact ts.parent

/-- In a valid code table the bits sent for a symbol with a code are that code. -/
theorem codeBits_of_isCodeOf {s : State} {k : Nat} (ts : TreeShape s k) {sym : Byte} {p : List Bool}
    (hc : codeEntryOk s sym) (hp : isCodeOf s p sym) : codeBits s sym = p := by
  rcases hc with ⟨q, hq, hl, hv⟩ | ⟨hno, -⟩
  · obtain rfl := ts.code_unique hp hq
    exact codeBits_eq hl hv
  · exact absurd hp (hno p)

/-- After `tree_build` and `code_gen` every listed symbol's code bits are a path of the tree. -/
theorem isCodeOf_codeBits {l : SymFreqs} {s : State} (h : ListsFreq l s) {e : Byte × BitVec 32} (he : e ∈ l) :
    isCodeOf (codeGen (treeBuild l s)) (codeBits (codeGen (treeBuild l s)) e.1) e.1 := by
  have ts := treeBuild_shape h
  have hn : (codeGen (treeBuild l s)).nodeAt = (treeBuild l s).nodeAt := nodeAt_congr rfl
  obtain ⟨p, hp⟩ := (ts.code_exists_iff e.1).mpr (by
    obtain ⟨h1, h2⟩ := h.counts e he
    show s.freqAt e.1 ≠ 0
    rw [h1]; exact h2)
  have hp' : isCodeOf (codeGen (treeBuild l s)) p e.1 := by rw [isCodeOf_congr hn rfl]; exact hp
  have ts' : TreeShape (codeGen (treeBuild l s)) l.length := ts.congr hn rfl rfl rfl
  rw [codeBits_of_isCodeOf ts' (codeGen_entryOk ts e.1) hp']
  exact hp'

/-! ## The payload as one list of bits -/

theorem bwWriteBit_only {b : Bool} {s t : State} (h : bwWriteBit b s = .ok t) : onlyWriter s t := by
  obtain ⟨-, h⟩ := require_bind_ok_iff.mp h
  obtain rfl := Except.ok.inj h
  exact onlyWriter_pushBit b s

theorem bwWriteBits_only {bs : List Bool} {s t : State} (h : bwWriteBits bs s = .ok t) : onlyWriter s t := by
  induction bs generalizing s with
  | nil => obtain rfl := Except.ok.inj h; rfl
  | cons b rest ih =>
    rw [bwWriteBits_cons] at h
    obtain ⟨u, hu, h⟩ := bind_ok_iff.mp h
    exact onlyWriter_trans (bwWriteBit_only hu) (ih h)

/-- The payload of rule R213, "in input order", is one list of bits (R116). -/
theorem foldlM_bwWriteCode (bytes : List Byte) (s : State) :
    bytes.foldlM (fun x b => bwWriteCode b x) s = bwWriteBits (bytes.flatMap (codeBits s)) s := by
  induction bytes generalizing s with
  | nil => rfl
  | cons b rest ih =>
    rw [List.foldlM_cons, List.flatMap_cons, bwWriteBits_append]
    show (bwWriteBits (codeBits s b) s >>= _) = _
    cases hb : bwWriteBits (codeBits s b) s with
    | error e => rfl
    | ok t =>
      obtain ⟨-, -, hl, hv, -⟩ := onlyWriter_congr (bwWriteBits_only hb)
      rw [ok_bind, ok_bind, ih, codeBits_congr hl hv]

theorem length_flatMap_codeBits (s : State) (bytes : List Byte) :
    (bytes.flatMap (codeBits s)).length = (bytes.map fun b => (s.codeLenAt b).toNat).sum := by
  simp [List.length_flatMap, length_codeBits]

/-- "sum over present s of FREQ[s] × CODELEN[s] = sum over i of CODELEN[IN[i]]" (R215). -/
theorem sum_count_eq (g : Byte → Nat) (l : SymFreqs) (hd : (l.map Prod.fst).Nodup) (bytes : List Byte)
    (hc : ∀ e ∈ l, e.2.toNat = bytes.count e.1) (hm : ∀ b ∈ bytes, ∃ e ∈ l, e.1 = b) :
    (l.map fun e => e.2.toNat * g e.1).sum = (bytes.map g).sum := by
  induction l generalizing bytes with
  | nil =>
    cases bytes with
    | nil => rfl
    | cons b rest => obtain ⟨e, he, -⟩ := hm b List.mem_cons_self; simp at he
  | cons e rest ih =>
    obtain ⟨hnot, hd'⟩ := List.nodup_cons.mp hd
    have hsplit : (bytes.map g).sum = bytes.count e.1 * g e.1 + ((bytes.filter fun b => b ≠ e.1).map g).sum := by
      clear hc hm ih
      induction bytes with
      | nil => simp
      | cons b bs ihb =>
        by_cases hb : b = e.1
        · subst hb
          simp only [List.map_cons, List.sum_cons, ihb, List.count_cons_self, ne_eq, not_true_eq_false, decide_false,
            Bool.false_eq_true, not_false_eq_true, List.filter_cons_of_neg, Nat.add_mul, Nat.one_mul]
          omega
        · simp only [List.map_cons, List.sum_cons, ihb, List.count_cons_of_ne hb, ne_eq, hb,
            not_false_eq_true, decide_true, List.filter_cons_of_pos]
          omega
    rw [List.map_cons, List.sum_cons, hc e List.mem_cons_self, hsplit]
    congr 1
    refine ih hd' _ (fun e' he' => ?_) (fun b hb => ?_)
    · have hne : e'.1 ≠ e.1 := fun h => hnot (h ▸ List.mem_map_of_mem he')
      rw [hc e' (List.mem_cons_of_mem _ he'), List.count_filter (by simpa using hne)]
    · obtain ⟨hb1, hb2⟩ := List.mem_filter.mp hb
      obtain ⟨e', he', rfl⟩ := hm b hb1
      rcases List.mem_cons.mp he' with rfl | he'
      · simp at hb2
      · exact ⟨e', he', rfl⟩

/-! ## The header -/

theorem length_headerBytes (l : SymFreqs) (bits : Nat) : (headerBytes l bits).length = headerSize l.length := by
  have : ∀ l : SymFreqs, (l.flatMap entryBytes).length = 5 * l.length := by
    intro l
    induction l with
    | nil => rfl
    | cons e rest ih => rw [List.flatMap_cons, List.length_append, ih]; simp [entryBytes, le32Bytes]; omega
  simp [headerBytes, this, le32Bytes, headerSize]; omega

/-- The four bytes of a field below 2^32 compose to the field (R77). -/
theorem le32_compose {v : Nat} (h : v < 2 ^ 32) :
    (BitVec.ofNat 8 v).toNat + 256 * (BitVec.ofNat 8 (v / 256)).toNat + 65536 * (BitVec.ofNat 8 (v / 65536)).toNat +
      16777216 * (BitVec.ofNat 8 (v / 16777216)).toNat = v := by
  simp only [BitVec.toNat_ofNat]; omega

/-- IN holds the bytes `bs` from `a` on. -/
def inHas (s : State) (a : Nat) (bs : List Byte) : Prop := ∀ i (h : i < bs.length), s.inAt (a + i) = bs[i]

theorem inHas_append {s : State} {a : Nat} {bs cs : List Byte} :
    inHas s a (bs ++ cs) ↔ inHas s a bs ∧ inHas s (a + bs.length) cs := by
  constructor
  · intro h
    refine ⟨fun i hi => ?_, fun i hi => ?_⟩
    · rw [h i (by simp; omega), List.getElem_append_left hi]
    · rw [show a + bs.length + i = a + (bs.length + i) by omega, h (bs.length + i) (by simp; omega),
        List.getElem_append_right (by omega)]
      simp
  · rintro ⟨h1, h2⟩ i hi
    rcases Nat.lt_or_ge i bs.length with hlt | hge
    · rw [h1 i hlt, List.getElem_append_left hlt]
    · have := h2 (i - bs.length) (by simp at hi; omega)
      rw [show a + bs.length + (i - bs.length) = a + i by omega] at this
      rw [this, List.getElem_append_right hge]

theorem inHas_cons {s : State} {a : Nat} {b : Byte} {bs : List Byte} :
    inHas s a (b :: bs) ↔ s.inAt a = b ∧ inHas s (a + 1) bs := by
  rw [show b :: bs = [b] ++ bs from rfl, inHas_append]
  refine and_congr ⟨fun h => h 0 (by simp), fun h i hi => ?_⟩ Iff.rfl
  obtain rfl : i = 0 := by simpa using hi
  exact h

theorem le32In_of_inHas {s : State} {a v : Nat} (hv : v < 2 ^ 32) (h : inHas s a (le32Bytes v)) : le32In s a = v := by
  simp only [le32Bytes, inHas_cons] at h
  obtain ⟨h0, h1, h2, h3, -⟩ := h
  simp only [Nat.add_assoc, Nat.reduceAdd] at h1 h2 h3
  rw [le32In, h0, h1, h2, h3]
  exact le32_compose hv

theorem inHas_flatMap_entry {s : State} {a : Nat} {l : SymFreqs} (h : inHas s a (l.flatMap entryBytes)) {i : Nat}
    (hi : i < l.length) : inHas s (a + 5 * i) (entryBytes l[i]) := by
  induction l generalizing a i with
  | nil => simp at hi
  | cons e rest ih =>
    rw [List.flatMap_cons, inHas_append] at h
    obtain ⟨h1, h2⟩ := h
    cases i with
    | zero => exact h1
    | succ j =>
      have hlen : (entryBytes e).length = 5 := by simp [entryBytes, le32Bytes]
      rw [hlen] at h2
      have := ih h2 (i := j) (by simpa using hi)
      rw [show a + 5 * (j + 1) = a + 5 + 5 * j by omega]; exact this

/-- Parsing the entries COMPRESS wrote, or any list with distinct symbols and non-zero counts, gives the list (R233). -/
theorem parseEntries_of_inHas {s : State} {l : SymFreqs} (h : inHas s 6 (l.flatMap entryBytes))
    (hd : (l.map Prod.fst).Nodup) (hz : ∀ e ∈ l, e.2 ≠ 0) : parseEntries s l.length = .ok l := by
  have key : ∀ m (hm : m ≤ l.length), (List.range m).foldlM (entryStep s) [] = .ok (l.take m) := by
    intro m
    induction m with
    | zero => intro _; simp; rfl
    | succ m ih =>
      intro hm
      rw [List.range_succ, List.foldlM_append, ih (by omega), ok_bind]
      have hent := inHas_flatMap_entry h (i := m) (by omega)
      rw [entryBytes, inHas_cons] at hent
      obtain ⟨hsym, hcnt⟩ := hent
      have hcnt := le32In_of_inHas l[m].2.isLt hcnt
      rw [show 6 + 5 * m + 1 = 7 + 5 * m by omega] at hcnt
      have hnew : ¬ ∃ e ∈ l.take m, e.1 = l[m].1 := by
        rintro ⟨e, he, hee⟩
        obtain ⟨j, hj, rfl⟩ := List.getElem_of_mem he
        simp only [List.length_take] at hj
        rw [List.getElem_take] at hee
        have hjm : (l.map Prod.fst)[j]'(by simp; omega) = (l.map Prod.fst)[m]'(by simp; omega) := by simpa using hee
        have := (List.Nodup.getElem_inj_iff hd).mp hjm
        omega
      have hnz : le32In s (7 + 5 * m) ≠ 0 := by
        rw [hcnt]
        intro h0
        exact hz l[m] (List.getElem_mem _) (BitVec.eq_of_toNat_eq h0)
      simp only [List.foldlM_cons, List.foldlM_nil, bind_pure]
      rw [entryStep]
      simp only [hsym]
      rw [require_bind_pos hnew, require_bind_pos hnz, hcnt]
      show Except.ok _ = _
      rw [List.take_add_one, List.getElem?_eq_getElem (by omega)]
      simp
  have := key l.length (Nat.le_refl _)
  rwa [List.take_length] at this

/-! ## FREQ from the entries -/

theorem freqOfEntries_append (l : SymFreqs) (e : Byte × BitVec 32) :
    freqOfEntries (l ++ [e]) = (freqOfEntries l).set e.1.toNat e.2 := by simp [freqOfEntries]

theorem freqOfEntries_mem {l : SymFreqs} (hd : (l.map Prod.fst).Nodup) {e : Byte × BitVec 32} (he : e ∈ l) :
    (freqOfEntries l)[e.1.toNat] = e.2 := by
  induction l using List.reverseRecOn with
  | nil => simp at he
  | append_singleton l e' ih =>
    rw [List.map_append, List.nodup_append] at hd
    simp only [freqOfEntries_append, Vector.getElem_set]
    rcases List.mem_append.mp he with he | he
    · have hne : e'.1.toNat ≠ e.1.toNat := fun h =>
        hd.2.2 e.1 (List.mem_map_of_mem he) e'.1 (by simp) (BitVec.eq_of_toNat_eq h.symm)
      rw [if_neg hne, ih hd.1 he]
    · obtain rfl : e = e' := by simpa using he
      rw [if_pos rfl]

theorem freqOfEntries_not_mem {l : SymFreqs} {sym : Byte} (h : ∀ e ∈ l, e.1 ≠ sym) :
    (freqOfEntries l)[sym.toNat] = 0 := by
  induction l using List.reverseRecOn with
  | nil => simp [freqOfEntries]
  | append_singleton l e ih =>
    have hne : e.1.toNat ≠ sym.toNat := fun he => h e (by simp) (BitVec.eq_of_toNat_eq he)
    simp only [freqOfEntries_append, Vector.getElem_set]
    rw [if_neg hne]
    exact ih fun e' he' => h e' (List.mem_append_left _ he')

/-- The list of a header is a list of FREQ as the decoder writes it. -/
theorem listsFreq_entries {l : SymFreqs} (hne : l ≠ []) (hl : l.length ≤ 256) (hd : (l.map Prod.fst).Nodup)
    (hz : ∀ e ∈ l, e.2 ≠ 0) {s : State} (hs : s.freq = freqOfEntries l) : ListsFreq l s where
  nonempty := hne
  small := hl
  distinct := hd
  counts := fun e he => ⟨by rw [State.freqAt]; simp only [hs]; exact freqOfEntries_mem hd he, hz e he⟩
  covers := fun sym hsym => by
    by_contra hno
    push Not at hno
    apply hsym
    rw [State.freqAt]
    simp only [hs]
    exact freqOfEntries_not_mem hno

/-! ## The decode loop -/

theorem streamHas_append {s : State} {p q : List Bool} (h : streamHas s (p ++ q)) : streamHas s p := by
  intro i hi
  rw [h i (by simp; omega), List.getElem_append_left hi]

theorem streamHas_readBits {s : State} {p q : List Bool} (h : streamHas s (p ++ q))
    (hfit : s.brPos.toNat + p.length ≤ s.brLim.toNat) : streamHas (readBits p.length s) q := by
  intro i hi
  have := h (p.length + i) (by simp; omega)
  rw [List.getElem_append_right (by omega)] at this
  rw [readBits_brPos hfit, show s.brPos.toNat + p.length + i = s.brPos.toNat + (p.length + i) by omega]
  have he : inStreamBit (readBits p.length s) (readBits p.length s).brOrg.toNat = inStreamBit s s.brOrg.toNat := rfl
  rw [he, this]
  simp

theorem putOut_readBits (k n : Nat) (b : Byte) (s : State) :
    putOut k b (readBits n s) = readBits n (putOut k b s) := rfl

theorem putOutBytes_readBits (k n : Nat) (bs : List Byte) (s : State) :
    putOutBytes k bs (readBits n s) = readBits n (putOutBytes k bs s) := by
  induction bs generalizing k s with
  | nil => rfl
  | cons b rest ih => rw [putOutBytes, putOut_readBits, ih, putOutBytes]

theorem streamHas_putOut {k : Nat} {b : Byte} {s : State} {p : List Bool} (h : streamHas s p) :
    streamHas (putOut k b s) p := h

theorem readBits_readBits {s : State} {m n : Nat} (h : s.brPos.toNat + m ≤ s.brLim.toNat) :
    readBits n (readBits m s) = readBits (m + n) s := by
  have := readBits_brPos h
  simp only [readBits] at this ⊢
  simp only [this, Nat.add_assoc]

theorem mapError_ok {α : Type} (f : Cause → Cause) (a : α) :
    (Except.ok a : Except Cause α).mapError f = .ok a := rfl

/-- A payload that is the codes of `xs`, and no more, decodes to `xs` (R243). -/
theorem decodeLoop_codes {code : Byte → List Bool} {xs : List Byte} {left k : Nat} {s : State}
    (hcode : ∀ b ∈ xs, isCodeOf s (code b) b ∧ code b ≠ []) (hs : streamHas s (xs.flatMap code))
    (hlim : s.brPos.toNat + (xs.flatMap code).length = s.brLim.toNat) (hleft : xs.length ≤ left) :
    decodeLoop left k s = .ok (k + xs.length, putOutBytes k xs (readBits (xs.flatMap code).length s)) := by
  induction xs generalizing left k s with
  | nil =>
    have hnot : ¬ s.brPos < s.brLim := by
      rw [BitVec.lt_def]; simp only [List.flatMap_nil, List.length_nil] at hlim; omega
    cases left <;> simp [decodeLoop, hnot, putOutBytes, readBits_zero]
  | cons b rest ih =>
    obtain ⟨left, rfl⟩ : ∃ m, left = m + 1 := ⟨left - 1, by simp only [List.length_cons] at hleft; omega⟩
    obtain ⟨hb, hbne⟩ := hcode b List.mem_cons_self
    have hblen : 0 < (code b).length := List.length_pos_iff.mpr hbne
    rw [List.flatMap_cons] at hs hlim
    rw [List.length_append] at hlim
    have hfit : s.brPos.toNat + (code b).length ≤ s.brLim.toNat := by omega
    have hlt : s.brPos < s.brLim := by rw [BitVec.lt_def]; omega
    rw [decodeLoop, if_pos hlt, walkSymbol_code hb (streamHas_append hs) hfit, mapError_ok, ok_bind]
    dsimp only
    have hnode : (putOut k b (readBits (code b).length s)).nodeAt = s.nodeAt := nodeAt_congr rfl
    have hpos := readBits_brPos hfit
    rw [ih (s := putOut k b (readBits (code b).length s)) (k := k + 1)
      (fun c hc => ⟨by rw [isCodeOf_congr hnode rfl]; exact (hcode c (List.mem_cons_of_mem _ hc)).1,
        (hcode c (List.mem_cons_of_mem _ hc)).2⟩)
      (streamHas_putOut (streamHas_readBits hs hfit))
      (by
        have h1 : (putOut k b (readBits (code b).length s)).brPos = (readBits (code b).length s).brPos := rfl
        have h2 : (putOut k b (readBits (code b).length s)).brLim = s.brLim := rfl
        rw [h1, h2, hpos]; omega)
      (by simp only [List.length_cons] at hleft; omega)]
    rw [List.flatMap_cons, List.length_append, ← readBits_readBits hfit, List.length_cons,
      show k + 1 + rest.length = k + (rest.length + 1) by omega, putOutBytes_readBits, putOut_readBits, putOutBytes,
      putOutBytes_readBits]
    simp only [putOut_readBits, putOutBytes_readBits]

end Sys2Proof.Machine
end

