-- ==== Sys2Proof/Laws/Encode.lean ====
section
/-! SUPPORT. Everything COMPRESS can do with a non-empty input (rules R213, R215, R216, R219). -/

namespace Sys2Proof.Machine

/-- The payload of rule R116 for the input of `s`, with the code table of `t`. -/
def payloadBits (t s : State) : List Bool := (inBytes s s.inLen.toNat).flatMap (codeBits t)

/-- "sum over present s of FREQ[s] × CODELEN[s] = sum over i of CODELEN[IN[i]]" (R215). -/
theorem bitTotal_eq_payload {s t : State} (hf : s.freq = countBytes (inBytes s s.inLen.toNat)) :
    bitTotal t (presentSymbols s.freq) = (payloadBits t s).length := by
  have hlen : (inBytes s s.inLen.toNat).length < 2 ^ 32 := by rw [length_inBytes]; exact s.inLen.isLt
  rw [payloadBits, length_flatMap_codeBits, bitTotal]
  refine sum_count_eq (fun b => (t.codeLenAt b).toNat) _ (presentSymbols_nodup _) _ (fun e he => ?_) (fun b hb => ?_)
  · obtain ⟨-, h2⟩ := mem_presentSymbols.mp he
    rw [← countBytes_toNat hlen e.1, ← h2]
    simp only [hf]
  · refine ⟨(b, s.freq[b.toNat]), mem_presentSymbols.mpr ⟨?_, rfl⟩, rfl⟩
    intro h0
    have := countBytes_toNat hlen b
    rw [← List.count_pos_iff] at hb
    simp only [hf] at h0
    rw [h0] at this
    simp at this
    omega

theorem presentSymbols_ne_nil {s : State} (hf : s.freq = countBytes (inBytes s s.inLen.toNat))
    (hne : s.inLen ≠ 0) : presentSymbols s.freq ≠ [] := by
  intro h0
  have hlen : (inBytes s s.inLen.toNat).length < 2 ^ 32 := by rw [length_inBytes]; exact s.inLen.isLt
  have hpos : s.inLen.toNat ≠ 0 := fun h => hne (BitVec.eq_of_toNat_eq h)
  have hmem : s.inAt 0 ∈ inBytes s s.inLen.toNat := by
    rw [inBytes, List.mem_map]; exact ⟨0, List.mem_range.mpr (by omega), rfl⟩
  have hcount := countBytes_toNat hlen (s.inAt 0)
  have hp := List.count_pos_iff.mpr hmem
  have : (s.inAt 0, s.freq[(s.inAt 0).toNat]) ∈ presentSymbols s.freq := by
    refine mem_presentSymbols.mpr ⟨?_, rfl⟩
    intro hz
    simp only [hf] at hz
    rw [hz] at hcount
    simp at hcount
    omega
  rw [h0] at this
  simp at this

theorem putOutBytes_eq (a : Nat) (bs : List Byte) (s : State) :
    putOutBytes a bs s = { s with outBuf := (putOutBytes a bs s).outBuf } := by
  induction bs generalizing a s with
  | nil => rfl
  | cons b rest ih => rw [putOutBytes, ih]; rfl

theorem bwFinish_eq (s : State) :
    bwFinish s = { s with outBuf := (bwFinish s).outBuf, bwAcc := (bwFinish s).bwAcc, bwOpen := false } := by
  unfold bwFinish; split <;> rfl

/-- The state after a successful COMPRESS of a non-empty input, from the state `t` with its tables (R216). -/
structure Compressed (l : SymFreqs) (bits : List Bool) (t v : State) : Prop where
  fields : v = { t with
    bwOrg := v.bwOrg, bwTotal := BitVec.ofNat 32 bits.length, bwAcc := v.bwAcc, bwOpen := false, outBuf := v.outBuf
    outLen := BitVec.ofNat 32 (headerSize l.length + ceilDiv8 bits.length)
    bitCount := BitVec.ofNat 32 bits.length }
  header : ∀ i (h : i < (headerBytes l bits.length).length), v.outAt i = (headerBytes l bits.length)[i]
  payload : ∀ k < 8 * ceilDiv8 bits.length,
    outStreamBit v (headerSize l.length) k = if h : k < bits.length then bits[k] else false
  small : headerSize l.length + ceilDiv8 bits.length ≤ t.params.outCap
  wf : t.outBuf.wf → v.outBuf.wf
  below : t.outBuf.below t.params.outCap → v.outBuf.below t.params.outCap

theorem compressFull_spec {s : State} (hf : s.freq = countBytes (inBytes s s.inLen.toNat)) :
    let l := presentSymbols s.freq
    let t := codeGen (treeBuild l s)
    (s.params.outCap < headerSize l.length + ceilDiv8 (bitTotal t l) → compressFull s = .error (.capacity .outOver)) ∧
    (headerSize l.length + ceilDiv8 (bitTotal t l) ≤ s.params.outCap →
      ∃ v, compressFull s = .ok v ∧ Compressed l (payloadBits t s) t v) := by
  intro l t
  have hB : bitTotal t l = (payloadBits t s).length := bitTotal_eq_payload hf
  refine ⟨fun hlt => ?_, fun hle => ?_⟩
  · unfold compressFull
    exact require_bind_neg (by
      show ¬ (headerSize l.length + ceilDiv8 (bitTotal t l) ≤ s.params.outCap); omega) _
  · have hcap := s.params.bounded.2.2
    have hcd : ceilDiv8 (payloadBits t s).length < 2 ^ 29 := by rw [← hB]; omega
    have hBs : (payloadBits t s).length < 2 ^ 32 := by unfold ceilDiv8 at hcd; omega
    have hH : headerSize l.length < 2 ^ 32 := by omega
    rw [hB] at hle
    -- the stages
    let H := headerSize l.length
    let w := putOutBytes 0 (headerBytes l (bitTotal t l)) t
    let u := bwInit (BitVec.ofNat 32 H) w
    have hworg : u.bwOrg.toNat = H := by
      show (BitVec.ofNat 32 H).toNat = H
      rw [BitVec.toNat_ofNat]; exact Nat.mod_eq_of_lt hH
    have hutot : u.bwTotal.toNat = 0 := rfl
    have hucaps : u.params = s.params := by
      show w.params = s.params
      rw [show w = { t with outBuf := w.outBuf } from putOutBytes_eq _ _ _]; rfl
    have huin : u.inBuf = s.inBuf := by
      show w.inBuf = s.inBuf
      rw [show w = { t with outBuf := w.outBuf } from putOutBytes_eq _ _ _]; rfl
    have hul : u.codeLen = t.codeLen := by
      show w.codeLen = t.codeLen
      rw [show w = { t with outBuf := w.outBuf } from putOutBytes_eq _ _ _]
    have huv : u.codeVal = t.codeVal := by
      show w.codeVal = t.codeVal
      rw [show w = { t with outBuf := w.outBuf } from putOutBytes_eq _ _ _]
    have hok : WriterOk u := by
      constructor
      · rw [hworg, hutot, hucaps]; show H + ceilDiv8 0 ≤ _; simp only [ceilDiv8]; omega
      · intro i _; show (0 : BitVec 8).getLsbD i = false; simp
    have hbits : (inBytes s s.inLen.toNat).flatMap (codeBits u) = payloadBits t s := by
      rw [payloadBits, codeBits_congr hul huv]
    obtain ⟨v, hv, hw⟩ := bwWriteBits_spec (bs := payloadBits t s) hok (by
      rw [hworg, hutot, hucaps, Nat.zero_add]; exact hle)
    have hvtot : v.bwTotal.toNat = (payloadBits t s).length := by rw [hw.total, hutot, Nat.zero_add]
    have hvorg : v.bwOrg.toNat = H := by
      rw [(onlyWriter_congr hw.only).2.2.2.2.2.1, hworg]
    have hvcaps : v.params = s.params := by rw [(onlyWriter_congr hw.only).2.2.2.2.1, hucaps]
    refine ⟨{ bwFinish v with
        outLen := BitVec.ofNat 32 (H + ceilDiv8 (bitTotal t l)), bitCount := BitVec.ofNat 32 (bitTotal t l) }, ?_, ?_⟩
    · unfold compressFull
      rw [require_bind_pos (by
        show headerSize l.length + ceilDiv8 (bitTotal t l) ≤ s.params.outCap; rw [hB]; exact hle)]
      have hpay : (inBytes s s.inLen.toNat).foldlM (fun x b => bwWriteCode b x) u = .ok v := by
        rw [foldlM_bwWriteCode, hbits, hv]
      show ((inBytes s s.inLen.toNat).foldlM (fun x b => bwWriteCode b x) u >>= _) = _
      rw [hpay, ok_bind]; rfl
    · have hwt : v.bwTotal = BitVec.ofNat 32 (payloadBits t s).length := by
        apply BitVec.eq_of_toNat_eq
        rw [hvtot, BitVec.toNat_ofNat, Nat.mod_eq_of_lt hBs]
      have hstream : ∀ k < 8 * ceilDiv8 (payloadBits t s).length,
          outStreamBit (bwFinish v) H k = if h : k < (payloadBits t s).length then (payloadBits t s)[k] else false := by
        intro k hk
        have := outStreamBit_bwFinish hw.ok k (by rw [hvtot]; exact hk)
        rw [hvorg] at this
        rw [this, hvtot]
        by_cases hkl : k < (payloadBits t s).length
        · rw [if_pos hkl, dif_pos hkl]
          have := hw.new k hkl
          rwa [hutot, Nat.zero_add] at this
        · rw [if_neg hkl, dif_neg hkl]
      have hlenH : (headerBytes l (bitTotal t l)).length = H := length_headerBytes l _
      have hhead : ∀ i (h : i < (headerBytes l (bitTotal t l)).length),
          (bwFinish v).outAt i = (headerBytes l (bitTotal t l))[i] := by
        intro i hi
        rw [outAt_bwFinish_other, hw.before i, ← outAt_putOutBytes 0 (headerBytes l (bitTotal t l)) t hi, Nat.zero_add]
        · exact congrFun (outAt_congr rfl) i
        · show i < streamByte u.bwOrg.toNat u.bwTotal.toNat
          rw [hworg, hutot, streamByte]; omega
        · intro _; show i ≠ streamByte v.bwOrg.toNat v.bwTotal.toNat
          rw [hvorg, streamByte]; omega
      constructor
      · simp only [hB]
        rw [bwFinish_eq, show v = _ from hw.only, hwt]
        show _ = _
        have hue : u = { t with outBuf := w.outBuf, bwOrg := BitVec.ofNat 32 H, bwTotal := 0, bwAcc := 0, bwOpen := true } := by
          show bwInit _ w = _
          rw [show w = { t with outBuf := w.outBuf } from putOutBytes_eq _ _ _]; rfl
        rw [hue]
      · rw [← hB]; exact hhead
      · exact hstream
      · exact hle
      · intro h
        exact bwFinish_wf (hw.wf (wf_putOutBytes h _ _))
      · intro h
        have h1 : w.outBuf.below t.params.outCap := below_putOutBytes h (by rw [hlenH]; show 0 + H ≤ s.params.outCap; omega)
        have h2 := hw.below (by rw [hucaps]; exact h1)
        have h3 := bwFinish_below hw.ok (by rw [hvcaps]; rw [hucaps] at h2; exact h2)
        rw [hvcaps] at h3; exact h3

end Sys2Proof.Machine
end

