-- ==== Sys2Proof/Laws/Decode.lean ====
section
/-! SUPPORT. DECOMPRESS of a container whose header and payload agree (rules R233, R236, R243, R247). -/

namespace Sys2Proof.Machine

/-- The state of DECOMPRESS after stage 3, for the entries `l` (R233). -/
def rebuilt (l : SymFreqs) (s : State) : State := codeGen (treeBuild l { s with freq := freqOfEntries l })

/-- The state of DECOMPRESS when stage 4 begins. -/
def payloadStart (l : SymFreqs) (bits : Nat) (s : State) : State :=
  brInit (BitVec.ofNat 32 (headerSize l.length)) (BitVec.ofNat 32 bits)
    { rebuilt l s with freqValid := true, symCount := BitVec.ofNat 9 l.length, bitCount := BitVec.ofNat 32 bits }

/-- A container of `n` bytes that passes the tests of stages 1 to 3 for a non-empty container. -/
structure GoodHeader (s : State) (n : Nat) (l : SymFreqs) : Prop where
  nonempty : l ≠ []
  small : l.length ≤ 256
  distinct : (l.map Prod.fst).Nodup
  nonzero : ∀ e ∈ l, e.2 ≠ 0
  header : inHas s 0 (headerBytes l (bitTotal (rebuilt l s) l))
  size : n = headerSize l.length + ceilDiv8 (bitTotal (rebuilt l s) l)
  fits : n < 2 ^ 29
  room : declaredLength l ≤ s.params.outCap

theorem GoodHeader.bits_lt {s : State} {n : Nat} {l : SymFreqs} (h : GoodHeader s n l) :
    bitTotal (rebuilt l s) l < 2 ^ 32 := by
  have h1 := h.size
  have h2 := h.fits
  have : ceilDiv8 (bitTotal (rebuilt l s) l) < 2 ^ 29 := by omega
  unfold ceilDiv8 at this; omega

theorem GoodHeader.fields {s : State} {n : Nat} {l : SymFreqs} (h : GoodHeader s n l) :
    s.inAt 0 = 1 ∧ s.inAt 1 = 0 ∧ le32In s 2 = l.length ∧ inHas s 6 (l.flatMap entryBytes) ∧
      le32In s (6 + 5 * l.length) = bitTotal (rebuilt l s) l := by
  have hh := h.header
  have hl := h.small
  have hlen : (l.flatMap entryBytes).length = 5 * l.length := by
    have := length_headerBytes l 0
    simp only [headerBytes, List.length_append, headerSize, le32Bytes, List.length_cons, List.length_nil] at this
    omega
  simp only [headerBytes, inHas_append, List.length_append] at hh
  obtain ⟨⟨⟨h0, h1⟩, h2⟩, h3⟩ := hh
  rw [inHas_cons, inHas_cons] at h0
  refine ⟨h0.1, h0.2.1, ?_, ?_, ?_⟩
  · exact le32In_of_inHas (by omega) h1
  · simpa [le32Bytes] using h2
  · refine le32In_of_inHas h.bits_lt ?_
    rw [hlen] at h3
    simpa [le32Bytes] using h3

/-- `decompressPayload` in terms of `rebuilt`. -/
theorem decompressPayload_eq (n : Nat) (l : SymFreqs) (s : State) :
    decompressPayload n l s = (do
      require (le32In s (6 + 5 * l.length) = bitTotal (rebuilt l s) l) (.corruptHeader .bitcountMismatch)
      require (ceilDiv8 (le32In s (6 + 5 * l.length)) ≤ n - headerSize l.length)
        (.truncatedPayload .payloadBytesShort)
      require (n - headerSize l.length ≤ ceilDiv8 (le32In s (6 + 5 * l.length))) (.corruptHeader .trailingBytes)
      require (declaredLength l ≤ s.params.outCap) (.capacity .outOver)
      decodeLoop (declaredLength l) 0 (payloadStart l (le32In s (6 + 5 * l.length)) s) >>= fun p => do
        require (p.1 = declaredLength l) (.corruptHeader .countMismatch)
        return { p.2 with outLen := BitVec.ofNat 32 p.1, brOpen := false }) := rfl

theorem decompressFull_stage4 {s : State} {n : Nat} {l : SymFreqs} (h : GoodHeader s n l) :
    decompressFull n s =
      (decodeLoop (declaredLength l) 0 (payloadStart l (bitTotal (rebuilt l s) l) s) >>= fun p => do
        require (p.1 = declaredLength l) (.corruptHeader .countMismatch)
        return { p.2 with outLen := BitVec.ofNat 32 p.1, brOpen := false }) := by
  obtain ⟨-, -, hs, he, hb⟩ := h.fields
  have hpos : 0 < l.length := List.length_pos_iff.mpr h.nonempty
  have hn := h.size
  have hl := h.small
  have hhs : headerSize l.length = 10 + 5 * l.length := rfl
  unfold decompressFull
  rw [require_bind_pos (by omega)]
  simp only [hs]
  rw [require_bind_pos (by omega), require_bind_pos (by omega), parseEntries_of_inHas he h.distinct h.nonzero, ok_bind]
  rw [decompressPayload_eq]
  simp only [hb]
  rw [require_bind_pos trivial, require_bind_pos (by omega), require_bind_pos (by omega), require_bind_pos h.room]

/-- The state after a successful DECOMPRESS of a non-empty container, from the state `s` it parsed (R247). -/
structure Decompressed (l : SymFreqs) (bits : Nat) (xs : List Byte) (s v : State) : Prop where
  fields : v = { rebuilt l s with
    freqValid := true, symCount := BitVec.ofNat 9 l.length, bitCount := BitVec.ofNat 32 bits
    brOrg := v.brOrg, brLim := v.brLim, brPos := BitVec.ofNat 32 bits, brOpen := false, outBuf := v.outBuf
    outLen := BitVec.ofNat 32 xs.length }
  output : ∀ i (h : i < xs.length), v.outAt i = xs[i]
  wf : s.outBuf.wf → v.outBuf.wf
  below : s.outBuf.below s.params.outCap → v.outBuf.below s.params.outCap

theorem rebuilt_listsFreq {l : SymFreqs} {s : State} (h1 : l ≠ []) (h2 : l.length ≤ 256)
    (h3 : (l.map Prod.fst).Nodup) (h4 : ∀ e ∈ l, e.2 ≠ 0) : ListsFreq l { s with freq := freqOfEntries l } :=
  listsFreq_entries h1 h2 h3 h4 rfl

theorem decompressFull_ok {s : State} {n : Nat} {l : SymFreqs} {xs : List Byte} (h : GoodHeader s n l)
    (hxs : ∀ b ∈ xs, ∃ e ∈ l, e.1 = b) (hcount : xs.length = declaredLength l)
    (hbits : (xs.flatMap (codeBits (rebuilt l s))).length = bitTotal (rebuilt l s) l)
    (hpay : ∀ k (hk : k < (xs.flatMap (codeBits (rebuilt l s))).length),
      inStreamBit s (headerSize l.length) k = (xs.flatMap (codeBits (rebuilt l s)))[k]) :
    ∃ v, decompressFull n s = .ok v ∧ Decompressed l (bitTotal (rebuilt l s) l) xs s v := by
  let u := payloadStart l (bitTotal (rebuilt l s) l) s
  have hlf := rebuilt_listsFreq (s := s) h.nonempty h.small h.distinct h.nonzero
  have hB := h.bits_lt
  have hHlt : headerSize l.length < 2 ^ 32 := by have := h.small; unfold headerSize; omega
  have hnode : u.nodeAt = (rebuilt l s).nodeAt := nodeAt_congr rfl
  have hcode : ∀ b ∈ xs, isCodeOf u (codeBits (rebuilt l s) b) b ∧ codeBits (rebuilt l s) b ≠ [] := by
    intro b hb
    obtain ⟨e, he, rfl⟩ := hxs b hb
    have hc := isCodeOf_codeBits hlf he
    refine ⟨by rw [isCodeOf_congr hnode rfl]; exact hc, ?_⟩
    have ts : TreeShape (rebuilt l s) l.length := (treeBuild_shape hlf).congr (nodeAt_congr rfl) rfl rfl rfl
    have := (ts.code_length_bounds hc).1
    intro h0
    rw [show codeGen (treeBuild l { s with freq := freqOfEntries l }) = rebuilt l s from rfl, h0] at this
    simp at this
  have horg : u.brOrg.toNat = headerSize l.length := by
    show (BitVec.ofNat 32 _).toNat = _
    rw [BitVec.toNat_ofNat]; exact Nat.mod_eq_of_lt hHlt
  have hlim : u.brLim.toNat = bitTotal (rebuilt l s) l := by
    show (BitVec.ofNat 32 _).toNat = _
    rw [BitVec.toNat_ofNat]; exact Nat.mod_eq_of_lt hB
  have hpos0 : u.brPos.toNat = 0 := rfl
  have hstream : streamHas u (xs.flatMap (codeBits (rebuilt l s))) := by
    intro k hk
    rw [horg, hpos0, Nat.zero_add]
    exact hpay k hk
  have hloop := decodeLoop_codes (left := declaredLength l) (k := 0) hcode hstream
    (by rw [hpos0, Nat.zero_add, hlim]; exact hbits) (by omega)
  refine ⟨{ putOutBytes 0 xs (readBits (xs.flatMap (codeBits (rebuilt l s))).length u) with
      outLen := BitVec.ofNat 32 xs.length, brOpen := false }, ?_, ?_⟩
  · rw [decompressFull_stage4 h, hloop, ok_bind]
    simp only [Nat.zero_add]
    rw [require_bind_pos hcount]; rfl
  · constructor
    · rw [hbits, putOutBytes_eq]
      rw [readBits, hpos0, Nat.zero_add]
      rfl
    · intro i hi
      have := outAt_putOutBytes 0 xs (readBits (xs.flatMap (codeBits (rebuilt l s))).length u) hi
      rw [Nat.zero_add] at this
      exact this
    · intro hw
      exact wf_putOutBytes (s := readBits _ u) hw 0 xs
    · intro hb
      exact below_putOutBytes (s := readBits _ u) hb (by have := h.room; omega)

end Sys2Proof.Machine
end

