-- ==== Sys2Proof/Laws/Function.lean ====
section
/-! SUPPORT. "The tree is a function of L alone" (rule R153), and so is its code table: neither depends on the state
`tree_build` runs in nor on an unspecified value. From it, the tables of DECOMPRESS are those of COMPRESS (R236). -/

namespace Sys2Proof.Machine

/-- A list `tree_build` may be called with (R152). -/
structure GoodList (l : SymFreqs) : Prop where
  nonempty : l ≠ []
  small : l.length ≤ 256
  distinct : (l.map Prod.fst).Nodup
  nonzero : ∀ e ∈ l, e.2 ≠ 0

theorem GoodList.present {f : Vector (BitVec 32) 256} (h : presentSymbols f ≠ []) : GoodList (presentSymbols f) where
  nonempty := h
  small := by rw [length_presentSymbols]; exact symbolCount_le _
  distinct := presentSymbols_nodup _
  nonzero := fun _ he => (mem_presentSymbols.mp he).1

theorem nodeAt_treeBuild_indep {l : SymFreqs} (g : GoodList l) (s s' : State) {h : Handle}
    (hlt : h.toNat < 2 * l.length - 1) : (treeBuild l s).nodeAt h = (treeBuild l s').nodeAt h := by
  have hlen := (buildArena_spec g.nonempty g.small).2.1
  have hget : (buildArena l).1[h.toNat]? = some (buildArena l).1[h.toNat] := List.getElem?_eq_getElem (by omega)
  rw [nodeAt_treeBuild g.nonempty g.small s hget, nodeAt_treeBuild g.nonempty g.small s' hget]

theorem leadsTo_indep {s s' : State} {k : Nat} (ts : TreeShape s k)
    (hn : ∀ h : Handle, h.toNat < 2 * k - 1 → s.nodeAt h = s'.nodeAt h) {p : List Bool} {h g : Handle}
    (hlt : h.toNat < 2 * k - 1) (hp : leadsTo s h p g) : leadsTo s' h p g ∧ g.toNat < 2 * k - 1 := by
  induction p generalizing h with
  | nil => obtain rfl : h = g := hp; exact ⟨rfl, hlt⟩
  | cons b rest ih =>
    obtain ⟨hl, hr⟩ := hp
    have hc := ts.child_lt hlt hl b
    obtain ⟨h1, h2⟩ := ih (by omega) hr
    refine ⟨⟨by rw [← hn h hlt]; exact hl, by rw [← hn h hlt]; exact h1⟩, h2⟩

theorem isCodeOf_indep {s s' : State} {k : Nat} (ts : TreeShape s k)
    (hn : ∀ h : Handle, h.toNat < 2 * k - 1 → s.nodeAt h = s'.nodeAt h) (hr : s.root = s'.root) {p : List Bool}
    {sym : Byte} (hc : isCodeOf s p sym) : isCodeOf s' p sym := by
  have hroot := hn s.root ts.root_lt
  unfold isCodeOf at hc ⊢
  rw [← hr, ← hroot]
  split at hc
  · rename_i hl; rw [if_pos hl]; exact hc
  · rename_i hl
    rw [if_neg hl]
    obtain ⟨g, hg, hgl, hgs⟩ := hc
    obtain ⟨h1, h2⟩ := leadsTo_indep ts hn ts.root_lt hg
    exact ⟨g, h1, by rw [← hn g h2]; exact hgl, by rw [← hn g h2]; exact hgs⟩

theorem rebuilt_shape {l : SymFreqs} (g : GoodList l) (s : State) : TreeShape (rebuilt l s) l.length :=
  (treeBuild_shape (rebuilt_listsFreq (s := s) g.nonempty g.small g.distinct g.nonzero)).congr (nodeAt_congr rfl) rfl
    rfl rfl

theorem rebuilt_entryOk {l : SymFreqs} (g : GoodList l) (s : State) (sym : Byte) : codeEntryOk (rebuilt l s) sym :=
  codeGen_entryOk (treeBuild_shape (rebuilt_listsFreq (s := s) g.nonempty g.small g.distinct g.nonzero)) sym

theorem rebuilt_codes_indep {l : SymFreqs} (g : GoodList l) (s s' : State) :
    (rebuilt l s).codeLenAt = (rebuilt l s').codeLenAt ∧ (rebuilt l s).codeValAt = (rebuilt l s').codeValAt := by
  have ts := rebuilt_shape g s
  have ts' := rebuilt_shape g s'
  have hn : ∀ h : Handle, h.toNat < 2 * l.length - 1 → (rebuilt l s).nodeAt h = (rebuilt l s').nodeAt h :=
    fun h hlt => nodeAt_treeBuild_indep g { s with freq := freqOfEntries l } { s' with freq := freqOfEntries l } hlt
  have hr : (rebuilt l s).root = (rebuilt l s').root := rfl
  have key : ∀ sym, (rebuilt l s).codeLenAt sym = (rebuilt l s').codeLenAt sym ∧
      (rebuilt l s).codeValAt sym = (rebuilt l s').codeValAt sym := by
    intro sym
    rcases rebuilt_entryOk g s sym with ⟨p, hp, hl, hv⟩ | ⟨hno, hl, hv⟩
    · rcases rebuilt_entryOk g s' sym with ⟨q, hq, hl', hv'⟩ | ⟨hno', -⟩
      · obtain rfl := ts'.code_unique (isCodeOf_indep ts hn hr hp) hq
        exact ⟨BitVec.eq_of_toNat_eq (by omega), BitVec.eq_of_toNat_eq (by omega)⟩
      · exact absurd (isCodeOf_indep ts hn hr hp) (hno' p)
    · rcases rebuilt_entryOk g s' sym with ⟨q, hq, -⟩ | ⟨-, hl', hv'⟩
      · exact absurd (isCodeOf_indep ts' (fun h hlt => (hn h hlt).symm) hr.symm hq) (hno q)
      · exact ⟨by rw [hl, hl'], by rw [hv, hv']⟩
  exact ⟨funext fun x => (key x).1, funext fun x => (key x).2⟩

/-- The code table of `tree_build(L); code_gen()` is a function of L (R153). -/
theorem codes_indep {l : SymFreqs} (g : GoodList l) (s s' : State) :
    (codeGen (treeBuild l s)).codeLen = (codeGen (treeBuild l s')).codeLen ∧
      (codeGen (treeBuild l s)).codeVal = (codeGen (treeBuild l s')).codeVal := by
  obtain ⟨h1, h2⟩ := rebuilt_codes_indep g s s'
  constructor
  · apply Vector.ext
    intro i hi
    have := congrFun h1 (BitVec.ofNat 8 i)
    simp only [State.codeLenAt, BitVec.toNat_ofNat, Nat.mod_eq_of_lt hi] at this
    exact this
  · apply Vector.ext
    intro i hi
    have := congrFun h2 (BitVec.ofNat 8 i)
    simp only [State.codeValAt, BitVec.toNat_ofNat, Nat.mod_eq_of_lt hi] at this
    exact this

theorem codeBits_indep {l : SymFreqs} (g : GoodList l) (s s' : State) :
    codeBits (codeGen (treeBuild l s)) = codeBits (codeGen (treeBuild l s')) :=
  codeBits_congr (codes_indep g s s').1 (codes_indep g s s').2

theorem bitTotal_indep {l : SymFreqs} (g : GoodList l) (s s' : State) (m : SymFreqs) :
    bitTotal (codeGen (treeBuild l s)) m = bitTotal (codeGen (treeBuild l s')) m := by
  simp only [bitTotal, State.codeLenAt, (codes_indep g s s').1]

end Sys2Proof.Machine
end

