-- ==== Sys2Proof/Laws/Frame.lean ====
section
/-! SUPPORT. Frames: whose move a step is, the region an access by address is in, the one body every command is, what no
command changes, what each loop changes, and which errors each can raise (rules R9, R27, R45, R53, R76, R287 to R289). -/

namespace Sys2Proof.Machine

/-- A body that raises is error entry (R288). -/
theorem raises_of_body {i : Instr} {s : State} {c : Cause} (h : bodyOf i s = .error c) {code info}
    (h1 : errorCode c = code) (h2 : errorInfo c = info) : raises i s code info := by
  refine ⟨clearDerived s, ?_, rfl⟩
  rw [exec_eq_runBody, h, runBody_error, errorEntry, h1, h2]

/-- A step that is the HFC's move. -/
theorem step_hfc {s : State} (ha : s.agenda = [] ∨ ∃ rest, s.agenda = .hfc :: rest) :
    step s = hfcStep { s with agenda := s.agenda.tail } := by
  rcases ha with ha | ⟨rest, ha⟩
  · unfold step; rw [ha]
    have : ({ s with agenda := [].tail } : State) = s := by cases s; simp at ha; simp [ha]
    rw [this]
  · unfold step; rw [ha]; simp [State.popMove, ha]

/-- Every command answers a next state. -/
theorem exec_next (i : Instr) (s : State) : ∃ t, exec i s = .next t := by
  rw [exec_eq_runBody]; exact ⟨_, rfl⟩

/-- A step that is a host's move. -/
theorem step_host {s : State} {m : HostMove} {rest} (ha : s.agenda = .host m :: rest) :
    step s = hostStep m { s with agenda := rest } := by
  unfold step; rw [ha]; simp [State.popMove, ha]

/-- A step that is an access of the host by address. -/
theorem step_bus {s : State} {x : BusAccess} {rest} (ha : s.agenda = .bus x :: rest) :
    step s = busStep x { s with agenda := rest } := by
  unfold step; rw [ha]; simp [State.popMove, ha]

/-- Everything an access by address can do: it stops by name, or it is the move its region and offset make it. -/
theorem busStep_cases (x : BusAccess) (s : State) :
    (regionAt s.params x.address = none ∧ busStep x s = .fault .outsideRegions) ∨
    ∃ r off, regionAt s.params x.address = some (r, off) ∧
      ((x.moveIn r off = none ∧ busStep x s = .refused .accessWidth) ∨
        ∃ m, x.moveIn r off = some m ∧ busStep x s = hostStep m s) := by
  unfold busStep
  cases h : regionAt s.params x.address with
  | none => exact .inl ⟨rfl, rfl⟩
  | some p => cases hm : x.moveIn p.1 p.2 with
    | none => exact .inr ⟨p.1, p.2, rfl, .inl ⟨hm, by simp only [hm]⟩⟩
    | some m => exact .inr ⟨p.1, p.2, rfl, .inr ⟨m, hm, by simp only [hm]⟩⟩

/-- An access by address that does not stop is a move of the host. -/
theorem busStep_next {x : BusAccess} {s t : State} (h : busStep x s = .next t) : ∃ m, hostStep m s = .next t := by
  rcases busStep_cases x s with ⟨-, hx⟩ | ⟨r, off, -, ⟨-, hx⟩ | ⟨m, -, hx⟩⟩
  · rw [hx] at h; cases h
  · rw [hx] at h; cases h
  · exact ⟨m, hx.symm.trans h⟩

/-- An address of the register block lies in it, at its distance from REG_BASE (R22). -/
theorem regionAt_registers {p : Params} {off : Nat} (h : off < 0x100) :
    regionAt p (p.regBase + off) = some (.registers, off) := by
  unfold regionAt
  rw [if_pos (by omega), Nat.add_sub_cancel_left]

/-- An address of the IN window lies in it, at its distance from IN_BASE (R85): the regions do not overlap (D5). -/
theorem regionAt_in {p : Params} {off : Nat} (hm : p.windowsMapped = true) (h : off < p.inCap) :
    regionAt p (p.inBase + off) = some (.inWindow, off) := by
  have := p.disjoint hm
  unfold regionAt
  rw [if_neg (by omega), if_pos ⟨hm, by omega, by omega⟩, Nat.add_sub_cancel_left]

/-- An address of the OUT window lies in it, at its distance from OUT_BASE (R85). -/
theorem regionAt_out {p : Params} {off : Nat} (hm : p.windowsMapped = true) (h : off < p.outCap) :
    regionAt p (p.outBase + off) = some (.outWindow, off) := by
  have := p.disjoint hm
  unfold regionAt
  rw [if_neg (by omega), if_neg (by rintro ⟨-, h1, h2⟩; omega), if_pos ⟨hm, by omega, by omega⟩,
    Nat.add_sub_cancel_left]

/-- A body that ends is the next state. -/
theorem exec_ok {i s t} (h : bodyOf i s = .ok t) : exec i s = .next t := by rw [exec_eq_runBody, h]; rfl

/-- Nothing but BR_POS differs. -/
def onlyReader (s t : State) : Prop := t = { s with brPos := t.brPos }

theorem brReadBit_only {s t : State} {b} (h : brReadBit s = .ok (b, t)) : onlyReader s t := by
  obtain ⟨-, h⟩ := require_bind_ok_iff.mp h
  cases h; rfl

theorem onlyReader_trans {s t u : State} (h : onlyReader s t) (h' : onlyReader t u) : onlyReader s u := by
  unfold onlyReader at *; rw [h']; rw [h]

theorem walkFrom_only {left cur n s} {a m t} (h : walkFrom left cur n s = .ok (a, m, t)) : onlyReader s t := by
  induction left generalizing cur n s with
  | zero => unfold walkFrom at h; split at h <;> cases h; rfl
  | succ left ih =>
    unfold walkFrom at h
    split at h
    · cases h; rfl
    · obtain ⟨⟨b, u⟩, hu, h⟩ := bind_ok_iff.mp h
      exact onlyReader_trans (brReadBit_only hu) (ih h)

theorem walkSymbol_only {s a m t} (h : walkSymbol s = .ok (a, m, t)) : onlyReader s t := by
  unfold walkSymbol at h
  split at h
  · obtain ⟨⟨b, u⟩, hu, h⟩ := bind_ok_iff.mp h
    obtain ⟨-, h⟩ := require_bind_ok_iff.mp h
    cases h
    exact brReadBit_only hu
  · exact walkFrom_only h

/-- Nothing but BR_POS and OUT differs. -/
def onlyDecoder (s t : State) : Prop := t = { s with brPos := t.brPos, outBuf := t.outBuf }

theorem onlyDecoder_trans {s t u : State} (h : onlyDecoder s t) (h' : onlyDecoder t u) : onlyDecoder s u := by
  unfold onlyDecoder at *; rw [h']; rw [h]

theorem decodeLoop_only {left k s j t} (h : decodeLoop left k s = .ok (j, t)) : onlyDecoder s t := by
  induction left generalizing k s with
  | zero =>
    unfold decodeLoop at h; split at h <;> cases h; rfl
  | succ left ih =>
    unfold decodeLoop at h
    split at h
    · obtain ⟨⟨a, m, u⟩, hu, h⟩ := bind_ok_iff.mp h
      have hu' : walkSymbol s = .ok (a, m, u) := by
        cases hw : walkSymbol s with
        | error e => rw [hw] at hu; cases hu
        | ok r => rw [hw] at hu; cases hu; rfl
      have h1 := ih h
      have h2 : onlyDecoder u (putOut k a u) := rfl
      have h3 : onlyDecoder s u := by
        have := walkSymbol_only hu'
        unfold onlyReader at this; unfold onlyDecoder; rw [this]
      exact onlyDecoder_trans h3 (onlyDecoder_trans h2 h1)
    · cases h; rfl

/-- What no command changes, not even one that raises (R53, R287). -/
structure Kept (s t : State) : Prop where
  inBuf : t.inBuf = s.inBuf
  inLen : t.inLen = s.inLen
  bwBase : t.bwBase = s.bwBase
  brBase : t.brBase = s.brBase
  brLimit : t.brLimit = s.brLimit
  ie : t.ie = s.ie
  ovr : t.ovr = s.ovr
  seq : t.seq = s.seq
  pend : t.pend = s.pend
  done : t.done = s.done
  params : t.params = s.params
  agenda : t.agenda = s.agenda
  resp : t.resp = s.resp

theorem Kept.trans {s t u} (h : Kept s t) (h' : Kept t u) : Kept s u :=
  ⟨h'.1.trans h.1, h'.2.trans h.2, h'.3.trans h.3, h'.4.trans h.4, h'.5.trans h.5, h'.6.trans h.6, h'.7.trans h.7,
      h'.8.trans h.8, h'.9.trans h.9, h'.10.trans h.10, h'.11.trans h.11, h'.12.trans h.12, h'.13.trans h.13⟩

/-- What no command that ends without error changes. -/
structure KeptE (s t : State) : Prop extends Kept s t where
  err : t.err = s.err
  errCode : t.errCode = s.errCode
  errInfo : t.errInfo = s.errInfo

theorem KeptE.refl (s) : KeptE s s := (by repeat' constructor)

theorem KeptE.trans {s t u} (h : KeptE s t) (h' : KeptE t u) : KeptE s u :=
  ⟨h.toKept.trans h'.toKept, h'.2.trans h.2, h'.3.trans h.3, h'.4.trans h.4⟩

theorem keptE_onlyWriter {s t} (h : onlyWriter s t) : KeptE s t := by
  unfold onlyWriter at h; rw [h]; exact (by repeat' constructor)

theorem keptE_onlyDecoder {s t} (h : onlyDecoder s t) : KeptE s t := by
  unfold onlyDecoder at h; rw [h]; exact (by repeat' constructor)

theorem keptE_onlyReader {s t} (h : onlyReader s t) : KeptE s t := by
  unfold onlyReader at h; rw [h]; exact (by repeat' constructor)

theorem keptE_putOutBytes (a bs s) : KeptE s (putOutBytes a bs s) := by
  rw [putOutBytes_eq]; exact (by repeat' constructor)

theorem keptE_bwFinish (s) : KeptE s (bwFinish s) := by
  rw [bwFinish_eq]; exact (by repeat' constructor)

theorem foldlM_only {bytes : List Byte} {s t} (h : bytes.foldlM (fun x b =>
    bwWriteCode b x) s = .ok t) : onlyWriter s t := by
  rw [foldlM_bwWriteCode] at h; exact bwWriteBits_only h

theorem compressFull_kept {s t} (h : compressFull s = .ok t) : KeptE s t := by
  unfold compressFull at h
  obtain ⟨-, h⟩ := require_bind_ok_iff.mp h
  obtain ⟨v, hv, h⟩ := bind_ok_iff.mp h
  cases h
  refine KeptE.trans ?_ (KeptE.trans (keptE_bwFinish v) (by repeat' constructor))
  refine KeptE.trans ?_ (keptE_onlyWriter (foldlM_only hv))
  refine KeptE.trans ?_ (u := bwInit _ _) (KeptE.trans (keptE_putOutBytes 0 _ _) (by repeat' constructor))
  exact (by repeat' constructor)

theorem decompressPayload_kept {n l s t} (h : decompressPayload n l s = .ok t) : KeptE s t := by
  rw [decompressPayload_eq] at h
  obtain ⟨-, h⟩ := require_bind_ok_iff.mp h
  obtain ⟨-, h⟩ := require_bind_ok_iff.mp h
  obtain ⟨-, h⟩ := require_bind_ok_iff.mp h
  obtain ⟨-, h⟩ := require_bind_ok_iff.mp h
  obtain ⟨⟨k, v⟩, hv, h⟩ := bind_ok_iff.mp h
  obtain ⟨-, h⟩ := require_bind_ok_iff.mp h
  cases h
  refine KeptE.trans (t := payloadStart l (le32In s (6 + 5 * l.length)) s) (by repeat' constructor) ?_
  exact KeptE.trans (keptE_onlyDecoder (decodeLoop_only hv)) (by repeat' constructor)

/-- The frame common to all commands that end without error. -/
theorem body_kept {i s t} (h : bodyOf i s = .ok t) : KeptE s t := by
  cases i with
  | nop => cases h; exact KeptE.refl s
  | clear | tblRead _ => cases h; exact (by repeat' constructor)
  | nodeRead _ =>
    obtain ⟨-, h⟩ := require_bind_ok_iff.mp h
    obtain ⟨-, h⟩ := require_bind_ok_iff.mp h
    cases h; exact (by repeat' constructor)
  | freqBuild | codeGen | bwInit =>
    obtain ⟨-, h⟩ := require_bind_ok_iff.mp h
    cases h; exact (by repeat' constructor)
  | treeBuild | brInit =>
    obtain ⟨-, h⟩ := require_bind_ok_iff.mp h
    obtain ⟨-, h⟩ := require_bind_ok_iff.mp h
    cases h; exact (by repeat' constructor)
  | bwWriteBit b =>
    obtain ⟨-, h⟩ := require_bind_ok_iff.mp h
    exact keptE_onlyWriter (bwWriteBit_only h)
  | bwWriteCode sym =>
    obtain ⟨-, h⟩ := require_bind_ok_iff.mp h
    obtain ⟨-, h⟩ := require_bind_ok_iff.mp h
    obtain ⟨-, h⟩ := require_bind_ok_iff.mp h
    exact keptE_onlyWriter (bwWriteBits_only h)
  | bwFinish =>
    obtain ⟨-, h⟩ := require_bind_ok_iff.mp h
    cases h
    exact (keptE_bwFinish s).trans (by repeat' constructor)
  | brReadBit =>
    obtain ⟨-, h⟩ := require_bind_ok_iff.mp h
    obtain ⟨⟨b, u⟩, hu, h⟩ := bind_ok_iff.mp h
    cases h
    exact (keptE_onlyReader (brReadBit_only hu)).trans (by repeat' constructor)
  | brDecodeSym =>
    obtain ⟨-, h⟩ := require_bind_ok_iff.mp h
    obtain ⟨-, h⟩ := require_bind_ok_iff.mp h
    obtain ⟨⟨a, n, u⟩, hu, h⟩ := bind_ok_iff.mp h
    cases h
    exact (keptE_onlyReader (walkSymbol_only hu)).trans (by repeat' constructor)
  | compress =>
    obtain ⟨-, h⟩ := require_bind_ok_iff.mp h
    dsimp only at h
    have h0 : KeptE s (freqBuild (clearDerived s)) := (by repeat' constructor)
    split at h
    · cases h
      exact h0.trans ((keptE_putOutBytes 0 _ _).trans (by repeat' constructor))
    · exact h0.trans (compressFull_kept h)
  | decompress =>
    have h0 : KeptE s (clearDerived s) := (by repeat' constructor)
    obtain ⟨-, h⟩ := require_bind_ok_iff.mp h
    dsimp only at h
    obtain ⟨-, h⟩ := require_bind_ok_iff.mp h
    obtain ⟨-, h⟩ := require_bind_ok_iff.mp h
    obtain ⟨-, h⟩ := require_bind_ok_iff.mp h
    split at h
    · obtain ⟨-, h⟩ := require_bind_ok_iff.mp h
      cases h
      exact (by repeat' constructor)
    · unfold decompressFull at h
      obtain ⟨-, h⟩ := require_bind_ok_iff.mp h
      obtain ⟨-, h⟩ := require_bind_ok_iff.mp h
      obtain ⟨-, h⟩ := require_bind_ok_iff.mp h
      obtain ⟨l, -, h⟩ := bind_ok_iff.mp h
      exact h0.trans (decompressPayload_kept h)

theorem kept_error (c s) : Kept s (errorEntry c s) := ⟨rfl, rfl, rfl, rfl, rfl, rfl, rfl, rfl, rfl, rfl, rfl, rfl, rfl⟩

/-- The frame common to all commands. -/
theorem exec_kept {i s t} (h : exec i s = .next t) : Kept s t := by
  rw [exec_eq_runBody] at h
  rcases runBody_cases h with h | ⟨c, -, rfl⟩
  · exact (body_kept h).toKept
  · exact kept_error c s

/-- The one error of `bw_write_bit()` (R185). -/
theorem bwWriteBits_err {bs s c} (h : bwWriteBits bs s = .error c) : c = .capacity .outOver := by
  induction bs generalizing s with
  | nil => cases h
  | cons b rest ih =>
    rw [bwWriteBits_cons] at h
    rcases bind_error_iff.mp h with h | ⟨u, hu, h⟩
    · rcases require_bind_error_iff.mp h with ⟨-, h⟩ | ⟨-, h⟩
      · exact h
      · cases h
    · exact ih h

theorem brReadBit_err {s c} (h : brReadBit s = .error c) : c = .endOfStream := by
  rcases require_bind_error_iff.mp h with ⟨-, h⟩ | ⟨-, h⟩
  · exact h
  · cases h

theorem walkFrom_err {left cur n s c} (h : walkFrom left cur n s = .error c) : c = .endOfStream := by
  induction left generalizing cur n s with
  | zero => unfold walkFrom at h; split at h <;> cases h; rfl
  | succ left ih =>
    unfold walkFrom at h
    split at h
    · cases h
    · rcases bind_error_iff.mp h with h | ⟨⟨b, u⟩, hu, h⟩
      · exact brReadBit_err h
      · exact ih h

/-- The errors of `walk_symbol()` (R194). -/
theorem walkSymbol_err {s c} (h : walkSymbol s = .error c) : c = .endOfStream ∨ c = .corruptHeader .invalidCode := by
  unfold walkSymbol at h
  split at h
  · rcases bind_error_iff.mp h with h | ⟨⟨b, u⟩, hu, h⟩
    · exact .inl (brReadBit_err h)
    · rcases require_bind_error_iff.mp h with ⟨-, h⟩ | ⟨-, h⟩
      · exact .inr h
      · cases h
  · exact .inl (walkFrom_err h)

/-- The errors of the decode loop (R243 to R245). -/
theorem decodeLoop_err {left k s c} (h : decodeLoop left k s = .error c) :
    c = .corruptHeader .countMismatch ∨ c = .corruptHeader .invalidCode ∨ c = .truncatedPayload .endsMidCode := by
  induction left generalizing k s with
  | zero => unfold decodeLoop at h; split at h <;> cases h; exact .inl rfl
  | succ left ih =>
    unfold decodeLoop at h
    split at h
    · rcases bind_error_iff.mp h with h | ⟨⟨b, u⟩, hu, h⟩
      · cases hw : walkSymbol s with
        | ok r => rw [hw] at h; cases h
        | error e =>
          rw [hw] at h
          rcases walkSymbol_err hw with rfl | rfl <;> cases h
          · exact .inr (.inr rfl)
          · exact .inr (.inl rfl)
      · exact ih h
    · cases h

/-- The errors of the entries (R235). -/
theorem entries_err {s m l c} (h : (List.range m).foldlM (entryStep s) l = .error c) :
    c = .corruptHeader .dupSymbol ∨ c = .corruptHeader .zeroFreq := by
  generalize List.range m = r at h
  induction r generalizing l with
  | nil => cases h
  | cons i rest ih =>
    rw [List.foldlM_cons] at h
    rcases bind_error_iff.mp h with h | ⟨l', hu, h⟩
    · rcases require_bind_error_iff.mp h with ⟨-, h⟩ | ⟨-, h⟩
      · exact .inl h
      · rcases require_bind_error_iff.mp h with ⟨-, h⟩ | ⟨-, h⟩
        · exact .inr h
        · cases h
    · exact ih h

/-- A next state without error: the body ended. -/
theorem body_ok_of {i s t} (h : exec i s = .next t) (ht : t.err = false) : bodyOf i s = .ok t := by
  rw [exec_eq_runBody] at h
  rcases runBody_cases h with h | ⟨c, h, rfl⟩
  · exact h
  · cases ht

/-- A next state with an error: the body raised. -/
theorem body_error_of {i s t} (h : exec i s = .next t) (hs : s.err = false) (ht : t.err = true) :
    ∃ c, bodyOf i s = .error c ∧ t = errorEntry c s := by
  rw [exec_eq_runBody] at h
  rcases runBody_cases h with h | ⟨c, h, e⟩
  · have := (body_kept h).err; rw [hs, ht] at this; cases this
  · exact ⟨c, h, e⟩

/-- The result registers a command does not name are 0 (R45). -/
theorem setRes_zero (vals : List Word) (s : State) (k) (hk : k < 10) (h : vals.length ≤ k) :
    (setRes vals s).res[k] = 0 := by
  simp [setRes, List.getElem?_eq_none h]

/-- `E` of rule R240 is the bit total of the rebuilt code table. -/
theorem listBits_eq (l : SymFreqs) (s : State) : listBits l s = bitTotal (codeGen (treeBuild l s)) l := by
  simp only [listBits, bitTotal, listCode, length_codeBits]

end Sys2Proof.Machine
end

