-- ==== Sys2Proof/Laws/Merge.lean ====
section
/-! SUPPORT. The arena of `tree_build(L)` meets the rules' own description of it (rules R152 to R156), its root weighs the
sum of the counts (R160), and the list of present symbols is the only one of rule R154. -/

namespace Sys2Proof.Machine

theorem toNat_ofNat9 {x : Nat} (h : x < 512) : (BitVec.ofNat 9 x).toNat = x := by
  rw [BitVec.toNat_ofNat]; exact Nat.mod_eq_of_lt h

/-- The state's node at a handle of the finished arena. -/
theorem nodeAt_arena {l : SymFreqs} (g : GoodList l) (s : State) {x : Nat} (hx : x < 2 * l.length - 1) :
    ∃ n, (buildArena l).1[x]? = some n ∧ (treeBuild l s).nodeAt (BitVec.ofNat 9 x) = n := by
  have hlen := (buildArena_spec g.nonempty g.small).2.1
  have hl := g.small
  refine ⟨(buildArena l).1[x], List.getElem?_eq_getElem (by omega), nodeAt_treeBuild g.nonempty g.small s ?_⟩
  rw [toNat_ofNat9 (by omega)]
  exact List.getElem?_eq_getElem (by omega)

theorem hasChild_arena {l : SymFreqs} (g : GoodList l) (s : State) {m x : Handle} (hm : m.toNat < 2 * l.length - 1) :
    hasChild (treeBuild l s) m x ↔ isChild (buildArena l).1 m.toNat x.toNat := by
  obtain ⟨n, hn, hnode⟩ := nodeAt_arena g s hm
  have e : BitVec.ofNat 9 m.toNat = m := by simp
  rw [e] at hnode
  unfold hasChild isChild
  rw [hnode, hn]
  constructor
  · rintro ⟨h1, h2⟩; exact ⟨n, rfl, h1, h2.imp (congrArg _) (congrArg _)⟩
  · rintro ⟨n', h0, h1, h2⟩
    obtain rfl := Option.some.inj h0
    exact ⟨h1, h2.imp BitVec.eq_of_toNat_eq BitVec.eq_of_toNat_eq⟩

theorem inQueue_arena {l : SymFreqs} (g : GoodList l) (s : State) {m x : Handle} (hm : m.toNat < 2 * l.length - 1) :
    inQueue (treeBuild l s) m x ↔ x.toNat < m.toNat ∧ ∀ m' < m.toNat, ¬ isChild (buildArena l).1 m' x.toNat := by
  have hl := g.small
  unfold inQueue
  rw [BitVec.lt_def]
  refine and_congr Iff.rfl ⟨fun h m' hm' hc => ?_, fun h m' hm' hc => ?_⟩
  · refine h (BitVec.ofNat 9 m') ?_ ?_
    · rw [BitVec.lt_def, toNat_ofNat9 (by omega)]; exact hm'
    · rw [hasChild_arena g s (by rw [toNat_ofNat9 (by omega)]; omega), toNat_ofNat9 (by omega)]; exact hc
  · rw [BitVec.lt_def] at hm'
    rw [hasChild_arena g s (by omega)] at hc
    exact h m'.toNat hm' hc

theorem precedes_arena {l : SymFreqs} (g : GoodList l) (s : State) {x y : Handle} (hx : x.toNat < 2 * l.length - 1)
    (hy : y.toNat < 2 * l.length - 1) :
    precedes (treeBuild l s) x y ↔ comesBefore (buildArena l).1 x.toNat y.toNat = true := by
  obtain ⟨n, hn, hnode⟩ := nodeAt_arena g s hx
  obtain ⟨n', hn', hnode'⟩ := nodeAt_arena g s hy
  have e : BitVec.ofNat 9 x.toNat = x := by simp
  have e' : BitVec.ofNat 9 y.toNat = y := by simp
  rw [e] at hnode
  rw [e'] at hnode'
  rw [comesBefore_iff, precedes, hnode, hnode', arenaWeight_of_get hn, arenaWeight_of_get hn', BitVec.lt_def (x := x)]

/-- NODE after `tree_build(L)` is the merge of rule R152. -/
theorem treeBuild_merged {l : SymFreqs} (g : GoodList l) (s : State) : MergedFrom l (treeBuild l s) := by
  have hl := g.small
  obtain ⟨inv, hlen, hq⟩ := buildArena_spec g.nonempty hl
  have hsum := buildArena_sum g.nonempty hl
  refine ⟨treeBuild_nodeCount_toNat g.nonempty hl s, treeBuild_root_toNat g.nonempty hl s, fun i hi => ?_,
    fun m hm hm' => ?_⟩
  · exact nodeAt_treeBuild g.nonempty hl s (by rw [toNat_ofNat9 (by omega)]; exact inv.leaf i hi)
  · obtain ⟨n, a, b, hn, hnl, hs, e1, e2, ha, hb, hab, hw, hfa, hfb, hmin⟩ := inv.merged m.toNat hm (by omega)
    have hnode := nodeAt_treeBuild g.nonempty hl s hn
    have l1 : n.left.toNat = a := by rw [e1]; exact toNat_ofNat9 (by omega)
    have l2 : n.right.toNat = b := by rw [e2]; exact toNat_ofNat9 (by omega)
    obtain ⟨na, hna, hna'⟩ := nodeAt_arena g s (x := a) (by omega)
    obtain ⟨nb, hnb, hnb'⟩ := nodeAt_arena g s (x := b) (by omega)
    rw [hnode]
    refine ⟨hnl, hs, ?_, ?_, ?_, ?_, ?_⟩
    · rw [hsum.exact m.toNat n hn hnl, l1, l2, arenaWeight_of_get hna, arenaWeight_of_get hnb, e1, e2, hna', hnb']
    · rw [inQueue_arena g s hm', l1]; exact ⟨ha, hfa⟩
    · rw [inQueue_arena g s hm', l2]; exact ⟨hb, hfb⟩
    · rw [ne_eq, ← BitVec.toNat_inj, l1, l2]; exact hab
    · intro x hx
      rw [inQueue_arena g s hm'] at hx
      obtain ⟨h1, h2⟩ := hmin x.toNat hx.1 hx.2
      rw [precedes_arena g s (by rw [l1]; omega) (by omega), precedes_arena g s (by rw [l2]; omega) (by omega), l1, l2]
      refine ⟨fun hne => h1 fun h => hne ?_, fun hne hne' => h2 (fun h => hne ?_) (fun h => hne' ?_)⟩
      · exact BitVec.eq_of_toNat_eq (by rw [l1]; exact h)
      · exact BitVec.eq_of_toNat_eq (by rw [l1]; exact h)
      · exact BitVec.eq_of_toNat_eq (by rw [l2]; exact h)

/-- `NODE[ROOT].WEIGHT` is the sum of the counts (R160). -/
theorem treeBuild_rootWeight {l : SymFreqs} (g : GoodList l) (s : State) :
    ((treeBuild l s).nodeAt (treeBuild l s).root).weight.toNat = (l.map fun e => e.2.toNat).sum := by
  have hl := g.small
  have hpos : 0 < l.length := List.length_pos_iff.mpr g.nonempty
  obtain ⟨inv, hlen, hq⟩ := buildArena_spec g.nonempty hl
  have hsum := (buildArena_sum g.nonempty hl).sum
  rw [hq] at hsum
  obtain ⟨n, hn, hnode⟩ := nodeAt_arena g s (x := 2 * l.length - 2) (by omega)
  have hr : (treeBuild l s).root = BitVec.ofNat 9 (2 * l.length - 2) := by
    apply BitVec.eq_of_toNat_eq
    rw [treeBuild_root_toNat g.nonempty hl s, toNat_ofNat9 (by omega)]
  rw [hr, hnode]
  simpa [arenaWeight_of_get hn] using hsum

/-- MergedFrom depends on three parts of the state. -/
theorem MergedFrom.congr {l : SymFreqs} {s t : State} (h : MergedFrom l s) (hn : t.nodeAt = s.nodeAt)
    (hr : t.root = s.root) (hc : t.nodeCount = s.nodeCount) : MergedFrom l t := by
  have h1 : hasChild t = hasChild s := by funext m x; simp only [hasChild, hn]
  have h2 : inQueue t = inQueue s := by funext m x; simp only [inQueue, h1]
  have h3 : precedes t = precedes s := by funext m x; simp only [precedes, hn]
  constructor
  · rw [hc]; exact h.count
  · rw [hr]; exact h.root
  · rw [hn]; exact h.leaf
  · rw [hn, h2, h3]; exact h.merge

theorem listsPresent_presentSymbols (s : State) : listsPresent (presentSymbols s.freq) s :=
  ⟨(presentSymbols_ascending _).imp fun h => BitVec.lt_def.mpr h, fun _ =>
    ⟨fun h => ⟨(mem_presentSymbols.mp h).2, (mem_presentSymbols.mp h).1⟩,
      fun h => mem_presentSymbols.mpr ⟨h.2, h.1⟩⟩⟩

/-- Ascending order and membership fix the list (R154). -/
theorem listsPresent_unique {l l' : SymFreqs} {s : State} (h : listsPresent l s) (h' : listsPresent l' s) : l = l' := by
  have nd : ∀ {l : SymFreqs}, listsPresent l s → l.Nodup := fun h =>
    h.1.imp fun {x y} hlt he => by rw [he, BitVec.lt_def] at hlt; omega
  have hp : l.Perm l' := (List.perm_ext_iff_of_nodup (nd h) (nd h')).mpr fun e => (h.2 e).trans (h'.2 e).symm
  refine hp.eq_of_pairwise (fun a b _ _ h1 h2 => ?_) h.1 h'.1
  rw [BitVec.lt_def] at h1 h2; omega

end Sys2Proof.Machine
end

