-- ==== Sys2Proof/Laws/Compress.lean ====
section
/-! SUPPORT. COMPRESS as a function of its input: the list, the tables, the size and the container (rules R110, R213
to R216). -/

namespace Sys2Proof.Machine

/-- The body of COMPRESS as a chain of tests. -/
theorem compress_eq (s : State) : bodyOf .compress s = (require (s.inLen.toNat ≤ s.params.inCap)
    (.capacity .inLenOver) >>= fun _ =>
    if s.inLen = 0 then .ok { putOutBytes 0 [0x01, 0x01] (freqBuild (clearDerived s)) with outLen := 2 }
    else compressFull (freqBuild (clearDerived s))) := rfl

/-- The state of COMPRESS after the counting pass. -/
def counted (s : State) : State := freqBuild (clearDerived s)

theorem counted_freq (s : State) : (counted s).freq = countBytes (inBytes (counted s) (counted s).inLen.toNat) := rfl

/-- `need` of rule R213, as COMPRESS computes it. -/
theorem compressedSize_eq {s : State} (hne : s.inLen ≠ 0) :
    compressedSize s = headerSize (inputList s).length + ceilDiv8 (bitTotal (codeGen (treeBuild (inputList s)
        (counted s))) (inputList s)) := by
  have hp : inputList s ≠ [] := presentSymbols_ne_nil (counted_freq s) hne
  have g : GoodList (inputList s) := GoodList.present hp
  rw [compressedSize, listBits_eq, bitTotal_indep g s (counted s)]; rfl

/-- OUT holds the bytes `bs` from `a` on. -/
def outHas (s : State) (a : Nat) (bs : List Byte) : Prop := ∀ i (h : i < bs.length), s.outAt (a + i) = bs[i]

theorem outHas_append {s : State} {a : Nat} {bs cs : List Byte} :
    outHas s a (bs ++ cs) ↔ outHas s a bs ∧ outHas s (a + bs.length) cs := by
  constructor
  · intro h
    refine ⟨fun i hi => ?_, fun i hi => ?_⟩
    · rw [h i (by simp; omega), List.getElem_append_left hi]
    · rw [show a + bs.length + i = a + (bs.length + i) by omega, h (bs.length + i) (by simp; omega),
        List.getElem_append_right (by omega)]
      simp
  · rintro ⟨h1, h2⟩ i hi
    rcases Nat.lt_or_ge i bs.length with hlt | hge
    · rw [h1 i hlt, List.getElem_append_left hlt]
    · have := h2 (i - bs.length) (by simp at hi; omega)
      rw [show a + bs.length + (i - bs.length) = a + i by omega] at this
      rw [this, List.getElem_append_right hge]

theorem outHas_entries {s : State} {a : Nat} {l : SymFreqs} (h : outHas s a (l.flatMap entryBytes)) {i : Nat}
    (hi : i < l.length) : outHas s (a + 5 * i) (entryBytes l[i]) := by
  induction l generalizing a i with
  | nil => simp at hi
  | cons e rest ih =>
    rw [List.flatMap_cons, outHas_append] at h
    obtain ⟨h1, h2⟩ := h
    cases i with
    | zero => exact h1
    | succ j =>
      have hlen : (entryBytes e).length = 5 := by simp [entryBytes, le32Bytes]
      rw [hlen] at h2
      have := ih h2 (i := j) (by simpa using hi)
      rw [show a + 5 * (j + 1) = a + 5 + 5 * j by omega]; exact this

theorem length_entries (l : SymFreqs) : (l.flatMap entryBytes).length = 5 * l.length := by
    have := length_headerBytes l 0
    simp only [headerBytes, List.length_append, headerSize, le32Bytes, List.length_cons, List.length_nil] at this
    omega

theorem le32Out_of {s : State} {a v : Nat} (hv : v < 2 ^ 32) (h : ∀ i (h : i < (le32Bytes v).length),
    s.outAt (a + i) = (le32Bytes v)[i]) : le32Out s a = v := by
  have h0 := h 0 (by simp [le32Bytes])
  have h1 := h 1 (by simp [le32Bytes])
  have h2 := h 2 (by simp [le32Bytes])
  have h3 := h 3 (by simp [le32Bytes])
  simp only [Nat.add_zero] at h0
  rw [le32Out, h0, h1, h2, h3]
  exact le32_compose hv

/-- OUT holds the header of rule R110. -/
theorem header_out {s : State} {l : SymFreqs} {B : Nat} (hl : l.length ≤ 256) (hB : B < 2 ^ 32) (h : outHas s 0
    (headerBytes l B)) :
    s.outAt 0 = 1 ∧ s.outAt 1 = 0 ∧ le32Out s 2 = l.length ∧ (∀ i (h : i < l.length), s.outAt (6 + 5 * i) = l[i].1 ∧
        le32Out s (7 + 5 * i) = l[i].2.toNat) ∧
    le32Out s (6 + 5 * l.length) = B := by
  simp only [headerBytes, outHas_append, List.length_append, length_entries] at h
  obtain ⟨⟨⟨h0, h1⟩, h2⟩, h3⟩ := h
  refine ⟨h0 0 (by simp), h0 1 (by simp), le32Out_of (by omega) h1, fun i hi => ?_, le32Out_of hB (by
    have e : 0 + (([1, 0] : List Byte).length + (le32Bytes l.length).length + 5 * l.length) = 6 + 5 * l.length := by
      simp only [le32Bytes, List.length_cons, List.length_nil]; omega
    rw [e] at h3; exact h3)⟩
  have h4 := outHas_entries (a := 6) (by simpa [le32Bytes] using h2) hi
  refine ⟨h4 0 (by simp [entryBytes]), le32Out_of l[i].2.isLt fun j hj => ?_⟩
  have := h4 (j + 1) (by simp [entryBytes]; omega)
  rw [show 7 + 5 * i + j = 6 + 5 * i + (j + 1) by omega, this]
  simp [entryBytes]

/-- COMPRESS of a non-empty input that fits. -/
theorem compress_ok {s : State} (hne : s.inLen ≠ 0) (hcap : s.inLen.toNat ≤ s.params.inCap)
    (hsize : compressedSize s ≤ s.params.outCap) :
    ∃ v, bodyOf .compress s = .ok v ∧ Compressed (inputList s) (payloadBits (codeGen (treeBuild (inputList s)
        (counted s))) s) (codeGen (treeBuild (inputList s) (counted s))) v := by
  rw [compressedSize_eq hne] at hsize
  obtain ⟨v, hv, hc⟩ := (compressFull_spec (s := counted s) (counted_freq s)).2 hsize
  refine ⟨v, ?_, hc⟩
  rw [compress_eq, require_bind_pos hcap, if_neg hne]; exact hv

/-- The state of COMPRESS with the tables of a non-empty input. -/
def tablesOf (s : State) : State := codeGen (treeBuild (inputList s) (counted s))

theorem inputList_ne {s : State} (h : s.inLen ≠ 0) : inputList s ≠ [] := presentSymbols_ne_nil (counted_freq s) h

theorem inputList_good {s : State} (h : s.inLen ≠ 0) : GoodList (inputList s) := GoodList.present (inputList_ne h)

/-- The counts of the list are those of the input. -/
theorem inputList_mem {s : State} {e} (he : e ∈ inputList s) : e.2.toNat = (inBytes s s.inLen.toNat).count e.1 := by
  have hlen : (inBytes s s.inLen.toNat).length < 2 ^ 32 := by rw [length_inBytes]; exact s.inLen.isLt
  obtain ⟨-, h2⟩ := mem_presentSymbols.mp he
  rw [← countBytes_toNat hlen e.1, ← h2]

/-- Every input byte is listed. -/
theorem inputList_covers {s : State} : ∀ b ∈ inBytes s s.inLen.toNat, ∃ e ∈ inputList s, e.1 = b := by
  intro b hb
  have hlen : (inBytes s s.inLen.toNat).length < 2 ^ 32 := by rw [length_inBytes]; exact s.inLen.isLt
  refine ⟨(b, (countBytes (inBytes s s.inLen.toNat))[b.toNat]), mem_presentSymbols.mpr ⟨?_, rfl⟩, rfl⟩
  intro h0
  have := countBytes_toNat hlen b
  rw [← List.count_pos_iff] at hb
  dsimp only at h0
  rw [h0] at this
  simp at this
  omega

/-- The counts sum to the input length (R142). -/
theorem inputList_sum (s : State) : declaredLength (inputList s) = s.inLen.toNat := by
  have := sum_count_eq (fun _ => 1) (inputList s) (presentSymbols_nodup _) (inBytes s s.inLen.toNat) (fun e he =>
      inputList_mem he) inputList_covers
  simp only [Nat.mul_one] at this
  rw [declaredLength, this]
  simp

/-- The two ways COMPRESS ends without error (R213). -/
theorem compress_cases {s t} (h : bodyOf .compress s = .ok t) : s.inLen.toNat ≤ s.params.inCap ∧
    ((s.inLen = 0 ∧ t = { putOutBytes 0 [0x01, 0x01] (counted s) with outLen := 2 }) ∨
    (s.inLen ≠ 0 ∧ compressedSize s ≤ s.params.outCap ∧ Compressed (inputList s) (payloadBits (tablesOf s) s)
        (tablesOf s) t)) := by
  rw [compress_eq] at h
  obtain ⟨h1, h⟩ := require_bind_ok_iff.mp h
  refine ⟨h1, ?_⟩
  by_cases h0 : s.inLen = 0
  · rw [if_pos h0] at h; cases h; exact .inl ⟨h0, rfl⟩
  · rw [if_neg h0] at h
    right
    rcases Nat.lt_or_ge s.params.outCap (compressedSize s) with hs | hs
    · have hs' := hs
      rw [compressedSize_eq h0] at hs
      have := (compressFull_spec (s := counted s) (counted_freq s)).1 hs
      rw [show freqBuild (clearDerived s) = counted s from rfl, this] at h; cases h
    · refine ⟨h0, hs, ?_⟩
      obtain ⟨v, hv, hc⟩ := compress_ok h0 h1 hs
      rw [compress_eq, require_bind_pos h1, if_neg h0, h] at hv
      cases hv; exact hc

/-- The payload is as long as the bit total. -/
theorem payload_len (s : State) : (payloadBits (tablesOf s) s).length = listBits (inputList s) (counted s) := by
  rw [listBits_eq]; exact (bitTotal_eq_payload (s := counted s) (counted_freq s)).symm

/-- A byte is its eight stream bits. -/
theorem byte_of_bits {a b : Byte} (h : ∀ k < 8, a.getLsbD (7 - k) = b.getLsbD (7 - k)) : a = b := by
  apply BitVec.eq_of_getLsbD_eq
  intro i hi
  have := h (7 - i) (by omega)
  rwa [show 7 - (7 - i) = i by omega] at this

/-- The container is a function of the list and the payload. -/
theorem Compressed.out_same {l bits t t' v v'} (h : Compressed l bits t v) (h' : Compressed l bits t' v') {a : Nat}
    (ha : a < headerSize l.length + ceilDiv8 bits.length) : v.outAt a = v'.outAt a := by
  rcases Nat.lt_or_ge a (headerSize l.length) with hlt | hge
  · rw [h.header a (by rw [length_headerBytes]; exact hlt), h'.header a (by rw [length_headerBytes]; exact hlt)]
  · apply byte_of_bits
    intro k hk
    have e := (h.payload (8 * (a - headerSize l.length) + k) (by omega)).trans (h'.payload (8 *
        (a - headerSize l.length) + k) (by omega)).symm
    simp only [outStreamBit, streamByte, streamBit] at e
    rw [show headerSize l.length + (8 * (a - headerSize l.length) + k) / 8 = a by omega,
      show (8 * (a - headerSize l.length) + k) % 8 = k by omega] at e
    exact e

/-- The fields of the state after COMPRESS. -/
theorem Compressed.proj {l bits t v} (h : Compressed l bits t v) : v.err = t.err ∧ v.errCode = t.errCode ∧
    v.errInfo = t.errInfo ∧
   v.outLen = BitVec.ofNat 32 (headerSize l.length + ceilDiv8 bits.length) ∧ v.symCount = t.symCount ∧
       v.bitCount = BitVec.ofNat 32 bits.length ∧
   v.nodeCount = t.nodeCount ∧ v.root = t.root ∧ v.bwTotal = BitVec.ofNat 32 bits.length ∧ v.brPos = t.brPos ∧
       v.freqValid = t.freqValid ∧
   v.treeValid = t.treeValid ∧ v.codeValid = t.codeValid ∧ v.bwOpen = false ∧ v.brOpen = t.brOpen ∧ v.freq = t.freq ∧
       v.codeLen = t.codeLen ∧ v.codeVal = t.codeVal ∧ v.node = t.node := by
  rw [h.fields]
  exact ⟨rfl, rfl, rfl, rfl, rfl, rfl, rfl, rfl, rfl, rfl, rfl, rfl, rfl, rfl, rfl, rfl, rfl, rfl, rfl⟩

/-- The other fields of that state. -/
theorem tablesOf_proj (s : State) : (tablesOf s).err = s.err ∧ (tablesOf s).errCode = s.errCode ∧
    (tablesOf s).errInfo = s.errInfo ∧ (tablesOf s).brPos = 0 ∧ (tablesOf s).freqValid = true ∧
    (tablesOf s).treeValid = true ∧ (tablesOf s).codeValid = true ∧ (tablesOf s).brOpen = false :=
  ⟨by simp [tablesOf, counted], by simp [tablesOf, counted], by simp [tablesOf, counted], rfl, rfl, rfl, rfl, rfl⟩

end Sys2Proof.Machine
end

