-- ==== Sys2Proof/Laws/Walk.lean ====
section
/-! SUPPORT. The walk of the tree where it does not end in a leaf, and the decode loop over a payload with more bits
behind the symbols decoded (rules R194, R243 to R245). -/

namespace Sys2Proof.Machine

/-- A walk that ends has followed the bits of a path to a leaf. -/
theorem walkFrom_inv {left cur n s a m t} (h : walkFrom left cur n s = .ok (a, m,
    t)) (hl : left = s.brLim.toNat - s.brPos.toNat) (hpos : s.brPos.toNat ≤ s.brLim.toNat) :
    ∃ p g, leadsTo s cur p g ∧ (s.nodeAt g).isLeaf = true ∧ (s.nodeAt g).sym = a ∧ streamHas s p ∧
        s.brPos.toNat + p.length ≤ s.brLim.toNat ∧ m = n + p.length ∧ t = readBits p.length s := by
  induction left generalizing cur n s with
  | zero =>
    unfold walkFrom at h
    split at h
    · cases h
      exact ⟨[], cur, rfl, by assumption, rfl, fun i hi => by simp at hi, hpos, rfl, (readBits_zero _).symm⟩
    · cases h
  | succ left ih =>
    unfold walkFrom at h
    split at h
    · cases h
      exact ⟨[], cur, rfl, by assumption, rfl, fun i hi => by simp at hi, hpos, rfl, (readBits_zero _).symm⟩
    · rename_i hleaf
      have hlt : s.brPos.toNat < s.brLim.toNat := by omega
      rw [brReadBit_ok hlt, ok_bind] at h
      dsimp only at h
      obtain ⟨p, g, h1, h2, h3, h4, h5, h6, h7⟩ := ih h
          (by simp only [skipBit_brPos, skipBit_brLim, brPos_succ hlt]; omega)
          (by simp only [skipBit_brPos, skipBit_brLim, brPos_succ hlt]; omega)
      have hn : (skipBit s).nodeAt = s.nodeAt := nodeAt_congr rfl
      rw [leadsTo_congr hn] at h1
      refine ⟨inStreamBit s s.brOrg.toNat s.brPos.toNat :: p, g, ⟨by simpa using hleaf, h1⟩, h2, h3,
          (streamHas_cons hlt).mpr ⟨rfl, h4⟩, ?_, ?_, ?_⟩
      · simp only [skipBit_brPos, skipBit_brLim, brPos_succ hlt] at h5
        simp only [List.length_cons]; omega
      · simp only [List.length_cons]; omega
      · rw [h7, readBits_succ hlt, List.length_cons]

/-- Where the stream ends inside every code that agrees with it, `walk_symbol()` raises (R194). -/
theorem walkSymbol_eos {s : State} {k} (ts : TreeShape s k) (hk : 1 < k) (hpos : s.brPos.toNat ≤ s.brLim.toNat)
    (h : ∀ p sym, isCodeOf s p sym → streamHas s p →
        s.brLim.toNat < s.brPos.toNat + p.length) : walkSymbol s = .error .endOfStream := by
  have hroot : (s.nodeAt s.root).isLeaf = false := (ts.internal s.root (by have := ts.rootLast; omega) ts.root_lt).1
  unfold walkSymbol
  rw [if_neg (by simp [hroot])]
  cases hw : walkFrom (s.brLim.toNat - s.brPos.toNat) s.root 0 s with
  | error e => rw [walkFrom_err hw]
  | ok r =>
    obtain ⟨a, m, t⟩ := r
    obtain ⟨p, g, h1, h2, h3, h4, h5, -, -⟩ := walkFrom_inv hw rfl hpos
    have := h p a (by unfold isCodeOf; rw [if_neg (by simp [hroot])]; exact ⟨g, h1, h2, h3⟩) h4
    omega

/-- At the end of the stream `walk_symbol()` raises. -/
theorem walkSymbol_end {s : State} (h : s.brLim.toNat ≤ s.brPos.toNat) : walkSymbol s = .error .endOfStream := by
  unfold walkSymbol
  split
  · rw [brReadBit_end h]; rfl
  · rename_i hl
    rw [show s.brLim.toNat - s.brPos.toNat = 0 by omega]
    unfold walkFrom
    rw [if_neg hl]

/-- A 1 bit where ROOT is a leaf (R194). -/
theorem walkSymbol_invalid {s : State} (hl : (s.nodeAt s.root).isLeaf = true) (h : s.brPos.toNat < s.brLim.toNat)
    (hb : inStreamBit s s.brOrg.toNat s.brPos.toNat = true) : walkSymbol s = .error (.corruptHeader .invalidCode) := by
  unfold walkSymbol
  rw [if_pos hl, brReadBit_ok h, hb, ok_bind]
  exact require_bind_neg (by simp) _

/-- The decode loop over the codes of `xs`, with more bits behind them. -/
theorem decodeLoop_tail {code : Byte → List Bool} {xs : List Byte} {rest : List Bool} {left k : Nat} {s : State}
    (hcode : ∀ b ∈ xs, isCodeOf s (code b) b ∧ code b ≠ []) (hs : streamHas s (xs.flatMap code ++ rest))
    (hlim : s.brPos.toNat + (xs.flatMap code ++ rest).length = s.brLim.toNat) (hleft : xs.length ≤ left) :
    decodeLoop left k s = decodeLoop (left - xs.length) (k + xs.length) (putOutBytes k xs (readBits
        (xs.flatMap code).length s)) := by
  induction xs generalizing left k s with
  | nil => simp [putOutBytes, readBits_zero]
  | cons b bs ih =>
    obtain ⟨left, rfl⟩ : ∃ m, left = m + 1 := ⟨left - 1, by simp only [List.length_cons] at hleft; omega⟩
    obtain ⟨hb, hbne⟩ := hcode b List.mem_cons_self
    have hblen : 0 < (code b).length := List.length_pos_iff.mpr hbne
    rw [List.flatMap_cons, List.append_assoc] at hs hlim
    rw [List.length_append] at hlim
    have hfit : s.brPos.toNat + (code b).length ≤ s.brLim.toNat := by omega
    have hlt : s.brPos < s.brLim := by rw [BitVec.lt_def]; omega
    rw [decodeLoop, if_pos hlt, walkSymbol_code hb (streamHas_append hs) hfit, mapError_ok, ok_bind]
    dsimp only
    have hnode : (putOut k b (readBits (code b).length s)).nodeAt = s.nodeAt := nodeAt_congr rfl
    have hpos := readBits_brPos hfit
    rw [ih (s := putOut k b (readBits (code b).length s)) (k := k + 1)
      (fun c hc => ⟨by rw [isCodeOf_congr hnode rfl]; exact (hcode c (List.mem_cons_of_mem _ hc)).1,
        (hcode c (List.mem_cons_of_mem _ hc)).2⟩)
      (streamHas_putOut (streamHas_readBits hs hfit))
      (by
        have h1 : (putOut k b (readBits (code b).length s)).brPos = (readBits (code b).length s).brPos := rfl
        have h2 : (putOut k b (readBits (code b).length s)).brLim = s.brLim := rfl
        rw [h1, h2, hpos]; omega)
      (by simp only [List.length_cons] at hleft; omega)]
    rw [List.flatMap_cons, List.length_append, ← readBits_readBits hfit, List.length_cons,
      show k + 1 + bs.length = k + (bs.length + 1) by omega, putOutBytes_readBits, putOut_readBits,
          putOutBytes_readBits]
    simp only [putOutBytes, putOut_readBits, putOutBytes_readBits]
    congr 1
    omega

end Sys2Proof.Machine
end

