-- ==== Sys2Proof/Laws/Parse.lean ====
section
/-! SUPPORT. The tests of DECOMPRESS in their order, and what a container that passes them gives (rules R233 to R248). -/

namespace Sys2Proof.Machine

/-- The body of DECOMPRESS as a chain of tests. -/
theorem decompress_eq (s : State) : bodyOf .decompress s =
    (require (s.inLen.toNat ≤ s.params.inCap) (.capacity .inLenOver) >>= fun _ =>
     require (2 ≤ s.inLen.toNat) (.corruptHeader .hdrShort) >>= fun _ =>
     require (s.inAt 0 = 0x01) (.corruptHeader .badVersion) >>= fun _ =>
     require ((s.inAt 1).extractLsb' 1 7 = 0) (.corruptHeader .badFlags) >>= fun _ =>
     if (s.inAt 1).getLsbD 0 then
       require (s.inLen.toNat = 2) (.corruptHeader .trailingBytes) >>= fun _ =>
       .ok { clearDerived s with freq := Vector.replicate 256 0, freqValid := true }
     else decompressFull s.inLen.toNat (clearDerived s)) := rfl

/-- Stages 1 and 2 as a chain of tests. -/
theorem decompressFull_eq (n : Nat) (s : State) : decompressFull n s =
    (require (6 ≤ n) (.corruptHeader .hdrShort) >>= fun _ =>
     require (1 ≤ le32In s 2 ∧ le32In s 2 ≤ 256) (.corruptHeader .badCount) >>= fun _ =>
     require (headerSize (le32In s 2) ≤ n) (.corruptHeader .hdrShort) >>= fun _ =>
     parseEntries s (le32In s 2) >>= fun l => decompressPayload n l s) := rfl

theorem flags_zero : ∀ b : Byte, b.extractLsb' 1 7 = 0 ↔ b.toNat ≤ 1 := by decide +kernel

theorem flag0_1 : (1 : Byte).getLsbD 0 = true := rfl

/-- The body of DECOMPRESS after the fixed header. -/
theorem decompress_body_full {s : State} (h : s.inLen.toNat ≤ s.params.inCap) (h0 : s.inAt 0 = 1) (h1 : s.inAt 1 = 0)
    (h2 : 1 ≤ le32In s 2)
    (h3 : le32In s 2 ≤ 256) (h4 : 10 + 5 * le32In s 2 ≤ s.inLen.toNat) :
    bodyOf .decompress s = (parseEntries (clearDerived s) (le32In s 2) >>= fun l => decompressPayload s.inLen.toNat l
        (clearDerived s)) := by
  have hle : le32In (clearDerived s) 2 = le32In s 2 := rfl
  rw [decompress_eq, require_bind_pos h, require_bind_pos (by omega), require_bind_pos h0, h1,
    require_bind_pos (by decide), if_neg (by simp),
    decompressFull_eq, hle, require_bind_pos (by omega), require_bind_pos ⟨h2, h3⟩,
        require_bind_pos (by unfold headerSize; omega)]

/-- The entries before `i`, where they pass. -/
theorem parse_prefix {s : State} (i : Nat) (h : ∀ j < i, le32In s (7 + 5 * j) ≠ 0 ∧ ∀ j' < j,
    s.inAt (6 + 5 * j') ≠ s.inAt (6 + 5 * j)) :
    (List.range i).foldlM (entryStep s) [] = .ok ((List.range i).map fun j => (s.inAt (6 + 5 * j),
        BitVec.ofNat 32 (le32In s (7 + 5 * j)))) := by
  induction i with
  | zero => rfl
  | succ i ih =>
    rw [List.range_succ, List.foldlM_append, ih (fun j hj => h j (by omega)), ok_bind, List.map_append]
    obtain ⟨h1, h2⟩ := h i (by omega)
    simp only [List.foldlM_cons, List.foldlM_nil, bind_pure]
    unfold entryStep
    rw [require_bind_pos (by
      rintro ⟨e, he, hee⟩
      obtain ⟨j, hj, rfl⟩ := List.mem_map.mp he
      exact h2 j (by simpa using hj) hee), require_bind_pos h1]
    rfl

theorem range_split (i n : Nat) (h : i < n) : List.range n = List.range i ++ i :: (List.range (n - i - 1)).map
    (fun k => i + 1 + k) := by
  have e : n = i + (1 + (n - i - 1)) := by omega
  conv => lhs; rw [e, List.range_add]
  congr 1
  rw [List.range_add]
  simp [Function.comp_def, Nat.add_assoc]

/-- A header that passes gives its list. -/
theorem parse_of_HeaderOk {s : State} {l} (h : HeaderOk s l) : parseEntries (clearDerived s) l.length = .ok l := by
  have : ((List.range l.length).map fun j => (s.inAt (6 + 5 * j), BitVec.ofNat 32 (le32In s (7 + 5 * j)))) = l := by
    apply List.ext_getElem
    · simp
    · intro i h1 h2
      obtain ⟨e1, e2⟩ := h.entries i h2
      simp only [List.getElem_map, List.getElem_range, e1, e2]
      simp
  have hp := parse_prefix (s := clearDerived s) l.length (fun j hj => ⟨?_, fun j' hj' => ?_⟩)
  · unfold parseEntries; rw [hp]; exact congrArg _ this
  · show le32In s _ ≠ 0
    rw [(h.entries j hj).2]
    intro h0
    exact h.nonzero l[j] (List.getElem_mem _) (BitVec.eq_of_toNat_eq h0)
  · show s.inAt _ ≠ s.inAt _
    rw [(h.entries j hj).1, (h.entries j' (by omega)).1]
    exact List.pairwise_iff_getElem.mp h.distinct j' j (by omega) hj hj'

/-- The list of a header that passes may go to `tree_build`. -/
theorem good_of_HeaderOk {s : State} {l} (h : HeaderOk s l) : GoodList l where
  nonempty := by intro h0; have := h.symbols.1; simp [h0] at this
  small := h.symbols.2.1
  distinct := by rw [List.Nodup, List.pairwise_map]; exact h.distinct
  nonzero := h.nonzero

/-- After a header that passes, stages 3 and 4. -/
theorem body_of_HeaderOk {s : State} {l}
    (h : HeaderOk s l) : bodyOf .decompress s = decompressPayload s.inLen.toNat l (clearDerived s) := by
  have hs := h.symbols.2.2
  rw [decompress_body_full h.fits h.version h.flags (by have := h.symbols; omega) (by have := h.symbols; omega)
    (by rw [hs]; exact h.long), hs, parse_of_HeaderOk h]
  rfl

/-- The decoder's bit total is that of the list. -/
theorem listBits_rebuilt {l} (g : GoodList l) (s u : State) : bitTotal (rebuilt l u) l = listBits l s := by
  rw [listBits_eq]; exact bitTotal_indep g { u with freq := freqOfEntries l } s l

/-- The decoder's codes are those of the list. -/
theorem listCode_rebuilt {l} (g : GoodList l) (s u : State) : codeBits (rebuilt l u) = listCode l s := by
  funext sym; exact congrFun (codeBits_indep g { u with freq := freqOfEntries l } s) sym

/-- After the tests 1 to 14, stage 4. -/
theorem body_of_ContainerOk {s : State} {l} (h : ContainerOk s l) : bodyOf .decompress s =
    (decodeLoop (declaredLength l) 0 (payloadStart l (listBits l s) (clearDerived s)) >>= fun p => do
        require (p.1 = declaredLength l) (.corruptHeader .countMismatch)
        return { p.2 with outLen := BitVec.ofNat 32 p.1, brOpen := false }) := by
  have g := good_of_HeaderOk h.header
  have hb := body_of_HeaderOk h.header
  have hle : le32In (clearDerived s) (6 + 5 * l.length) = listBits l s := h.bits
  have hH : headerSize l.length = 10 + 5 * l.length := rfl
  have hsz := h.size
  rw [decompressPayload_eq, listBits_rebuilt g s, hle,
    require_bind_pos rfl, require_bind_pos (by omega), require_bind_pos (by omega),
    require_bind_pos (show declaredLength l ≤ (clearDerived s).params.outCap from h.room)] at hb
  exact hb

/-- The state stage 4 of DECOMPRESS starts from. -/
def stage4 (s : State) (l : SymFreqs) : State := payloadStart l (listBits l s) (clearDerived s)

theorem bits_lt {s l} (h : ContainerOk s l) : listBits l s < 2 ^ 32 := by
  have h1 := h.size
  have h2 := h.header.fits
  have h3 := s.params.bounded.1.2
  have : ceilDiv8 (listBits l s) < 2 ^ 29 := by omega
  unfold ceilDiv8 at this; omega

theorem stage4_org {s l} (h : ContainerOk s l) : (stage4 s l).brOrg.toNat = 10 + 5 * l.length := by
  show (BitVec.ofNat 32 (headerSize l.length)).toNat = _
  rw [BitVec.toNat_ofNat]; have := h.header.symbols; unfold headerSize; omega

theorem stage4_lim {s l} (h : ContainerOk s l) : (stage4 s l).brLim.toNat = listBits l s := by
  show (BitVec.ofNat 32 (listBits l s)).toNat = _
  rw [BitVec.toNat_ofNat]; exact Nat.mod_eq_of_lt (bits_lt h)

/-- The reader of stage 4 sees the payload. -/
theorem stage4_stream {s l} (h : ContainerOk s l) : streamHas (stage4 s l) (payloadOf s l) := by
  intro i hi
  rw [stage4_org h]
  show inStreamBit s (10 + 5 * l.length) (0 + i) = _
  simp [payloadOf]

theorem length_payloadOf (s l) : (payloadOf s l).length = listBits l s := by simp [payloadOf]

theorem stage4_shape {s l} (h : ContainerOk s l) : TreeShape (stage4 s l) l.length :=
  (rebuilt_shape (good_of_HeaderOk h.header) (clearDerived s)).congr (nodeAt_congr rfl) rfl rfl rfl

/-- The code of a listed symbol, in the tree stage 4 walks. -/
theorem stage4_code {s l} (h : ContainerOk s l) {e} (he : e ∈ l) : isCodeOf (stage4 s l) (listCode l s e.1) e.1 ∧
    listCode l s e.1 ≠ [] := by
  have g := good_of_HeaderOk h.header
  have hc := isCodeOf_codeBits (rebuilt_listsFreq (s := clearDerived s) g.nonempty g.small g.distinct g.nonzero) he
  have hc' : isCodeOf (stage4 s l) (listCode l s e.1) e.1 := by
    rw [← listCode_rebuilt g s (clearDerived s)]
    rw [isCodeOf_congr (s := rebuilt l (clearDerived s)) (t := stage4 s l) (nodeAt_congr rfl) rfl]; exact hc
  refine ⟨hc', fun h0 => ?_⟩
  have := ((stage4_shape h).code_length_bounds hc').1
  rw [h0] at this; simp at this

/-- Parsing that ends has read the entries, distinct and non-zero. -/
theorem parse_ok {s : State} {n : Nat} {l} (h : (List.range n).foldlM (entryStep s) [] = .ok l) :
    l.length = n ∧ (∀ i (h : i < l.length), s.inAt (6 + 5 * i) = l[i].1 ∧ le32In s (7 + 5 * i) = l[i].2.toNat) ∧
    (l.Pairwise fun x y => x.1 ≠ y.1) ∧ ∀ e ∈ l, e.2 ≠ 0 := by
  induction n generalizing l with
  | zero => cases h; simp
  | succ n ih =>
    rw [List.range_succ, List.foldlM_append] at h
    obtain ⟨l0, h0, h⟩ := bind_ok_iff.mp h
    simp only [List.foldlM_cons, List.foldlM_nil, bind_pure] at h
    obtain ⟨h1, h2, h3, h4⟩ := ih h0
    unfold entryStep at h
    obtain ⟨hd, h⟩ := require_bind_ok_iff.mp h
    obtain ⟨hz, h⟩ := require_bind_ok_iff.mp h
    cases h
    have hlt : le32In s (7 + 5 * n) < 2 ^ 32 := by
      unfold le32In
      have a := (s.inAt (7 + 5 * n)).isLt
      have b := (s.inAt (7 + 5 * n + 1)).isLt
      have c := (s.inAt (7 + 5 * n + 2)).isLt
      have d := (s.inAt (7 + 5 * n + 3)).isLt
      omega
    refine ⟨by simp [h1], fun i hi => ?_, ?_, fun e he => ?_⟩
    · by_cases hin : i < l0.length
      · simp only [List.getElem_append_left hin]; exact h2 i hin
      · obtain rfl : i = l0.length := by simp at hi; omega
        rw [List.getElem_concat_length rfl]
        simp only [h1, BitVec.toNat_ofNat, Nat.mod_eq_of_lt hlt, and_self]
    · rw [List.pairwise_append]
      refine ⟨h3, by simp, fun a ha b hb => ?_⟩
      obtain rfl : b = _ := by simpa using hb
      intro he
      exact hd ⟨a, ha, he⟩
    · rcases List.mem_append.mp he with he | he
      · exact h4 e he
      · obtain rfl : e = _ := by simpa using he
        intro h0
        apply hz
        have := congrArg BitVec.toNat h0
        simp only [BitVec.toNat_ofNat, Nat.mod_eq_of_lt hlt] at this
        exact this

theorem byte_zero_of (b : Byte) (h1 : b.extractLsb' 1 7 = 0) (h2 : ¬ b.getLsbD 0 = true) : b = 0 := by
  revert b; decide +kernel

theorem byte_one_of (b : Byte) (h1 : b.extractLsb' 1 7 = 0) (h2 : b.getLsbD 0 = true) : b = 1 := by
  revert b; decide +kernel

/-- The two ways DECOMPRESS ends without error (R238, R243). -/
theorem decompress_ok_cases {s t} (h : bodyOf .decompress s = .ok t) :
    (s.inLen.toNat ≤ s.params.inCap ∧ s.inAt 0 = 1 ∧ s.inAt 1 = 1 ∧ s.inLen = 2 ∧
      t = { clearDerived s with freq := Vector.replicate 256 0, freqValid := true }) ∨
    ∃ l v, ContainerOk s l ∧ decodeLoop (declaredLength l) 0 (stage4 s l) = .ok (declaredLength l, v) ∧
      t = { v with outLen := BitVec.ofNat 32 (declaredLength l), brOpen := false } := by
  rw [decompress_eq] at h
  obtain ⟨h1, h⟩ := require_bind_ok_iff.mp h
  obtain ⟨h2, h⟩ := require_bind_ok_iff.mp h
  obtain ⟨h3, h⟩ := require_bind_ok_iff.mp h
  obtain ⟨h4, h⟩ := require_bind_ok_iff.mp h
  split at h
  · rename_i h5
    obtain ⟨h6, h⟩ := require_bind_ok_iff.mp h
    cases h
    exact .inl ⟨h1, h3, byte_one_of _ h4 h5, BitVec.eq_of_toNat_eq h6, rfl⟩
  · rename_i h5
    right
    rw [decompressFull_eq] at h
    obtain ⟨h6, h⟩ := require_bind_ok_iff.mp h
    obtain ⟨h7, h⟩ := require_bind_ok_iff.mp h
    obtain ⟨h8, h⟩ := require_bind_ok_iff.mp h
    obtain ⟨l, hl, h⟩ := bind_ok_iff.mp h
    obtain ⟨p1, p2, p3, p4⟩ := parse_ok hl
    have e0 : le32In (clearDerived s) 2 = le32In s 2 := rfl
    rw [e0] at h7 h8 p1
    have hh : HeaderOk s l := {
      fits := h1, version := h3, flags := byte_zero_of _ h4 h5
      symbols := by omega
      long := by unfold headerSize at h8; omega
      entries := p2, distinct := p3, nonzero := p4 }
    have g := good_of_HeaderOk hh
    rw [decompressPayload_eq, listBits_rebuilt g s] at h
    obtain ⟨h9, h⟩ := require_bind_ok_iff.mp h
    obtain ⟨h10, h⟩ := require_bind_ok_iff.mp h
    obtain ⟨h11, h⟩ := require_bind_ok_iff.mp h
    obtain ⟨h12, h⟩ := require_bind_ok_iff.mp h
    have e1 : le32In (clearDerived s) (6 + 5 * l.length) = le32In s (6 + 5 * l.length) := rfl
    rw [e1] at h9 h10 h11 h
    have hc : ContainerOk s l := {
      header := hh, bits := h9
      size := by
        have hlong := hh.long
        have hH : headerSize l.length = 10 + 5 * l.length := rfl
        rw [h9] at h10 h11; omega
      room := h12 }
    rw [h9] at h
    obtain ⟨⟨k, v⟩, hv, h⟩ := bind_ok_iff.mp h
    obtain ⟨hk, h⟩ := require_bind_ok_iff.mp h
    simp only at hk
    subst hk
    cases h
    exact ⟨l, v, hc, hv, rfl⟩

end Sys2Proof.Machine
end

