-- ==== Sys2Proof/Laws/PerInstr.lean ====
section
/-! SUPPORT. The family of statements made per instruction: the word the encoder gives an instruction is a legal encoding
(rules R101 to R103), with the instruction's opcode and its operand in ARG. -/

namespace Sys2Proof.Laws.Encoding

/-- The encoder's word passes the three checks of well-formedness, and its fields are the instruction's. -/
def Statement (i : Instr) : Prop :=
  (Cmd.ofWord (encode i)).wellFormed = true ∧ (Cmd.ofWord (encode i)).opc = opcodeOf i ∧
  (Cmd.ofWord (encode i)).arg = argOf i

theorem nop : Statement .nop := by unfold Statement; decide

theorem clear : Statement .clear := by unfold Statement; decide

theorem tblRead (sym : Byte) : Statement (.tblRead sym) := by
  revert sym; unfold Statement; decide +kernel

theorem nodeRead (h : Handle) : Statement (.nodeRead h) := by
  revert h; unfold Statement; decide +kernel

theorem freqBuild : Statement .freqBuild := by unfold Statement; decide

theorem treeBuild : Statement .treeBuild := by unfold Statement; decide

theorem codeGen : Statement .codeGen := by unfold Statement; decide

theorem bwInit : Statement .bwInit := by unfold Statement; decide

theorem bwWriteBit (b : Bool) : Statement (.bwWriteBit b) := by
  revert b; unfold Statement; decide

theorem bwWriteCode (sym : Byte) : Statement (.bwWriteCode sym) := by
  revert sym; unfold Statement; decide +kernel

theorem bwFinish : Statement .bwFinish := by unfold Statement; decide

theorem brInit : Statement .brInit := by unfold Statement; decide

theorem brReadBit : Statement .brReadBit := by unfold Statement; decide

theorem brDecodeSym : Statement .brDecodeSym := by unfold Statement; decide

theorem compress : Statement .compress := by unfold Statement; decide

theorem decompress : Statement .decompress := by unfold Statement; decide

end Sys2Proof.Laws.Encoding
end

