-- ==== Sys2Proof/Tests/Slice0.lean ====
section
/-! SUPPORT. The model's own tests. Expected values are those of the spec's vectors (`95_test_vectors.md`, named V..),
tables and rules. Behind the tests of well-formedness, of words and of commands stand the witnesses: for every statement
with hypotheses, concrete states and operands that meet each of its clauses. -/

namespace Sys2Proof.Tests

open Sys2Proof.Machine

-- Evaluations one after another: each in a thread of its own takes much memory.
set_option Elab.async false

/-! ## Small states -/

/-- An instance with these capacities, the register block at 0x1000 and the windows at 0x10000 and 0x20000. -/
def paramsOf (inCap outCap : Nat) (h : 2 ≤ inCap ∧ inCap ≤ 0x10000 ∧ 2 ≤ outCap ∧ outCap ≤ 0x10000) : Params :=
  { inCap, outCap, bounded := by omega, regBase := 0x1000, windowsMapped := true, inBase := 0x10000, outBase := 0x20000
    disjoint := by omega }

/-- An instance with 4096-byte buffers, right after reset. -/
def machine : State := State.afterReset (paramsOf 4096 4096 (by decide)) 0 []

/-- The capacities of `machine`, the register block at another address, the windows not mapped (R85). -/
def elsewhere : Params :=
  { inCap := 4096, outCap := 4096, bounded := by decide, regBase := 0x20000, windowsMapped := false, inBase := 0
    outBase := 0, disjoint := by decide }

/-- An instance with 16-byte buffers, right after reset. -/
def small : State := State.afterReset (paramsOf 16 16 (by decide)) 0 []

/-- IN holds `bs` from address 0 on, and IN_LEN is their number. -/
def load (bs : List Byte) (s : State) : State :=
  { s with inLen := BitVec.ofNat 32 bs.length, inBuf := { epoch := 0, cells := bs.zipIdx.map fun p => (p.2, p.1) } }

/-- "abacabad". -/
def abacabad : List Byte := [0x61, 0x62, 0x61, 0x63, 0x61, 0x62, 0x61, 0x64]

/-- "aabc". -/
def aabc : List Byte := [0x61, 0x61, 0x62, 0x63]

/-- FREQ of the bytes (R142). -/
def counted (bs : List Byte) : State := freqBuild (load bs machine)

/-- FREQ and the tree of the bytes. -/
def grown (bs : List Byte) : State := treeBuild (presentSymbols (Tests.counted bs).freq) (Tests.counted bs)

/-- FREQ, the tree and the codes of the bytes; the kernel alone evaluates it. -/
@[irreducible] def coded (bs : List Byte) : State := codeGen (grown bs)

/-- The writer of `s` open at `org` with no bit. -/
def writing (org : Word) (s : State) : State := { s with bwOrg := org, bwTotal := 0, bwAcc := 0, bwOpen := true }

/-- The reader of `s` open at 0 on the first `lim` bits of `bs`. -/
def reading (bs : List Byte) (lim : Word) (s : State) : State :=
  { load bs s with brOrg := 0, brLim := lim, brPos := 0, brOpen := true }

/-- `s` with one host move to come. -/
def hostNext (m : HostMove) (s : State) : State := { s with agenda := [.host m] }

/-- One step with the command word `w` accepted. -/
def run (w : Nat) (s : State) : State :=
  match step (s.withFetchWord 32 w) with
  | .next t => t
  | .fault _ => s
  | .refused _ => s

/-- `OUT[0], ..., OUT[OUT_LEN - 1]`. -/
def outBytes (s : State) : List Byte := (List.range s.outLen.toNat).map s.outAt

/-- What a failed command leaves visible (R288): DONE and ERR alone in STATUS, the pair, and OUT_LEN 0. -/
def failedWith (code info : Nat) (s : State) : Bool :=
  statusWord s = 0x006 && s.errCode.toNat = code && s.errInfo.toNat = info && s.outLen = 0 && s.symCount = 0 &&
    s.bitCount = 0 && s.nodeCount = 0

/-- The container of "abacabad" (S3). -/
def c3 : List Byte :=
  [0x01, 0x00, 0x04, 0x00, 0x00, 0x00, 0x61, 0x04, 0x00, 0x00, 0x00, 0x62, 0x02, 0x00, 0x00, 0x00,
   0x63, 0x01, 0x00, 0x00, 0x00, 0x64, 0x01, 0x00, 0x00, 0x00, 0x0E, 0x00, 0x00, 0x00, 0x4C, 0x9C]

/-- The header of rule R250's single-symbol container: 'A' ten times, B = 10. -/
def headerA : List Byte := [0x01, 0x00, 0x01, 0x00, 0x00, 0x00, 0x41, 0x0A, 0x00, 0x00, 0x00, 0x0A, 0x00, 0x00, 0x00]

/-- The header of the container of "aabc" (V45-6): a 2, b 1, c 1, B = 6. -/
def headerAabc : List Byte :=
  [0x01, 0x00, 0x03, 0x00, 0x00, 0x00, 0x61, 0x02, 0x00, 0x00, 0x00, 0x62, 0x01, 0x00, 0x00, 0x00,
   0x63, 0x01, 0x00, 0x00, 0x00, 0x06, 0x00, 0x00, 0x00]

/-! ## Well-formed words (R101 to R105): each check refuses an ill-formed word -/

/-- V30-13, its opcode alone: 0x42 is no command. -/
theorem test_illFormed_opcode : (Cmd.ofWord 0x00000042).opcodeOk = false ∧
    (Cmd.ofWord 0x00000042).wellFormed = false := by decide

/-- V30-8: RSV is not 0. -/
theorem test_illFormed_reserved : (Cmd.ofWord 0x01000000).reservedOk = false ∧
    (Cmd.ofWord 0x01000000).opcodeOk = true ∧ (Cmd.ofWord 0x01000000).wellFormed = false := by decide

/-- V30-11: BW_WRITE_CODE with ARG[8] set. -/
theorem test_illFormed_arg : (Cmd.ofWord 0x00010022).argOk = false ∧ (Cmd.ofWord 0x00010022).opcodeOk = true ∧
    (Cmd.ofWord 0x00010022).reservedOk = true ∧ (Cmd.ofWord 0x00010022).wellFormed = false := by decide

/-- V30-5: every ARG bit NODE_READ uses is 1. -/
theorem test_wellFormed_nodeRead511 : (Cmd.ofWord 0x0001FF03).wellFormed = true := by decide

/-! ## Words written out from rules R101 to R103, RSV then ARG then OPC -/

theorem test_decode_system :
    decode 0b00000000_0000000000000000_00000000 = .ok .nop ∧
    decode 0b00000000_0000000000000000_00000001 = .ok .clear ∧
    decode 0b00000000_0000000001100011_00000010 = .ok (.tblRead 0x63) ∧
    decode 0b00000000_0000000111111111_00000011 = .ok (.nodeRead 511) := ⟨rfl, rfl, rfl, rfl⟩

theorem test_decode_tables :
    decode 0b00000000_0000000000000000_00010000 = .ok .freqBuild ∧
    decode 0b00000000_0000000000000000_00010001 = .ok .treeBuild ∧
    decode 0b00000000_0000000000000000_00010010 = .ok .codeGen := ⟨rfl, rfl, rfl⟩

theorem test_decode_writer :
    decode 0b00000000_0000000000000000_00100000 = .ok .bwInit ∧
    decode 0b00000000_0000000000000001_00100001 = .ok (.bwWriteBit true) ∧
    decode 0b00000000_0000000000000000_00100001 = .ok (.bwWriteBit false) ∧
    decode 0b00000000_0000000001100001_00100010 = .ok (.bwWriteCode 0x61) ∧
    decode 0b00000000_0000000000000000_00100011 = .ok .bwFinish := ⟨rfl, rfl, rfl, rfl, rfl⟩

theorem test_decode_reader :
    decode 0b00000000_0000000000000000_00110000 = .ok .brInit ∧
    decode 0b00000000_0000000000000000_00110001 = .ok .brReadBit ∧
    decode 0b00000000_0000000000000000_00110010 = .ok .brDecodeSym := ⟨rfl, rfl, rfl⟩

theorem test_decode_codec :
    decode 0b00000000_0000000000000000_01000000 = .ok .compress ∧
    decode 0b00000000_0000000000000000_01000001 = .ok .decompress := ⟨rfl, rfl⟩

/-- V30-6 to V30-13. -/
theorem test_decode_rejects :
    decode 0x00000004 = .error .badOpcode ∧ decode 0x000000FF = .error .badOpcode ∧
    decode 0x01000000 = .error .reservedBits ∧ decode 0x00000140 = .error .reservedBits ∧
    decode 0x00000221 = .error .reservedBits ∧ decode 0x00010022 = .error .reservedBits ∧
    decode 0x00020003 = .error .reservedBits ∧ decode 0xFF000042 = .error .badOpcode :=
  ⟨rfl, rfl, rfl, rfl, rfl, rfl, rfl, rfl⟩

theorem test_decodeTableWord : decodeTableWord 8 0x41 = some .decompress ∧ decodeTableWord 24 0x6122 =
    some (.bwWriteCode 0x61) ∧ decodeTableWord 32 0x42 = none := by decide

/-! ## Commands: one step each -/

/-- V47-1. -/
theorem test_nop : statusWord (run 0x00 machine) = 0x002 := by decide +kernel

/-- V47-9. -/
theorem test_clear : statusWord (run 0x01 (coded abacabad)) = 0x002 ∧ (run 0x01 (coded abacabad)).symCount = 0 ∧
    (run 0x01 (coded abacabad)).nodeCount = 0 ∧ (run 0x01 (coded abacabad)).inLen = 8 := by decide +kernel

/-- V47-2. -/
theorem test_tblRead : (run 0x6302 (coded abacabad)).res.toList = [1, 3, 6, 0, 0, 0, 0, 0, 0, 0] := by decide +kernel

/-- V47-7. -/
theorem test_tblRead_reset : (run 0x6102 machine).res.toList = [0, 0, 0, 0, 0, 0, 0, 0, 0, 0] := by decide +kernel

/-- V47-4 and V47-5. -/
theorem test_nodeRead : (run 0x0603 (grown abacabad)).res.toList = [8, 0, 0, 0x00050000, 0, 0, 0, 0, 0, 0] ∧
    (run 0x0103 (grown abacabad)).res.toList = [2, 0, 0x6201, 0x01FF01FF, 0, 0, 0, 0, 0, 0] := by decide +kernel

/-- V47-6 and V47-8. -/
theorem test_nodeRead_errors : failedWith 7 7 (run 0x0703 (grown abacabad)) = true ∧
    failedWith 7 2 (run 0x0003 machine) = true := by decide +kernel

/-- V41-2. -/
theorem test_freqBuild : (run 0x10 (load abacabad machine)).freqAt 0x61 = 4 ∧
    (run 0x10 (load abacabad machine)).freqAt 0x64 = 1 ∧ (run 0x10 (load abacabad machine)).freqAt 0x7A = 0 ∧
    (run 0x10 (load abacabad machine)).symCount = 4 ∧ statusWord (run 0x10 (load abacabad machine)) = 0x102 := by
  decide +kernel

/-- V41-5 and V41-6. -/
theorem test_freqBuild_flags : failedWith 6 1 (run 0x10 { machine with inLen := 4097 }) = true ∧
    statusWord (run 0x10 (coded abacabad)) = 0x102 := by decide +kernel

/-- V42-7: "mississippi". -/
theorem test_treeBuild :
    (List.range 7).map (fun h =>
      let n := (run 0x11 (Tests.counted [0x6D, 0x69, 0x73, 0x73, 0x69, 0x73, 0x73, 0x69, 0x70, 0x70, 0x69])).nodeAt
        (BitVec.ofNat 9 h)
      (n.isLeaf, n.sym.toNat, n.weight.toNat, n.left.toNat, n.right.toNat)) =
    [(true, 0x69, 4, 511, 511), (true, 0x6D, 1, 511, 511), (true, 0x70, 2, 511, 511), (true, 0x73, 4, 511, 511),
     (false, 0, 3, 1, 2), (false, 0, 7, 4, 0), (false, 0, 11, 3, 5)] := by decide +kernel

/-- V42-11 and V42-12. -/
theorem test_treeBuild_errors : failedWith 1 0 (run 0x11 (Tests.counted [])) = true ∧
    failedWith 7 1 (run 0x11 machine) = true := by decide +kernel

/-- V43-8: "mississippi". -/
theorem test_codeGen :
    [0x73, 0x6D, 0x70, 0x69, 0x61].map (fun x =>
      let s := run 0x12 (grown [0x6D, 0x69, 0x73, 0x73, 0x69, 0x73, 0x73, 0x69, 0x70, 0x70, 0x69])
      ((s.codeLenAt x).toNat, (s.codeValAt x).toNat)) = [(1, 0), (3, 4), (3, 5), (2, 3), (0, 0)] := by decide +kernel

/-- V43-11. -/
theorem test_codeGen_error : failedWith 7 2 (run 0x12 (Tests.counted abacabad)) = true := by decide +kernel

/-- V44-9, its BW_INIT, and V44-8. -/
theorem test_bwInit : (run 0x20 { small with bwBase := 16 }).outLen = 16 ∧
    statusWord (run 0x20 { small with bwBase := 16 }) = 0x802 ∧
    failedWith 6 3 (run 0x20 { small with bwBase := 17 }) = true := by decide +kernel

/-- V44-10, the eighth bit. -/
theorem test_bwWriteBit : (run 0x121 { writing 15 small with bwTotal := 7, bwAcc := 0xFE }).outAt 15 = 0xFF ∧
    (run 0x121 { writing 15 small with bwTotal := 7, bwAcc := 0xFE }).bwTotal = 8 := by decide +kernel

/-- V44-10, the ninth bit, and V44-7. -/
theorem test_bwWriteBit_errors : failedWith 6 2 (run 0x121 { writing 15 small with bwTotal := 8 }) = true ∧
    failedWith 7 4 (run 0x121 small) = true := by decide +kernel

/-- P2, "bb" of "aabc" after "aa": 0 0 1 0 in the partial byte. -/
theorem test_bwWriteCode : (run 0x6222 { writing 0 (coded aabc) with bwTotal := 2 }).bwTotal = 4 ∧
    (run 0x6222 { writing 0 (coded aabc) with bwTotal := 2 }).bwAcc = 0x20 := by decide +kernel

/-- V44-13 and V44-12. -/
theorem test_bwWriteCode_errors : failedWith 7 6 (run 0x7A22 (writing 0 (coded abacabad))) = true ∧
    failedWith 7 3 (run 0x6122 (writing 0 (grown abacabad))) = true := by decide +kernel

/-- P2: six bits of "aabc". -/
theorem test_bwFinish : outBytes (run 0x23 { writing 0 (coded aabc) with bwTotal := 6, bwAcc := 0x2C }) = [0x2C] ∧
    (run 0x23 { writing 0 (coded aabc) with bwTotal := 6, bwAcc := 0x2C }).res.toList =
      [6, 2, 0, 0, 0, 0, 0, 0, 0, 0] ∧
    (run 0x23 { writing 0 (coded aabc) with bwTotal := 6, bwAcc := 0x2C }).bitCount = 6 := by decide +kernel

/-- V44-14. -/
theorem test_bwFinish_error : failedWith 7 4 (run 0x23 machine) = true := by decide +kernel

/-- V44-17, its BR_INIT, and V44-16 and V44-18. -/
theorem test_brInit : statusWord (run 0x30 { load [0xA0] machine with brBase := 1 }) = 0x1002 ∧
    failedWith 7 8 (run 0x30 { load [0xA0] machine with brLimit := 9 }) = true ∧
    failedWith 7 8 (run 0x30 { load [0xA0] machine with brBase := 2 }) = true := by decide +kernel

/-- V44-15. -/
theorem test_brReadBit : (run 0x31 { reading [0xA0] 3 machine with brPos := 2 }).res[0] = 1 ∧
    (run 0x31 { reading [0xA0] 3 machine with brPos := 2 }).brPos = 3 ∧
    (run 0x31 { reading [0xA0] 3 machine with brPos := 1 }).res[0] = 0 := by decide +kernel

/-- V44-15, the fourth bit, and V44-19. -/
theorem test_brReadBit_errors : failedWith 4 0 (run 0x31 { reading [0xA0] 3 machine with brPos := 3 }) = true ∧
    failedWith 7 5 (run 0x31 machine) = true := by decide +kernel

/-- V44-20, the fourth symbol, and V44-22, the first. -/
theorem test_brDecodeSym :
    (run 0x32 { reading [0x4C, 0x9C] 14 (grown abacabad) with brPos := 4 }).res.toList =
      [0x63, 3, 0, 0, 0, 0, 0, 0, 0, 0] ∧
    (run 0x32 { reading [0x4C, 0x9C] 14 (grown abacabad) with brPos := 4 }).brPos = 7 ∧
    (run 0x32 (reading [0x40] 2 (grown [0x41]))).res.toList = [0x41, 1, 0, 0, 0, 0, 0, 0, 0, 0] := by decide +kernel

/-- V44-21, V44-22 and V44-23. -/
theorem test_brDecodeSym_errors : failedWith 4 0 (run 0x32 (reading [0xC0] 2 (grown abacabad))) = true ∧
    failedWith 2 10 (run 0x32 { reading [0x40] 2 (grown [0x41]) with brPos := 1 }) = true ∧
    failedWith 7 2 (run 0x32 (reading [0xC0] 2 machine)) = true := by decide +kernel

/-- S1 and V45-7, with the state after it. -/
theorem test_compress : outBytes (run 0x40 machine) = [0x01, 0x01] ∧
    outBytes (run 0x40 (load abacabad machine)) = c3 ∧ statusWord (run 0x40 (load abacabad machine)) = 0x702 ∧
    (run 0x40 (load abacabad machine)).bwTotal = 14 ∧ (run 0x40 (load abacabad machine)).root = 6 := by decide +kernel

/-- V45-15 and V45-16. -/
theorem test_compress_errors : failedWith 6 2 (run 0x40 (load [0x61, 0x62] small)) = true ∧
    failedWith 6 1 (run 0x40 { small with inLen := 17 }) = true := by decide +kernel

/-- S3, and V46-30: the entries in the other order. -/
theorem test_decompress : outBytes (run 0x41 (load c3 machine)) = abacabad ∧
    (run 0x41 (load c3 machine)).brPos = 14 ∧
    outBytes (run 0x41 (load [0x01, 0x00, 0x02, 0x00, 0x00, 0x00, 0x62, 0x01, 0x00, 0x00, 0x00, 0x61, 0x03, 0x00, 0x00,
      0x00, 0x04, 0x00, 0x00, 0x00, 0xE0] machine)) = [0x61, 0x61, 0x61, 0x62] := by decide +kernel

/-- S4, V46-28 and V46-34. -/
theorem test_decompress_errors : failedWith 3 1 (run 0x41 (load (c3.take 31) machine)) = true ∧
    failedWith 2 3 (run 0x41 (load [0x01, 0x03] machine)) = true ∧
    failedWith 2 7 (run 0x41 (load [0x01, 0x00, 0x02, 0x00, 0x00, 0x00, 0x61, 0xFF, 0xFF, 0xFF, 0xFF, 0x62, 0xFF, 0xFF,
      0xFF, 0xFF, 0xFE, 0xFF, 0xFF, 0xFF, 0x00] machine)) = true := by decide +kernel

/-- V30-6 and V30-9: a word that is no command. -/
theorem test_illegalCommand : failedWith 5 1 (run 0x04 (coded abacabad)) = true ∧
    failedWith 5 2 (run 0x140 (coded abacabad)) = true := by decide +kernel

/-! ## Witnesses: states and operands that meet the hypotheses of the statements, clause by clause -/

/-- The tree of the bytes is valid. -/
theorem grown_shape {bs : List Byte} (h : presentSymbols (Tests.counted bs).freq ≠ []) :
    TreeShape (grown bs) (presentSymbols (Tests.counted bs).freq).length :=
  treeBuild_shape (listsFreq_presentSymbols h)

/-- So is the tree CODE_GEN leaves. -/
theorem coded_shape {bs : List Byte} (h : presentSymbols (Tests.counted bs).freq ≠ []) :
    TreeShape (coded bs) (presentSymbols (Tests.counted bs).freq).length := by
  unfold coded
  exact (grown_shape h).congr (nodeAt_congr rfl) rfl rfl rfl

/-- Its code table is that of the tree. -/
theorem coded_code {bs : List Byte} (h : presentSymbols (Tests.counted bs).freq ≠ []) (sym : Byte) :
    codeEntryOk (coded bs) sym := by
  unfold coded
  exact codeGen_entryOk (grown_shape h) sym

/-- Its counts, flags and buffers are those of FREQ_BUILD's state, its code valid. -/
theorem coded_fields (bs : List Byte) : (coded bs).params = machine.params ∧ (coded bs).outBuf = machine.outBuf ∧
    (coded bs).seq = .idle ∧ (coded bs).err = false ∧ (coded bs).errCode = 0 ∧ (coded bs).errInfo = 0 ∧
    (coded bs).freq = (Tests.counted bs).freq ∧ (coded bs).symCount = (Tests.counted bs).symCount ∧
    (coded bs).freqValid = true ∧ (coded bs).treeValid = true ∧ (coded bs).codeValid = true := by
  unfold coded
  exact ⟨rfl, rfl, rfl, rfl, rfl, rfl, rfl, rfl, rfl, rfl, rfl⟩

/-- The bytes' tables, an open writer, and an open reader on the payload of "abacabad". -/
def workingOn (bs : List Byte) : State := reading [0x4C, 0x9C] 14 (writing 0 (coded bs))

/-- "abacabad" with its tables, an open writer, and an open reader on its payload. -/
abbrev working : State := workingOn abacabad

theorem abacabad_present : presentSymbols (Tests.counted abacabad).freq =
    [(0x61, 4), (0x62, 2), (0x63, 1), (0x64, 1)] := by decide +kernel

theorem workingOn_shape {bs : List Byte} (h : presentSymbols (Tests.counted bs).freq ≠ []) :
    TreeShape (workingOn bs) (presentSymbols (Tests.counted bs).freq).length :=
  (coded_shape h).congr (nodeAt_congr rfl) rfl rfl rfl

theorem working_shape : TreeShape working 4 := by
  have h := workingOn_shape (bs := abacabad) (by rw [abacabad_present]; decide)
  rwa [abacabad_present] at h

/-- The code table is judged by NODE, ROOT and CODE alone. -/
theorem codeEntryOk_congr {s t : State} (hn : t.node = s.node) (hr : t.root = s.root) (hl : t.codeLen = s.codeLen)
    (hv : t.codeVal = s.codeVal) {sym : Byte} (h : codeEntryOk s sym) : codeEntryOk t sym := by
  unfold codeEntryOk at h ⊢
  simpa only [isCodeOf_congr (nodeAt_congr hn) hr, State.codeLenAt, State.codeValAt, hl, hv] using h

/-- Opening streams changes no code. -/
theorem codeEntryOk_streams {s : State} {sym : Byte} (h : codeEntryOk s sym) (org lim : Word) (bs : List Byte) :
    codeEntryOk (reading bs lim (writing org s)) sym :=
  codeEntryOk_congr (s := s) (t := reading bs lim (writing org s)) rfl rfl rfl rfl h

theorem workingOn_code {bs : List Byte} (h : presentSymbols (Tests.counted bs).freq ≠ []) (sym : Byte) :
    codeEntryOk (workingOn bs) sym := codeEntryOk_streams (coded_code h sym) _ _ _

theorem workingOn_invariant {bs : List Byte} (h : presentSymbols (Tests.counted bs).freq ≠ [])
    (hc : (Tests.counted bs).symCount.toNat = symbolCount (Tests.counted bs).freq) : Invariant (workingOn bs) := by
  obtain ⟨params, out, seq, err, code, info, freq, count, fv, tv, cv⟩ := coded_fields bs
  constructor
  · rw [show (workingOn bs).inBuf = { epoch := 0, cells := [(0, 0x4C), (1, 0x9C)] } from rfl,
      show (workingOn bs).params = machine.params from params]
    exact ⟨by decide, by show ∀ c ∈ [((0 : Nat), (0x4C : Byte)), (1, 0x9C)], c.1 < 4096; decide⟩
  · rw [show (workingOn bs).outBuf = machine.outBuf from out]
    exact ⟨List.Pairwise.nil, fun c hc => by cases hc⟩
  · rw [show (workingOn bs).seq = .idle from seq]; exact fun h => nomatch h
  · rw [show (workingOn bs).err = false from err, show (workingOn bs).errCode = 0 from code]; decide
  · exact .inl ⟨code, info⟩
  · exact ⟨fun _ => tv, fun _ => fv⟩
  · intro _
    rw [show (workingOn bs).symCount = (Tests.counted bs).symCount from count,
      show (workingOn bs).freq = (Tests.counted bs).freq from freq]
    exact hc
  · intro _
    rw [show (workingOn bs).symCount = (Tests.counted bs).symCount from count, hc, ← length_presentSymbols]
    exact workingOn_shape h
  · exact fun _ => workingOn_code h
  · refine fun _ => ⟨?_, fun i _ => ?_⟩
    · rw [show (workingOn bs).params = machine.params from params]
      show 0 + ceilDiv8 0 ≤ 4096
      decide
    · show (0 : BitVec 8).getLsbD i = false
      simp
  · refine fun _ => ⟨Nat.zero_le _, ?_⟩
    rw [show (workingOn bs).params = machine.params from params]
    show 0 + ceilDiv8 14 ≤ 4096
    decide

/-- States with every table and both streams that meet the invariant, with four symbols and with one: witnesses of
StepKeepsTheInvariant, CodesAreComplete, CodeLengthsAreBounded and CodesArePrefixFree. -/
theorem test_meets_Invariant : Invariant working ∧ working.codeValid = true ∧ 1 < working.symCount.toNat ∧
    working.codeLenAt 0x61 ≠ 0 ∧ working.codeLenAt 0x64 ≠ 0 ∧ (List.replicate 255 true).length = 255 :=
  ⟨workingOn_invariant (by decide +kernel) (by decide +kernel), by decide +kernel, by decide +kernel, by decide +kernel,
    by decide +kernel, List.length_replicate⟩

theorem test_meets_Invariant_oneSymbol : Invariant (workingOn [0x41]) ∧ (workingOn [0x41]).codeValid = true ∧
    (workingOn [0x41]).codeLenAt 0x41 ≠ 0 ∧ ∀ sym, (workingOn [0x41]).codeLenAt sym ≠ 0 → sym = 0x41 :=
  ⟨workingOn_invariant (by decide +kernel) (by decide +kernel), by decide +kernel, by decide +kernel, by decide +kernel⟩

/-! ### The handshake and the host's moves -/

/-- A command is executing: COMPRESS is accepted. -/
def busy : State := machine.withFetchWord 32 0x40

theorem test_meets_StepRunsTheAcceptedCommand :
    (machine.agenda = [] ∧ machine.seq = .idle) ∧
    (busy.agenda = [.hfc] ∧ busy.seq = .exec ∧ decode busy.pend = .ok .compress) ∧
    ((machine.withFetchWord 32 0x42).seq = .exec ∧ decode (machine.withFetchWord 32 0x42).pend = .error .badOpcode) ∧
    ((machine.withFetchWord 32 0x140).seq = .exec ∧
      decode (machine.withFetchWord 32 0x140).pend = .error .reservedBits) :=
  ⟨⟨rfl, rfl⟩, ⟨rfl, rfl, rfl⟩, ⟨rfl, rfl⟩, ⟨rfl, rfl⟩⟩

/-- Also a witness of the clauses of RegisterWrites about CMD. -/
theorem test_meets_CommandWriteIsAcceptedOrDropped :
    ((hostNext (.regWrite 0x0C 0x40) machine).agenda = [.host (.regWrite 0x0C 0x40)] ∧
      (hostNext (.regWrite 0x0C 0x40) machine).seq = .idle) ∧
    ((hostNext (.regWrite 0x0C 0x40) busy).agenda = [.host (.regWrite 0x0C 0x40)] ∧
      (hostNext (.regWrite 0x0C 0x40) busy).seq = .exec) := by decide

theorem test_meets_EveryAcceptedCommandCompletes :
    (busy.agenda = [.hfc] ∧ busy.seq = .exec) ∧
    ({ busy with agenda := [] }.agenda = [] ∧ { busy with agenda := [] }.seq = .exec) := by decide

theorem test_meets_InterruptLineFollowsItsBits :
    (hostNext (.regWrite 0x04 1) machine).agenda = [.host (.regWrite 0x04 1)] ∧
    ((hostNext (.regWrite 0x08 2) machine).agenda = [.host (.regWrite 0x08 2)] ∧
      (hostNext (.regWrite 0x08 2) machine).seq = .idle ∧ (2 : Word).getLsbD 1 = true) ∧
    ((hostNext (.regWrite 0x0C 0) machine).agenda = [.host (.regWrite 0x0C 0)] ∧
      (hostNext (.regWrite 0x0C 0) machine).seq = .idle) := by decide

/-- The first and the last offset, and the edges of RES and of the reserved offsets, idle and busy: also a witness of
RegisterReadsWhileBusy. -/
theorem test_meets_RegisterReadsWhileIdle : ∀ off ∈ [0x00, 0x48, 0x4C, 0x50, 0x74, 0x78, 0xFC],
    (hostNext (.regRead off) machine).agenda = [.host (.regRead off)] ∧ (hostNext (.regRead off) machine).seq = .idle ∧
    (hostNext (.regRead off) busy).seq = .exec ∧ off < 0x100 ∧ off % 4 = 0 := by decide

theorem test_meets_RegisterWrites : ∀ off ∈ [0x00, 0x04, 0x08, 0x18, 0x28, 0x2C, 0x30, 0x4C, 0xFC],
    (hostNext (.regWrite off 5) machine).agenda = [.host (.regWrite off 5)] ∧ off < 0x100 ∧ off % 4 = 0 ∧
    off ≠ 0x0C := by decide

theorem test_meets_InWriteStoresOneByteWhileIdle : ∀ a ∈ [0, 4095],
    (hostNext (.inWrite a 0x41) machine).agenda = [.host (.inWrite a 0x41)] ∧ a < machine.params.inCap ∧
    (hostNext (.inWrite a 0x41) machine).seq = .idle ∧ (hostNext (.inWrite a 0x41) busy).seq = .exec := by decide

theorem test_meets_WindowReadsAndOutWrites : ∀ a ∈ [0, 4095],
    (hostNext (.inRead a) machine).agenda = [.host (.inRead a)] ∧ a < machine.params.inCap ∧
    (hostNext (.inRead a) machine).seq = .idle ∧ (hostNext (.inRead a) busy).seq = .exec ∧
    (hostNext (.outRead a) machine).agenda = [.host (.outRead a)] ∧ a < machine.params.outCap ∧
    (hostNext (.outRead a) machine).seq = .idle ∧ (hostNext (.outRead a) busy).seq = .exec ∧
    (hostNext (.outWrite a 0x41) machine).agenda = [.host (.outWrite a 0x41)] := by decide

theorem test_meets_AccessesOutsideTheInterfaceStop :
    (hostNext (.regRead 0x100) machine).agenda = [.host (.regRead 0x100)] ∧
    (hostNext (.regWrite 0x100 0) machine).agenda = [.host (.regWrite 0x100 0)] ∧
    ((hostNext (.regRead 0xFF) machine).agenda = [.host (.regRead 0xFF)] ∧ 0xFF % 4 ≠ 0) ∧
    ((hostNext (.regWrite 0x01 0) machine).agenda = [.host (.regWrite 0x01 0)] ∧ 0x01 % 4 ≠ 0) ∧
    ((hostNext (.inWrite 4096 0) machine).agenda = [.host (.inWrite 4096 0)] ∧
      (hostNext (.inRead 4096) machine).agenda = [.host (.inRead 4096)] ∧ machine.params.inCap ≤ 4096) ∧
    ((hostNext (.outRead 4096) machine).agenda = [.host (.outRead 4096)] ∧
      (hostNext (.outWrite 4096 0) machine).agenda = [.host (.outWrite 4096 0)] ∧ machine.params.outCap ≤ 4096) := by
  decide

/-- Also a witness of InvariantAfterAnyReset: a reset while a command executes (V10-9). -/
theorem test_meets_ResetGivesTheTable : { busy with agenda := [.reset] }.agenda = [.reset] ∧
    { busy with agenda := [.reset] }.seq = .exec := by decide

/-! ### Completion and failure of every command -/

/-- Whether the command completes without error, from a state without one. -/
def completes (i : Instr) (s : State) : Bool :=
  match exec i s with
  | .next t => !s.err && !t.err
  | .fault _ => false
  | .refused _ => false

/-- Whether the command raises an error, from a state without one. -/
def fails (i : Instr) (s : State) : Bool :=
  match exec i s with
  | .next t => !s.err && t.err
  | .fault _ => false
  | .refused _ => false

theorem of_completes {i : Instr} {s : State} (h : completes i s = true) :
    ∃ t, exec i s = .next t ∧ s.err = false ∧ t.err = false := by
  unfold completes at h
  split at h
  · next t ht => exact ⟨t, ht, by simpa using h⟩
  · cases h
  · cases h

theorem of_fails {i : Instr} {s : State} (h : fails i s = true) :
    ∃ t, exec i s = .next t ∧ s.err = false ∧ t.err = true := by
  unfold fails at h
  split at h
  · next t ht => exact ⟨t, ht, by simpa using h⟩
  · cases h
  · cases h

/-- Every command completes without error somewhere: a witness of each clause of NoCommandTouchesTheHostSide,
ResultRegistersRule, ValidityFlags, OutIsKeptByCommandsThatDoNotWriteIt and CommandsEndOrRaiseAListedError. -/
theorem test_meets_CommandsEnd :
    ∀ p ∈ ([(.nop, machine), (.clear, working), (.tblRead 0x63, working), (.nodeRead 6, working), (.freqBuild, working),
      (.treeBuild, working), (.codeGen, working), (.bwInit, working), (.bwWriteBit true, working),
      (.bwWriteCode 0x61, working), (.bwFinish, working), (.brInit, working), (.brReadBit, working),
      (.brDecodeSym, working), (.compress, working), (.decompress, load c3 working)] : List (Instr × State)),
    ∃ t, exec p.1 p.2 = .next t ∧ p.2.err = false ∧ t.err = false :=
  fun p hp => of_completes (List.all_eq_true.mp
    (show List.all _ (fun p : Instr × State => completes p.1 p.2) = true by decide +kernel) p hp)

/-- Every command that rule R289 gives an error raises one somewhere. -/
theorem test_meets_CommandsRaise :
    ∀ p ∈ ([(.nodeRead 7, working), (.freqBuild, { working with inLen := 4097 }), (.treeBuild, Tests.counted []),
      (.codeGen, machine), (.bwInit, { working with bwBase := 4097 }), (.bwWriteBit true, writing 4096 machine),
      (.bwWriteCode 0x7A, working), (.bwFinish, machine), (.brInit, { working with brBase := 3 }),
      (.brReadBit, { working with brPos := 14 }), (.brDecodeSym, { working with brPos := 14 }),
      (.compress, load [0x61, 0x62] small), (.decompress, working)] : List (Instr × State)),
    ∃ t, exec p.1 p.2 = .next t ∧ p.2.err = false ∧ t.err = true :=
  fun p hp => of_fails (List.all_eq_true.mp
    (show List.all _ (fun p : Instr × State => fails p.1 p.2) = true by decide +kernel) p hp)

/-! ### Tables -/

theorem test_meets_NodeReadReturnsTheNode : machine.treeValid = false ∧
    (working.treeValid = true ∧ working.nodeCount ≤ 7) ∧ (6 : Handle) < working.nodeCount := by decide +kernel

theorem test_meets_FreqBuildCounts :
    { machine with inLen := 4097 }.params.inCap < { machine with inLen := 4097 }.inLen.toNat ∧
    { machine with inLen := 4096 }.inLen.toNat ≤ { machine with inLen := 4096 }.params.inCap := by decide

theorem test_meets_TreeBuildMerges : machine.freqValid = false ∧
    ((Tests.counted []).freqValid = true ∧ ∀ sym, (Tests.counted []).freqAt sym = 0) ∧
    ((Tests.counted abacabad).freqValid = true ∧ (Tests.counted abacabad).freqAt 0x64 ≠ 0 ∧
      listsPresent (presentSymbols (Tests.counted abacabad).freq) (Tests.counted abacabad)) :=
  ⟨rfl, ⟨rfl, by decide +kernel⟩, rfl, by decide +kernel, listsPresent_presentSymbols _⟩

theorem test_meets_CodeGenHoldsThePaths : machine.treeValid = false ∧ working.treeValid = true ∧
    TreeShape working 4 := ⟨rfl, by decide +kernel, working_shape⟩

/-! ### Streams -/

theorem test_meets_BwInitOpensTheWriter :
    { machine with bwBase := 4097 }.params.outCap < { machine with bwBase := 4097 }.bwBase.toNat ∧
    { machine with bwBase := 4096 }.bwBase.toNat ≤ { machine with bwBase := 4096 }.params.outCap := by decide

/-- The last byte of OUT half written, a whole stream before it, and a writer past the end. -/
theorem test_meets_BwWriteBitAppends : machine.bwOpen = false ∧
    ((writing 4096 machine).bwOpen = true ∧ (writing 4096 machine).bwTotal.toNat % 8 = 0 ∧
      (writing 4096 machine).params.outCap ≤
        (writing 4096 machine).bwOrg.toNat + (writing 4096 machine).bwTotal.toNat / 8) ∧
    (WriterOk { writing 4095 machine with bwTotal := 7, bwAcc := 0xFE } ∧
      { writing 4095 machine with bwTotal := 7, bwAcc := 0xFE }.bwTotal.toNat % 8 ≠ 0) ∧
    (WriterOk (writing 4095 machine) ∧ (writing 4095 machine).bwTotal.toNat % 8 = 0 ∧
      (writing 4095 machine).bwOrg.toNat + (writing 4095 machine).bwTotal.toNat / 8 < machine.params.outCap) := by
  refine ⟨rfl, by decide, ⟨⟨by decide, fun i hi => ?_⟩, by decide⟩, ⟨by decide, fun i _ => ?_⟩, by decide⟩
  · obtain rfl : i = 0 := by
      have : i + 7 < 8 := hi
      omega
    rfl
  · show (0 : BitVec 8).getLsbD i = false
    simp

/-- The codes "0" and "111" of "abacabad" at the end of OUT: the first opens byte 4096, the second fits byte 4095. -/
theorem test_meets_BwWriteCodeAppendsTheCode : machine.bwOpen = false ∧
    ((writing 0 (grown abacabad)).bwOpen = true ∧ (writing 0 (grown abacabad)).codeValid = false) ∧
    (working.bwOpen = true ∧ working.codeValid = true ∧ working.codeLenAt 0x7A = 0) ∧
    (WriterOk (writing 4096 working) ∧ (writing 4096 working).codeValid = true ∧ (writing 4096 working).codeLenAt 0x61 ≠ 0 ∧
      (writing 4096 working).params.outCap < (writing 4096 working).bwOrg.toNat +
        ceilDiv8 ((writing 4096 working).bwTotal.toNat + ((writing 4096 working).codeLenAt 0x61).toNat)) ∧
    (WriterOk (writing 4095 working) ∧ (writing 4095 working).codeValid = true ∧ (writing 4095 working).codeLenAt 0x64 ≠ 0 ∧
      (writing 4095 working).bwOrg.toNat +
        ceilDiv8 ((writing 4095 working).bwTotal.toNat + ((writing 4095 working).codeLenAt 0x64).toNat) ≤
        (writing 4095 working).params.outCap) := by
  refine ⟨rfl, ⟨rfl, rfl⟩, ⟨rfl, by decide +kernel, by decide +kernel⟩,
    ⟨⟨by decide +kernel, fun i _ => ?_⟩, by decide +kernel, by decide +kernel, by decide +kernel⟩,
    ⟨⟨by decide +kernel, fun i _ => ?_⟩, by decide +kernel, by decide +kernel, by decide +kernel⟩⟩ <;>
  · show (0 : BitVec 8).getLsbD i = false
    simp

theorem test_meets_BwFinishPadsTheLastByte : machine.bwOpen = false ∧
    (WriterOk (writing 4096 machine) ∧ (writing 4096 machine).bwTotal = 0) ∧
    (WriterOk { writing 4095 machine with bwTotal := 1, bwAcc := 0x80 } ∧
      { writing 4095 machine with bwTotal := 1, bwAcc := 0x80 }.bwTotal ≠ 0) := by
  refine ⟨rfl, ⟨⟨by decide, fun i _ => ?_⟩, rfl⟩, ⟨by decide, fun i hi => ?_⟩, by decide⟩
  · show (0 : BitVec 8).getLsbD i = false
    simp
  · have hlt : i < 7 := by
      have : i + 1 < 8 := hi
      omega
    show (0x80 : BitVec 8).getLsbD i = false
    have key : ∀ j < 7, (0x80 : BitVec 8).getLsbD j = false := by decide
    exact key i hlt

/-- V44-16 and V44-17. -/
theorem test_meets_BrInitOpensTheReader : { machine with inLen := 4097 }.params.inCap < 4097 ∧
    ((load [0xA0] machine).inLen.toNat ≤ machine.params.inCap ∧ (load [0xA0] machine).inLen.toNat < 0 + ceilDiv8 9) ∧
    1 + ceilDiv8 0 ≤ (load [0xA0] machine).inLen.toNat := by decide

theorem test_meets_BrReadBitReturnsTheNextBit : machine.brOpen = false ∧
    ({ working with brPos := 14 }.brOpen = true ∧
      { working with brPos := 14 }.brLim.toNat ≤ { working with brPos := 14 }.brPos.toNat) ∧
    { working with brPos := 13 }.brPos.toNat < { working with brPos := 13 }.brLim.toNat := by decide

/-- The reader of `s` on the first `lim` bits of `bs`, `pos` of them read. -/
def readingAt (bs : List Byte) (lim pos : Word) (s : State) : State := { reading bs lim s with brPos := pos }

theorem readingAt_shape {s : State} {k : Nat} (h : TreeShape s k) (bs : List Byte) (lim pos : Word) :
    TreeShape (readingAt bs lim pos s) k := h.congr (nodeAt_congr rfl) rfl rfl rfl

theorem readingAt_isCodeOf (s : State) (bs : List Byte) (lim pos : Word) :
    isCodeOf (readingAt bs lim pos s) = isCodeOf s :=
  isCodeOf_congr (s := s) (t := readingAt bs lim pos s) (nodeAt_congr rfl) rfl

theorem abacabad_ne : presentSymbols (Tests.counted abacabad).freq ≠ [] := by rw [abacabad_present]; decide

/-- The code of a symbol is the one in the table. -/
theorem code_of_working {p : List Bool} {sym : Byte} (h : isCodeOf working p sym) : p = codeBits working sym :=
  (codeBits_of_isCodeOf (workingOn_shape abacabad_ne) (workingOn_code abacabad_ne sym) h).symm

/-- A code in the table is the code of its symbol. -/
theorem working_isCodeOf {sym : Byte} (h : working.codeLenAt sym ≠ 0) :
    isCodeOf working (codeBits working sym) sym := by
  rcases workingOn_code abacabad_ne sym with ⟨p, hp, -⟩ | ⟨-, h0, -⟩
  · rwa [← code_of_working hp]
  · exact absurd h0 h

/-- V44-20: the code "111" of 'd' at the end of the stream, from bit 11 on; with no bit left; V44-23 and V44-19. -/
theorem test_meets_BrDecodeSymWalksToALeaf :
    machine.brOpen = false ∧ ((reading [0xC0] 2 machine).brOpen = true ∧ (reading [0xC0] 2 machine).treeValid = false) ∧
    (TreeShape (readingAt [0x4C, 0x9C] 14 11 working) 4 ∧
      isCodeOf (readingAt [0x4C, 0x9C] 14 11 working) [true, true, true] 0x64 ∧
      (∀ i (h : i < 3), inStreamBit (readingAt [0x4C, 0x9C] 14 11 working) 0 (11 + i) = [true, true, true][i])) ∧
    (readingAt [0x4C, 0x9C] 14 14 working).brLim.toNat ≤ (readingAt [0x4C, 0x9C] 14 14 working).brPos.toNat := by
  refine ⟨rfl, ⟨rfl, rfl⟩, ⟨readingAt_shape working_shape _ _ _, ?_, by decide⟩, by decide⟩
  rw [readingAt_isCodeOf, show [true, true, true] = codeBits working 0x64 by decide +kernel]
  exact working_isCodeOf (by decide +kernel)

/-- V44-21: two bits "11" are inside the codes of 'c' and 'd'. -/
theorem test_meets_BrDecodeSym_endInsideACode : TreeShape (readingAt [0xC0] 2 0 working) 4 ∧
    ∀ p sym, isCodeOf (readingAt [0xC0] 2 0 working) p sym →
      (∀ i (h : i < p.length), inStreamBit (readingAt [0xC0] 2 0 working) 0 (0 + i) = p[i]) → 2 < 0 + p.length := by
  refine ⟨readingAt_shape working_shape _ _ _, fun p sym hp hb => ?_⟩
  rw [readingAt_isCodeOf] at hp
  obtain rfl := code_of_working hp
  have key : ∀ sym : Byte, codeBits working sym = [] ∨ codeBits working sym = [false] ∨
      codeBits working sym = [true, false] ∨ 2 < (codeBits working sym).length := by decide +kernel
  rcases key sym with h | h | h | h
  · have := (working_shape.code_length_bounds hp).1
    rw [h] at this
    exact absurd this (by decide)
  · rw [h] at hb; exact absurd (hb 0 (by decide)) (by decide)
  · rw [h] at hb; exact absurd (hb 1 (by decide)) (by decide)
  · omega

/-- V44-22: a 1 bit where the only leaf is ROOT. -/
theorem test_meets_BrDecodeSym_oneLeaf : TreeShape (readingAt [0x40] 2 1 (workingOn [0x41])) 1 ∧
    (readingAt [0x40] 2 1 (workingOn [0x41])).brPos.toNat < (readingAt [0x40] 2 1 (workingOn [0x41])).brLim.toNat ∧
    inStreamBit (readingAt [0x40] 2 1 (workingOn [0x41])) 0 1 = true := by
  have h : presentSymbols (Tests.counted [0x41]).freq = [(0x41, 1)] := by decide +kernel
  have hs := workingOn_shape (bs := [0x41]) (by rw [h]; decide)
  rw [h] at hs
  exact ⟨readingAt_shape hs _ _ _, by decide, by decide⟩

/-! ### COMPRESS and DECOMPRESS -/

/-- An instance with a larger IN than OUT. -/
def narrow : State := State.afterReset (paramsOf 64 16 (by decide)) 0 []

theorem test_meets_CompressOfTheEmptyInput : machine.inLen = 0 := rfl

/-- V45-14: the container of "A" fills an OUT of 16 bytes. -/
theorem test_meets_CompressWritesTheContainer : (load [0x41] small).inLen ≠ 0 ∧
    (load [0x41] small).inLen.toNat ≤ small.params.inCap ∧ compressedSize (load [0x41] small) = 16 ∧
    small.params.outCap = 16 := by decide +kernel

/-- V45-15 and V45-16. -/
theorem test_meets_CompressErrors :
    { small with inLen := 17 }.params.inCap < { small with inLen := 17 }.inLen.toNat ∧
    ((load [0x61, 0x62] small).inLen.toNat ≤ small.params.inCap ∧ (load [0x61, 0x62] small).inLen ≠ 0 ∧
      small.params.outCap < compressedSize (load [0x61, 0x62] small)) := by decide +kernel

/-- One state for each of the tests 1 to 8 of rule R248, at the edges of their ranges, and the empty container. -/
theorem test_meets_DecompressTestsTheFixedHeader :
    { small with inLen := 17 }.params.inCap < { small with inLen := 17 }.inLen.toNat ∧
    (let s := load [0x01] machine
     s.inLen.toNat ≤ s.params.inCap ∧ s.inLen.toNat < 2) ∧
    (let s := load [0x02, 0x01] machine
     s.inLen.toNat ≤ s.params.inCap ∧ 2 ≤ s.inLen.toNat ∧ s.inAt 0 ≠ 1) ∧
    (let s := load [0x01, 0x02] machine
     s.inLen.toNat ≤ s.params.inCap ∧ 2 ≤ s.inLen.toNat ∧ s.inAt 0 = 1 ∧ 1 < (s.inAt 1).toNat) ∧
    (let s := load [0x01, 0x01, 0x00] machine
     s.inLen.toNat ≤ s.params.inCap ∧ 2 ≤ s.inLen.toNat ∧ s.inAt 0 = 1 ∧ s.inAt 1 = 1 ∧ s.inLen ≠ 2) ∧
    (let s := load [0x01, 0x01] machine
     s.inLen.toNat ≤ s.params.inCap ∧ 2 ≤ s.inLen.toNat ∧ s.inAt 0 = 1 ∧ s.inAt 1 = 1 ∧ s.inLen = 2) ∧
    (let s := load [0x01, 0x00, 0x04, 0x00, 0x00] machine
     s.inLen.toNat ≤ s.params.inCap ∧ 2 ≤ s.inLen.toNat ∧ s.inAt 0 = 1 ∧ s.inAt 1 = 0 ∧ s.inLen.toNat < 6) ∧
    (let s := load (c3.set 2 0) machine
     s.inLen.toNat ≤ s.params.inCap ∧ s.inAt 0 = 1 ∧ s.inAt 1 = 0 ∧ 6 ≤ s.inLen.toNat ∧ le32In s 2 = 0) ∧
    (let s := load ((c3.set 2 1).set 3 1) machine
     s.inLen.toNat ≤ s.params.inCap ∧ s.inAt 0 = 1 ∧ s.inAt 1 = 0 ∧ 6 ≤ s.inLen.toNat ∧ le32In s 2 = 257) ∧
    (let s := load (c3.take 29) machine
     s.inLen.toNat ≤ s.params.inCap ∧ s.inAt 0 = 1 ∧ s.inAt 1 = 0 ∧ 6 ≤ s.inLen.toNat ∧ 1 ≤ le32In s 2 ∧
     le32In s 2 ≤ 256 ∧ s.inLen.toNat < 10 + 5 * le32In s 2) := by decide +kernel

/-- The second entry a duplicate, and the first and the last entry with the count 0. -/
theorem test_meets_DecompressTestsTheEntries :
    (let s := load (c3.set 11 0x61) machine
     s.inLen.toNat ≤ s.params.inCap ∧ s.inAt 0 = 1 ∧ s.inAt 1 = 0 ∧ 1 ≤ le32In s 2 ∧ le32In s 2 ≤ 256 ∧
     10 + 5 * le32In s 2 ≤ s.inLen.toNat ∧ 1 < le32In s 2 ∧
     (∀ j < 1, le32In s (7 + 5 * j) ≠ 0 ∧ ∀ j' < j, s.inAt (6 + 5 * j') ≠ s.inAt (6 + 5 * j)) ∧
     s.inAt (6 + 5 * 0) = s.inAt (6 + 5 * 1)) ∧
    (let s := load (c3.set 7 0) machine
     s.inLen.toNat ≤ s.params.inCap ∧ s.inAt 0 = 1 ∧ s.inAt 1 = 0 ∧ 1 ≤ le32In s 2 ∧ le32In s 2 ≤ 256 ∧
     10 + 5 * le32In s 2 ≤ s.inLen.toNat ∧ 0 < le32In s 2 ∧ le32In s (7 + 5 * 0) = 0) ∧
    (let s := load (c3.set 22 0) machine
     s.inLen.toNat ≤ s.params.inCap ∧ s.inAt 0 = 1 ∧ s.inAt 1 = 0 ∧ 1 ≤ le32In s 2 ∧ le32In s 2 ≤ 256 ∧
     10 + 5 * le32In s 2 ≤ s.inLen.toNat ∧ 3 < le32In s 2 ∧
     (∀ j < 3, le32In s (7 + 5 * j) ≠ 0 ∧ ∀ j' < j, s.inAt (6 + 5 * j') ≠ s.inAt (6 + 5 * j)) ∧
     (∀ j < 3, s.inAt (6 + 5 * j) ≠ s.inAt (6 + 5 * 3)) ∧ le32In s (7 + 5 * 3) = 0) := by decide +kernel

/-- The entries of the container of "abacabad". -/
def entries3 : List (Byte × BitVec 32) := [(0x61, 4), (0x62, 2), (0x63, 1), (0x64, 1)]

/-- The entries of `headerAabc`. -/
def entriesAabc : List (Byte × BitVec 32) := [(0x61, 2), (0x62, 1), (0x63, 1)]

/-- The entry of `headerA`. -/
def entriesA : List (Byte × BitVec 32) := [(0x41, 10)]

/-- V46-32: 'A' 17 times, B = 17. -/
def container17 : List Byte :=
  [0x01, 0x00, 0x01, 0x00, 0x00, 0x00, 0x41, 0x11, 0x00, 0x00, 0x00, 0x11, 0x00, 0x00, 0x00, 0x00, 0x00, 0x00]

theorem all_mem {α : Type} {p : α → Prop} [DecidablePred p] {l : List α} (h : l.all (fun x => decide (p x)) = true) :
    ∀ x ∈ l, p x := by simpa using h

/-- A container that passes the tests 1 to 10, by evaluation. -/
theorem headerOk_of {s : State} {l : List (Byte × BitVec 32)}
    (h : s.inLen.toNat ≤ s.params.inCap ∧ s.inAt 0 = 1 ∧ s.inAt 1 = 0 ∧
      (1 ≤ l.length ∧ l.length ≤ 256 ∧ le32In s 2 = l.length) ∧ 10 + 5 * l.length ≤ s.inLen.toNat ∧
      (∀ i (h : i < l.length), s.inAt (6 + 5 * i) = l[i].1 ∧ le32In s (7 + 5 * i) = l[i].2.toNat) ∧
      (l.Pairwise fun x y => x.1 ≠ y.1) ∧ l.all (fun e => decide (e.2 ≠ 0)) = true) : HeaderOk s l :=
  ⟨h.1, h.2.1, h.2.2.1, h.2.2.2.1, h.2.2.2.2.1, h.2.2.2.2.2.1, h.2.2.2.2.2.2.1, all_mem h.2.2.2.2.2.2.2⟩

theorem containerOk_c3 : ContainerOk (load c3 machine) entries3 :=
  ⟨headerOk_of (by decide +kernel), by decide +kernel, by decide +kernel, by decide +kernel⟩

/-- The wrong bit count, a byte too few, a byte too many, and 17 symbols for 16 bytes of OUT (V46-32). -/
theorem test_meets_DecompressTestsTheHeaderAgainstTheTree :
    (let s := load (c3.set 26 0x0D) machine
     HeaderOk s entries3 ∧ le32In s (6 + 5 * entries3.length) ≠ listBits entries3 s) ∧
    (let s := load (c3.take 31) machine
     HeaderOk s entries3 ∧ le32In s (6 + 5 * entries3.length) = listBits entries3 s ∧
     s.inLen.toNat < 10 + 5 * entries3.length + ceilDiv8 (listBits entries3 s)) ∧
    (let s := load (c3 ++ [0]) machine
     HeaderOk s entries3 ∧ le32In s (6 + 5 * entries3.length) = listBits entries3 s ∧
     10 + 5 * entries3.length + ceilDiv8 (listBits entries3 s) < s.inLen.toNat) ∧
    (let s := load container17 narrow
     HeaderOk s [(0x41, 17)] ∧ le32In s 11 = listBits [(0x41, 17)] s ∧
     s.inLen.toNat = 15 + ceilDiv8 (listBits [(0x41, 17)] s) ∧ s.params.outCap < 17) := by
  refine ⟨⟨headerOk_of ?_, ?_⟩, ⟨headerOk_of ?_, ?_⟩, ⟨headerOk_of ?_, ?_⟩, headerOk_of ?_, ?_⟩ <;> decide +kernel

theorem test_meets_DecompressRecoversTheSymbols : ContainerOk (load c3 machine) entries3 ∧
    payloadOf (load c3 machine) entries3 = abacabad.flatMap (listCode entries3 (load c3 machine)) ∧
    abacabad.length = (entries3.map fun e => e.2.toNat).sum ∧ ∀ x ∈ abacabad, ∃ e ∈ entries3, e.1 = x :=
  ⟨containerOk_c3, by decide +kernel, by decide, by decide⟩

theorem containerOk_aabc (b : Byte) (hb : b ∈ ([0x00, 0xA8, 0xB4] : List Byte)) :
    ContainerOk (load (headerAabc ++ [b]) machine) entriesAabc := by
  fin_cases hb <;> exact ⟨headerOk_of (by decide +kernel), by decide +kernel, by decide +kernel, by decide +kernel⟩

/-- Rule R250: four symbols and two bits more; three symbols and no bit more; three symbols and the bit 1, the start of
"10" and "11"; a 1 bit where the code of 'A' is "0". -/
theorem test_meets_DecompressTestsThePayload :
    (let s := load (headerAabc ++ [0x00]) machine
     ContainerOk s entriesAabc ∧
     payloadOf s entriesAabc = [0x61, 0x61, 0x61, 0x61].flatMap (listCode entriesAabc s) ++ [false, false] ∧
     [0x61, 0x61, 0x61, 0x61].length = (entriesAabc.map fun e => e.2.toNat).sum) ∧
    (let s := load (headerAabc ++ [0xA8]) machine
     ContainerOk s entriesAabc ∧ payloadOf s entriesAabc = [0x62, 0x62, 0x62].flatMap (listCode entriesAabc s) ++ [] ∧
     [0x62, 0x62, 0x62].length < (entriesAabc.map fun e => e.2.toNat).sum) ∧
    (let s := load (headerAabc ++ [0xB4]) machine
     ContainerOk s entriesAabc ∧
     payloadOf s entriesAabc = [0x62, 0x63, 0x61].flatMap (listCode entriesAabc s) ++ [true] ∧
     [0x62, 0x63, 0x61].length < (entriesAabc.map fun e => e.2.toNat).sum ∧
     ∀ e ∈ entriesAabc, ¬ listCode entriesAabc s e.1 <+: [true]) ∧
    (let s := load (headerA ++ [0x80, 0x00]) machine
     ContainerOk s entriesA ∧
     payloadOf s entriesA = [].flatMap (listCode entriesA s) ++ (true :: List.replicate 9 false) ∧
     0 < (entriesA.map fun e => e.2.toNat).sum ∧ entriesA.length = 1) ∧
    (∀ x ∈ [0x61, 0x62, 0x63], ∃ e ∈ entriesAabc, e.1 = x) := by
  refine ⟨⟨containerOk_aabc _ (by decide), by decide +kernel, by decide⟩,
    ⟨containerOk_aabc _ (by decide), by decide +kernel, by decide⟩,
    ⟨containerOk_aabc _ (by decide), by decide +kernel, by decide, all_mem (by decide +kernel)⟩,
    ⟨?_, by decide +kernel, by decide, rfl⟩, by decide +kernel⟩
  exact ⟨headerOk_of (by decide +kernel), by decide +kernel, by decide +kernel, by decide +kernel⟩

/-! ### The whole block -/

/-- The state after a command. -/
def after (i : Instr) (s : State) : State :=
  match exec i s with
  | .next t => t
  | .fault _ => s
  | .refused _ => s

theorem exec_after {i : Instr} {s : State} (h : completes i s = true) : exec i s = .next (after i s) := by
  obtain ⟨t, ht, -⟩ := of_completes h
  unfold after
  rw [ht]

/-- The state after COMPRESS of "abacabad", with BW_BASE at the payload. -/
def packed : State := after .compress { load abacabad machine with bwBase := 30 }

/-- Also a witness of PrimitivesMakeThePayloadOfCompress. -/
theorem test_meets_RoundTrip :
    let s := { load abacabad machine with bwBase := 30 }
    let u := { machine with inLen := packed.outLen, inBuf := packed.outBuf }
    exec .compress s = .next packed ∧ s.err = false ∧ packed.err = false ∧
    (∀ a < packed.outLen.toNat, u.inAt a = packed.outAt a) ∧ u.inLen.toNat ≤ u.params.inCap ∧
    s.inLen.toNat ≤ u.params.outCap ∧ u.err = false ∧
    (s.inLen ≠ 0 ∧ s.bwBase.toNat = 10 + 5 * packed.symCount.toNat) :=
  ⟨exec_after (by decide +kernel), by decide +kernel, by decide +kernel, by decide +kernel, by decide +kernel,
    by decide +kernel, by decide +kernel, by decide +kernel⟩

/-- The same input in two states that differ in every table, both streams and the number of draws. -/
theorem test_meets_CompressDependsOnItsInputAlone :
    let s := load abacabad machine
    let s' := load abacabad { working with draw := 9, params := elsewhere }
    s.params.inCap = s'.params.inCap ∧ s.params.outCap = s'.params.outCap ∧ s.inLen = s'.inLen ∧ (∀ a < s.inLen.toNat, s.inAt a = s'.inAt a) ∧
    (∃ t, exec .compress s = .next t) ∧ (∃ t, exec .compress s' = .next t ∧ t.err = false) ∧
    s.err = false ∧ s'.err = false ∧ s.errCode = s'.errCode ∧ s.errInfo = s'.errInfo := by
  refine ⟨?_, ?_, ?_, ?_, ⟨_, exec_after (by decide +kernel)⟩, ⟨_, exec_after (by decide +kernel), ?_⟩, ?_, ?_, ?_, ?_⟩ <;>
    decide +kernel

theorem test_meets_DecompressDependsOnItsInputAlone :
    let s := load c3 machine
    let s' := load c3 { working with draw := 9, params := elsewhere }
    s.params.inCap = s'.params.inCap ∧ s.params.outCap = s'.params.outCap ∧ s.inLen = s'.inLen ∧ (∀ a < s.inLen.toNat, s.inAt a = s'.inAt a) ∧
    (∃ t, exec .decompress s = .next t) ∧ (∃ t, exec .decompress s' = .next t ∧ t.err = false) ∧
    s.err = false ∧ s'.err = false ∧ s.errCode = s'.errCode ∧ s.errInfo = s'.errInfo := by
  refine ⟨?_, ?_, ?_, ?_, ⟨_, exec_after (by decide +kernel)⟩, ⟨_, exec_after (by decide +kernel), ?_⟩, ?_, ?_, ?_, ?_⟩ <;>
    decide +kernel

/-- The accept step keeps the invariant, so that every command has a state that meets it to run in. -/
theorem invariant_accept {s : State} (h : Invariant s) (w : Word) : Invariant (acceptAndRun w s) where
  inBuf := h.inBuf
  outBuf := h.outBuf
  busy := fun _ => ⟨rfl, rfl⟩
  errBit := ⟨(fun h => nomatch h), fun h => absurd rfl h⟩
  errPair := .inl ⟨rfl, rfl⟩
  flags := h.flags
  freq := h.freq
  tree := fun ht => (h.tree ht).congr (nodeAt_congr rfl) rfl rfl rfl
  code := fun hc sym => codeEntryOk_congr (s := s) (t := acceptAndRun w s) rfl rfl rfl rfl (h.code hc sym)
  writer := fun hw => ⟨(h.writer hw).fits, (h.writer hw).clear⟩
  reader := fun hr => ⟨(h.reader hr).within, (h.reader hr).fits⟩

/-- BR_DECODE_SYM in a state that meets the invariant. -/
theorem test_meets_StepKeepsTheInvariant : Invariant (acceptAndRun 0x32 working) ∧
    (acceptAndRun 0x32 working).seq = .exec ∧ (run 0x32 working).res[0] = 0x61 ∧ (run 0x32 working).brPos = 1 :=
  ⟨invariant_accept test_meets_Invariant.1 _, rfl, by decide +kernel, by decide +kernel⟩

/-! ## Host addresses (R9, R54, R85) -/

/-- `machine` with one access by address to come. -/
def atBus (x : BusAccess) (s : State) : State := { s with agenda := [.bus x] }

/-- The response and the agenda of the next state. -/
def afterStep (s : State) : Option (Resp × List Move) :=
  match step s with
  | .next t => some (t.resp, t.agenda)
  | .fault _ => none
  | .refused _ => none

/-- ID is at REG_BASE and IN_CAP at REG_BASE + 0x44 (R22). -/
theorem test_bus_reads_ID_and_IN_CAP :
    afterStep (atBus (.readWord 0x1000) machine) = some (.word 0x48464301, []) ∧
    afterStep (atBus (.readWord 0x1044) machine) = some (.word 4096, []) ∧
    afterStep (atBus (.readWord 0x20044) { machine with params := elsewhere }) = some (.word 4096, []) := by
  decide +kernel

/-- "byte a is at window base + a" (R85). -/
theorem test_bus_reads_IN : afterStep (atBus (.readByte 0x10003) (load abacabad machine)) = some (.byte 0x63, []) := by
  decide +kernel

/-- The first and the last offset of each region. -/
theorem test_meets_BusAccessesAreTheMovesAtTheBases :
    (∀ off ∈ [0, 0xFF], off < 0x100 ∧
      (atBus (.readWord (0x1000 + off)) machine).agenda = [.bus (.readWord (machine.params.regBase + off))] ∧
      (atBus (.writeWord (0x1000 + off) 1) machine).agenda = [.bus (.writeWord (machine.params.regBase + off) 1)]) ∧
    machine.params.windowsMapped = true ∧
    (∀ off ∈ [0, 4095], off < machine.params.inCap ∧ off < machine.params.outCap ∧
      (atBus (.readByte (0x10000 + off)) machine).agenda = [.bus (.readByte (machine.params.inBase + off))] ∧
      (atBus (.writeByte (0x10000 + off) 1) machine).agenda = [.bus (.writeByte (machine.params.inBase + off) 1)] ∧
      (atBus (.readByte (0x20000 + off)) machine).agenda = [.bus (.readByte (machine.params.outBase + off))] ∧
      (atBus (.writeByte (0x20000 + off) 1) machine).agenda = [.bus (.writeByte (machine.params.outBase + off) 1)]) := by
  decide

/-- The addresses beside each region; the first and the last byte of the register block and of each window, with the
other width; and an address of a window that is not mapped. -/
theorem test_meets_BusAccessesOutsideTheRegionsStop :
    (∀ a ∈ [0xFFF, 0x1100, 0xFFFF, 0x11000, 0x1FFFF, 0x21000],
      (atBus (.readByte a) machine).agenda = [.bus (.readByte a)] ∧
      (a < machine.params.regBase ∨ machine.params.regBase + 0x100 ≤ a) ∧
      (a < machine.params.inBase ∨ machine.params.inBase + machine.params.inCap ≤ a) ∧
      (a < machine.params.outBase ∨ machine.params.outBase + machine.params.outCap ≤ a)) ∧
    ((atBus (.writeByte 0x10 0) { machine with params := elsewhere }).agenda = [.bus (.writeByte 0x10 0)] ∧
      0x10 < elsewhere.regBase ∧ elsewhere.windowsMapped ≠ true) ∧
    (∀ a ∈ [0x1000, 0x10FF], (atBus (.writeByte a 0) machine).agenda = [.bus (.writeByte a 0)] ∧
      machine.params.regBase ≤ a ∧ a < machine.params.regBase + 0x100) ∧
    (∀ a ∈ [0x10000, 0x10FFF, 0x20000, 0x20FFF],
      (atBus (.writeWord a 0) machine).agenda = [.bus (.writeWord a 0)] ∧ machine.params.windowsMapped = true ∧
      ((machine.params.inBase ≤ a ∧ a < machine.params.inBase + machine.params.inCap) ∨
        (machine.params.outBase ≤ a ∧ a < machine.params.outBase + machine.params.outCap))) := by
  decide

/-- A step that goes on, one that faults and one that is refused (V10-1 is the first's value). -/
theorem test_meets_BaseAddressesChangeNoMove :
    elsewhere.inCap = machine.params.inCap ∧ elsewhere.outCap = machine.params.outCap ∧ elsewhere ≠ machine.params ∧
    (hostNext (.regRead 0) machine).agenda = [.host (.regRead 0)] ∧
    (∃ t, step (hostNext (.regRead 0) machine) = .next t ∧ t.resp = .word 0x48464301) ∧
    step (hostNext (.inRead 4096) machine) = .fault .outsideIn ∧
    step (hostNext (.regRead 2) machine) = .refused .misalignedRegisterAccess :=
  ⟨rfl, rfl, by decide, rfl, ⟨_, rfl, rfl⟩, rfl, rfl⟩

/-- Reset by the platform, and COMPRESS of "abacabad". -/
theorem test_meets_NoStepChangesTheParameters :
    (∃ t, step { machine with params := elsewhere, agenda := [.reset] } = .next t ∧ t.params = elsewhere) ∧
    ∃ t, step (acceptAndRun 0x40 (load abacabad machine)) = .next t := by
  refine ⟨⟨_, rfl, rfl⟩, ?_⟩
  exact ⟨_, rfl⟩

end Sys2Proof.Tests
end

section
/-! SUPPORT. No code begins another (rules R16, R171 to R175): a fact of every code table that is that of a valid
tree, whichever command wrote it. -/

namespace Sys2Proof.Machine

/-- The code table of `s` is that of a valid tree (R46, R49, R50). -/
def CodedTree (s : State) : Prop := ∃ k, TreeShape s k ∧ ∀ sym, codeEntryOk s sym

theorem codeEntryOk_congr {s t : State} (hn : t.node = s.node) (hr : t.root = s.root) (hl : t.codeLen = s.codeLen)
    (hv : t.codeVal = s.codeVal) {sym : Byte} (h : codeEntryOk s sym) : codeEntryOk t sym := by
  simpa only [codeEntryOk, isCodeOf_congr (nodeAt_congr hn) hr, State.codeLenAt, State.codeValAt, hl, hv] using h

theorem CodedTree.congr {s t : State} (h : CodedTree s) (hn : t.node = s.node) (hr : t.root = s.root)
    (hc : t.nodeCount = s.nodeCount) (hf : t.freq = s.freq) (hl : t.codeLen = s.codeLen)
    (hv : t.codeVal = s.codeVal) : CodedTree t := by
  obtain ⟨k, ts, hcode⟩ := h
  exact ⟨k, ts.congr (nodeAt_congr hn) hr hc hf, fun sym => codeEntryOk_congr hn hr hl hv (hcode sym)⟩

/-- An entry that is not 0 is the code of its symbol, as a path and as the bits sent. -/
theorem isCodeOf_of_entryOk {s : State} {sym : Byte} (h : codeEntryOk s sym) (hne : s.codeLenAt sym ≠ 0) :
    isCodeOf s (codeBits s sym) sym := by
  rcases h with ⟨p, hp, hl, hv⟩ | ⟨-, h0, -⟩
  · rwa [codeBits_eq hl hv]
  · exact absurd h0 hne

/-- In a valid code table the symbols with an entry are the present symbols (R175). -/
theorem codeLenAt_ne_zero_iff {s : State} {k : Nat} (ts : TreeShape s k) {sym : Byte} (h : codeEntryOk s sym) :
    s.codeLenAt sym ≠ 0 ↔ s.freqAt sym ≠ 0 := by
  rw [← ts.code_exists_iff]
  rcases h with ⟨p, hp, hl, -⟩ | ⟨hno, h0, -⟩
  · have hpos := (ts.code_length_bounds hp).1
    refine ⟨fun _ => ⟨p, hp⟩, fun _ h0 => ?_⟩
    rw [h0] at hl
    simp only [BitVec.toNat_zero, BitVec.ofNat_eq_ofNat] at hl
    omega
  · exact ⟨fun hne => absurd h0 hne, fun ⟨p, hp⟩ => absurd hp (hno p)⟩

/-- A code that begins another symbol's code would pass through a leaf (R16). -/
theorem sym_eq_of_code_prefix {s : State} {p q : List Bool} {sym sym' : Byte} (hp : isCodeOf s p sym)
    (hq : isCodeOf s q sym') (hpq : p <+: q) : sym = sym' := by
  unfold isCodeOf at hp hq
  split at hp
  case isTrue hroot =>
    rw [if_pos hroot] at hq
    exact hp.2.symm.trans hq.2
  case isFalse hroot =>
    rw [if_neg hroot] at hq
    obtain ⟨g, hg, hleaf, rfl⟩ := hp
    obtain ⟨g', hg', -, rfl⟩ := hq
    obtain ⟨r, rfl⟩ := hpq
    obtain ⟨m, hm, hr⟩ := leadsTo_append.mp hg'
    obtain rfl := leadsTo_det hg hm
    obtain ⟨-, rfl⟩ := leadsTo_leaf hleaf hr
    rfl

/-- A tree of at least two leaves has two present symbols. -/
theorem TreeShape.two_present {s : State} {k : Nat} (ts : TreeShape s k) (hk : 2 ≤ k) :
    ∃ sym sym', sym ≠ sym' ∧ s.freqAt sym ≠ 0 ∧ s.freqAt sym' ≠ 0 := by
  have h0 : (0 : Handle).toNat < k := by simp; omega
  have h1 : (1 : Handle).toNat < k := by simp; omega
  obtain ⟨-, -, -, -, f0⟩ := ts.leaf 0 h0
  obtain ⟨-, -, -, -, f1⟩ := ts.leaf 1 h1
  exact ⟨_, _, fun he => absurd (ts.distinct 0 1 h0 h1 he) (by decide), f0, f1⟩

theorem CodedTree.prefixFree {s : State} (h : CodedTree s) {sym sym' : Byte} (hs : s.codeLenAt sym ≠ 0)
    (hs' : s.codeLenAt sym' ≠ 0) (hne : sym ≠ sym') : ¬ codeBits s sym <+: codeBits s sym' := by
  obtain ⟨k, ts, hcode⟩ := h
  exact fun hpre => hne
    (sym_eq_of_code_prefix (isCodeOf_of_entryOk (hcode sym) hs) (isCodeOf_of_entryOk (hcode sym') hs') hpre)

/-- "with one symbol the table holds the single code "0"" (R16, R173). -/
theorem CodedTree.single {s : State} (h : CodedTree s) {sym : Byte} (hs : s.codeLenAt sym ≠ 0)
    (honly : ∀ sym', s.codeLenAt sym' ≠ 0 → sym' = sym) : codeBits s sym = [false] := by
  obtain ⟨k, ts, hcode⟩ := h
  have hc := isCodeOf_of_entryOk (hcode sym) hs
  unfold isCodeOf at hc
  split at hc
  case isTrue => exact hc.1
  case isFalse hroot =>
    have hk : 2 ≤ k := by
      by_contra hlt
      have := ts.rootLast
      exact hroot (ts.leaf s.root (by have := ts.leaves; omega)).1
    obtain ⟨a, b, hab, ha, hb⟩ := ts.two_present hk
    exact absurd ((honly a ((codeLenAt_ne_zero_iff ts (hcode a)).mpr ha)).trans
      (honly b ((codeLenAt_ne_zero_iff ts (hcode b)).mpr hb)).symm) hab

/-! ## Where the code table comes from -/

theorem Invariant.codedTree {s : State} (h : Invariant s) (hv : s.codeValid = true) : CodedTree s :=
  ⟨_, h.tree (h.flags.1 hv), h.code hv⟩

theorem codedTree_codeGen {s : State} {k : Nat} (ts : TreeShape s k) : CodedTree (codeGen s) :=
  ⟨k, ts.congr (nodeAt_congr rfl) rfl rfl rfl, codeGen_entryOk ts⟩

theorem codedTree_tablesOf {s : State} (hne : s.inLen ≠ 0) : CodedTree (tablesOf s) :=
  codedTree_codeGen (treeBuild_shape (listsFreq_presentSymbols (s := counted s) (inputList_ne hne)))

theorem codedTree_rebuilt {l : SymFreqs} (g : GoodList l) (s : State) : CodedTree (rebuilt l s) :=
  ⟨_, rebuilt_shape g s, rebuilt_entryOk g s⟩

theorem codedTree_stage4 {s : State} {l : SymFreqs} (h : ContainerOk s l) : CodedTree (stage4 s l) :=
  (codedTree_rebuilt (good_of_HeaderOk h.header) (clearDerived s)).congr rfl rfl rfl rfl rfl rfl

theorem codeGen_codedTree {s t : State} (hs : Invariant s) (h : bodyOf .codeGen s = .ok t) : CodedTree t := by
  obtain ⟨htree, h⟩ := require_bind_ok_iff.mp h
  obtain rfl := Except.ok.inj h
  exact codedTree_codeGen (hs.tree htree)

theorem compress_codedTree {s t : State} (h : bodyOf .compress s = .ok t) (hv : t.codeValid = true) :
    CodedTree t := by
  obtain ⟨-, ⟨-, rfl⟩ | ⟨hne, -, hc⟩⟩ := compress_cases h
  · simp [counted] at hv
  · rw [hc.fields]
    exact (codedTree_tablesOf hne).congr rfl rfl rfl rfl rfl rfl

theorem decompress_codedTree {s t : State} (h : bodyOf .decompress s = .ok t) (hv : t.codeValid = true) :
    CodedTree t := by
  rcases decompress_ok_cases h with ⟨-, -, -, -, rfl⟩ | ⟨l, v, hc, hloop, rfl⟩
  · simp at hv
  · rw [show v = _ from decodeLoop_only hloop]
    exact (codedTree_stage4 hc).congr rfl rfl rfl rfl rfl rfl

/-- Error entry clears CODE_VALID (R287, R288), so a valid table is one a body that ended has left. -/
theorem body_ok_of_codeValid {i : Instr} {s t : State} (h : exec i s = .next t) (hv : t.codeValid = true) :
    bodyOf i s = .ok t := by
  rw [exec_eq_runBody] at h
  rcases runBody_cases h with h | ⟨c, -, rfl⟩
  · exact h
  · simp at hv

/-- Settles O31: the table is that of a valid tree, whose codes end in leaves, so that none continues another. -/
theorem codesArePrefixFree : Obligations.CodesArePrefixFree := by
  intro s t hs ht hv
  have hcoded : CodedTree t := by
    rcases ht with rfl | ⟨i, rfl | rfl | rfl, hexec⟩
    · exact hs.codedTree hv
    · exact codeGen_codedTree hs (body_ok_of_codeValid hexec hv)
    · exact compress_codedTree (body_ok_of_codeValid hexec hv) hv
    · exact decompress_codedTree (body_ok_of_codeValid hexec hv) hv
  exact ⟨fun _ _ => hcoded.prefixFree, fun _ => hcoded.single⟩

end Sys2Proof.Machine
end

section
/-! SUPPORT. DECOMPRESS reads back the container COMPRESS wrote (rules R14, R153, R243). -/

namespace Sys2Proof.Machine

/-! ## The container of COMPRESS read back (R14) -/

/-- IN of `u` holds the container that OUT of `t` holds. -/
structure Loads (u t : State) : Prop where
  len : u.inLen = t.outLen
  bytes : ∀ a < t.outLen.toNat, u.inAt a = t.outAt a
  fits : u.inLen.toNat ≤ u.params.inCap

theorem decompress_emptyContainer {u : State} (hfit : u.inLen.toNat ≤ u.params.inCap) (hlen : u.inLen = 2)
    (h0 : u.inAt 0 = 1) (h1 : u.inAt 1 = 1) :
    bodyOf .decompress u = .ok { clearDerived u with freq := Vector.replicate 256 0, freqValid := true } := by
  have hn : u.inLen.toNat = 2 := by rw [hlen]; rfl
  rw [decompress_eq, require_bind_pos hfit, require_bind_pos (by omega), require_bind_pos h0, h1,
    require_bind_pos (by decide), if_pos flag0_1, require_bind_pos hn]

theorem roundTrip_empty {s u : State}
    (hu : Loads u { putOutBytes 0 [0x01, 0x01] (counted s) with outLen := 2 }) :
    ∃ v, bodyOf .decompress u = .ok v ∧ v.outLen = 0 := by
  have hbyte : ∀ i (hi : i < 2), u.inAt i = ([0x01, 0x01] : List Byte)[i] := fun i hi => by
    rw [hu.bytes i hi, ← outAt_putOutBytes 0 [0x01, 0x01] (counted s) hi, Nat.zero_add]
    rfl
  exact ⟨_, decompress_emptyContainer hu.fits hu.len (hbyte 0 (by omega)) (hbyte 1 (by omega)), rfl⟩

/-- The container's length fits OUT_LEN. -/
theorem Compressed.outLen_toNat {l : SymFreqs} {bits : List Bool} {t v : State} (h : Compressed l bits t v) :
    v.outLen.toNat = headerSize l.length + ceilDiv8 bits.length := by
  have hcap := t.params.bounded.2.2
  have hsmall := h.small
  rw [h.fields, BitVec.toNat_ofNat]
  exact Nat.mod_eq_of_lt (by omega)

theorem Loads.inHas_header {l : SymFreqs} {bits : List Bool} {t t' u : State} (h : Compressed l bits t t')
    (hu : Loads u t') : inHas u 0 (headerBytes l bits.length) := by
  intro i hi
  have hlen := h.outLen_toNat
  rw [Nat.zero_add, hu.bytes i (by rw [length_headerBytes] at hi; omega), h.header i hi]

theorem Loads.payloadBit {l : SymFreqs} {bits : List Bool} {t t' u : State} (h : Compressed l bits t t')
    (hu : Loads u t') {k : Nat} (hk : k < bits.length) : inStreamBit u (headerSize l.length) k = bits[k] := by
  have hlen := h.outLen_toNat
  have hk' : k < 8 * ceilDiv8 bits.length := by unfold ceilDiv8; omega
  have hpay := h.payload k hk'
  rw [dif_pos hk] at hpay
  rw [← hpay, inStreamBit, outStreamBit, hu.bytes _ (by unfold streamByte; omega)]

theorem Loads.goodHeader {s t u : State} (hne : s.inLen ≠ 0)
    (h : Compressed (inputList s) (payloadBits (tablesOf s) s) (tablesOf s) t) (hu : Loads u t)
    (hroom : s.inLen.toNat ≤ u.params.outCap) :
    GoodHeader (clearDerived u) u.inLen.toNat (inputList s) := by
  have g := inputList_good hne
  have hbits : bitTotal (rebuilt (inputList s) (clearDerived u)) (inputList s) =
      (payloadBits (tablesOf s) s).length := by
    rw [listBits_rebuilt g (counted s), payload_len]
  have hsize : u.inLen.toNat = headerSize (inputList s).length + ceilDiv8 (payloadBits (tablesOf s) s).length := by
    rw [hu.len, h.outLen_toNat]
  refine ⟨g.nonempty, g.small, g.distinct, g.nonzero, ?header, ?size, ?fits, ?room⟩
  case header =>
    rw [hbits]
    exact Loads.inHas_header (u := u) h hu
  case size => rw [hbits, hsize]
  case fits =>
    have := hu.fits
    have := u.params.bounded.1.2
    omega
  case room =>
    rw [inputList_sum]
    exact hroom

theorem decompress_nonempty {u : State} (hfit : u.inLen.toNat ≤ u.params.inCap) (hlen : 2 ≤ u.inLen.toNat)
    (h0 : u.inAt 0 = 1) (h1 : u.inAt 1 = 0) :
    bodyOf .decompress u = decompressFull u.inLen.toNat (clearDerived u) := by
  rw [decompress_eq, require_bind_pos hfit, require_bind_pos hlen, require_bind_pos h0, h1,
    require_bind_pos (by decide), if_neg (by decide)]

theorem roundTrip_full {s t u : State} (hne : s.inLen ≠ 0)
    (h : Compressed (inputList s) (payloadBits (tablesOf s) s) (tablesOf s) t) (hu : Loads u t)
    (hroom : s.inLen.toNat ≤ u.params.outCap) :
    ∃ v, bodyOf .decompress u = .ok v ∧ v.outLen = s.inLen ∧ ∀ a < s.inLen.toNat, v.outAt a = s.inAt a := by
  have g := inputList_good hne
  have hgood := hu.goodHeader hne h hroom
  have hcodes : codeBits (rebuilt (inputList s) (clearDerived u)) = codeBits (tablesOf s) :=
    listCode_rebuilt g (counted s) (clearDerived u)
  obtain ⟨v, hv, hd⟩ := decompressFull_ok hgood (xs := inBytes s s.inLen.toNat) inputList_covers
    (by rw [length_inBytes, inputList_sum])
    (by rw [hcodes, listBits_rebuilt g (counted s), ← payload_len]; rfl)
    (fun k hk => by
      simp only [hcodes] at hk ⊢
      exact hu.payloadBit h hk)
  obtain ⟨h0, h1, -⟩ := hgood.fields
  have hsize : headerSize (inputList s).length ≤ u.inLen.toNat := by have := hgood.size; omega
  refine ⟨v, ?_, ?_, fun a ha => ?_⟩
  · rw [decompress_nonempty hu.fits (by unfold headerSize at hsize; omega) h0 h1, hv]
  · rw [hd.fields, length_inBytes]
    exact BitVec.ofNat_toNat ..
  · rw [hd.output a (by simpa using ha)]
    simp [inBytes]

/-- Settles O47: the header COMPRESS wrote passes the decoder's tests, the rebuilt code table is the one it used
(R153), and its payload decodes to the input (R243). -/
theorem roundTrip : Obligations.RoundTrip := by
  intro s t u hexec _ ht hlen hbytes hfits hroom hu
  have loads : Loads u t := ⟨hlen, hbytes, hfits⟩
  have hbody : ∃ v, bodyOf .decompress u = .ok v ∧ v.outLen = s.inLen ∧
      ∀ a < s.inLen.toNat, v.outAt a = s.inAt a := by
    obtain ⟨-, ⟨h0, rfl⟩ | ⟨hne, -, hc⟩⟩ := compress_cases (body_ok_of hexec ht)
    · obtain ⟨v, hv, hout⟩ := roundTrip_empty loads
      exact ⟨v, hv, hout.trans h0.symm, fun a ha => by rw [h0] at ha; exact absurd ha (Nat.not_lt_zero a)⟩
    · exact roundTrip_full hne hc loads hroom
  obtain ⟨v, hv, hout⟩ := hbody
  exact ⟨v, exec_ok hv, (body_kept hv).err.trans hu, hout⟩

end Sys2Proof.Machine
end

section
/-! SUPPORT. Two runs that end alike, and what COMPRESS and DECOMPRESS depend on (rules R15, R17). -/

namespace Sys2Proof.Machine

/-! ## Two runs that end alike -/

/-- Two bodies end alike: with results that `R` relates, or with the same error. -/
inductive Agree {α β : Type} (R : α → β → Prop) : Except Cause α → Except Cause β → Prop
  | ok {a : α} {b : β} (h : R a b) : Agree R (.ok a) (.ok b)
  | error (c : Cause) : Agree R (.error c) (.error c)

theorem Agree.bind {α β γ δ : Type} {R : α → β → Prop} {S : γ → δ → Prop} {x : Except Cause α} {y : Except Cause β}
    {f : α → Except Cause γ} {g : β → Except Cause δ} (h : Agree R x y)
    (hfg : ∀ a b, R a b → Agree S (f a) (g b)) : Agree S (x >>= f) (y >>= g) := by
  cases h with
  | ok hab => exact hfg _ _ hab
  | error c => exact .error c

/-- The same test in both runs; what follows may use that it passed. -/
theorem Agree.require {γ δ : Type} {S : γ → δ → Prop} {c c' : Prop} [Decidable c] [Decidable c'] (e : Cause)
    {f : Unit → Except Cause γ} {g : Unit → Except Cause δ} (hc : c ↔ c') (hfg : c → Agree S (f ()) (g ())) :
    Agree S (require c e >>= f) (require c' e >>= g) := by
  by_cases h : c
  · rw [require_bind_pos h, require_bind_pos (hc.mp h)]
    exact hfg h
  · rw [require_bind_neg h, require_bind_neg (mt hc.mpr h)]
    exact .error e

/-- The same branch in both runs. -/
theorem Agree.ite {α β : Type} {R : α → β → Prop} {c c' : Prop} [Decidable c] [Decidable c'] {x x' : Except Cause α}
    {y y' : Except Cause β} (hc : c ↔ c') (hpos : c → Agree R x y) (hneg : ¬ c → Agree R x' y') :
    Agree R (if c then x else x') (if c' then y else y') := by
  by_cases h : c
  · rw [if_pos h, if_pos (hc.mp h)]
    exact hpos h
  · rw [if_neg h, if_neg (mt hc.mpr h)]
    exact hneg h

/-- The same step in both runs. -/
theorem Agree.refl {α : Type} (x : Except Cause α) : Agree Eq x x := by
  cases x with
  | ok a => exact .ok rfl
  | error c => exact .error c

theorem Agree.foldlM {α β γ : Type} {R : α → β → Prop} {f : α → γ → Except Cause α} {g : β → γ → Except Cause β}
    (hfg : ∀ a b x, R a b → Agree R (f a x) (g b x)) (l : List γ) {a : α} {b : β} (h : R a b) :
    Agree R (l.foldlM f a) (l.foldlM g b) := by
  induction l generalizing a b with
  | nil => exact .ok h
  | cons x rest ih => exact (hfg a b x h).bind fun _ _ => ih

theorem Agree.mapError {α β : Type} {R : α → β → Prop} {x : Except Cause α} {y : Except Cause β} (h : Agree R x y)
    (m : Cause → Cause) : Agree R (x.mapError m) (y.mapError m) := by
  cases h with
  | ok hab => exact .ok hab
  | error c => exact .error (m c)

/-- Two commands whose bodies end alike: both end without error, or both do the same error entry. -/
theorem exec_agree {i i' : Instr} {s s' t t' : State} {R : State → State → Prop}
    (h : Agree R (bodyOf i s) (bodyOf i' s')) (ht : exec i s = .next t) (ht' : exec i' s' = .next t') :
    (R t t' ∧ KeptE s t ∧ KeptE s' t') ∨ ∃ c, t = errorEntry c s ∧ t' = errorEntry c s' := by
  rw [exec_eq_runBody] at ht ht'
  generalize hb : bodyOf i s = x at h ht
  generalize hb' : bodyOf i' s' = y at h ht'
  cases h with
  | ok hR =>
    cases ht
    cases ht'
    exact .inl ⟨hR, body_kept hb, body_kept hb'⟩
  | error c =>
    cases ht
    cases ht'
    exact .inr ⟨c, rfl, rfl⟩

/-! ## The decode loop of two runs -/

/-- The walk of the tree cannot tell apart two states that `R` relates, and keeps `R`; it meets handles in `good`
only. -/
structure Walkable (good : Handle → Prop) (R : State → State → Prop) : Prop where
  lim : ∀ {u u' : State}, R u u' → u.brLim = u'.brLim
  pos : ∀ {u u' : State}, R u u' → u.brPos = u'.brPos
  root : ∀ {u u' : State}, R u u' → u.root = u'.root ∧ good u.root
  node : ∀ {u u' : State} {h : Handle}, R u u' → good h → u.nodeAt h = u'.nodeAt h
  child : ∀ {u u' : State} {h : Handle} (b : Bool), R u u' → good h → (u.nodeAt h).isLeaf = false →
    good (childOf (u.nodeAt h) b)
  read : ∀ {u u' : State}, R u u' → Agree (fun r r' => r.1 = r'.1 ∧ R r.2 r'.2) (brReadBit u) (brReadBit u')

/-- The same symbol, after the same number of bits, in states that still go together. -/
def SameWalk (R : State → State → Prop) (r r' : Byte × Nat × State) : Prop :=
  r.1 = r'.1 ∧ r.2.1 = r'.2.1 ∧ R r.2.2 r'.2.2

theorem Walkable.walkFrom {good : Handle → Prop} {R : State → State → Prop} (w : Walkable good R) {left n : Nat}
    {cur : Handle} {u u' : State} (h : R u u') (hcur : good cur) :
    Agree (SameWalk R) (walkFrom left cur n u) (walkFrom left cur n u') := by
  induction left generalizing cur n u u' with
  | zero =>
    rw [Machine.walkFrom, Machine.walkFrom, ← w.node h hcur]
    exact .ite Iff.rfl (fun _ => .ok ⟨rfl, rfl, h⟩) fun _ => .error _
  | succ left ih =>
    rw [Machine.walkFrom, Machine.walkFrom, ← w.node h hcur]
    refine .ite Iff.rfl (fun _ => .ok ⟨rfl, rfl, h⟩) fun hleaf => (w.read h).bind ?_
    rintro ⟨b, t⟩ ⟨b', t'⟩ ⟨rfl, ht⟩
    exact ih ht (w.child b h hcur (by simpa using hleaf))

theorem Walkable.walkSymbol {good : Handle → Prop} {R : State → State → Prop} (w : Walkable good R) {u u' : State}
    (h : R u u') : Agree (SameWalk R) (walkSymbol u) (walkSymbol u') := by
  obtain ⟨hroot, hgood⟩ := w.root h
  rw [Machine.walkSymbol, Machine.walkSymbol, ← hroot, ← w.node h hgood, ← w.lim h, ← w.pos h]
  refine .ite Iff.rfl (fun _ => (w.read h).bind ?_) fun _ => w.walkFrom h hgood
  rintro ⟨b, t⟩ ⟨b', t'⟩ ⟨rfl, ht⟩
  exact .require _ Iff.rfl fun _ => .ok ⟨rfl, rfl, ht⟩

/-- The decode loop over two states that go together, where `R k` still holds of them with `k` bytes out. -/
theorem decodeLoop_agree {good : Handle → Prop} {R : Nat → State → State → Prop} (w : ∀ k, Walkable good (R k))
    (hput : ∀ {k : Nat} {u u' : State} (b : Byte), R k u u' → R (k + 1) (putOut k b u) (putOut k b u'))
    {left k : Nat} {u u' : State} (h : R k u u') :
    Agree (fun r r' => r.1 = r'.1 ∧ R r.1 r.2 r'.2) (decodeLoop left k u) (decodeLoop left k u') := by
  have hmore : ∀ {k u u'}, R k u u' → (u.brPos < u.brLim ↔ u'.brPos < u'.brLim) := fun {k _ _} h => by
    rw [(w k).pos h, (w k).lim h]
  induction left generalizing k u u' with
  | zero => exact .ite (hmore h) (fun _ => .error _) fun _ => .ok ⟨rfl, h⟩
  | succ left ih =>
    refine .ite (hmore h) (fun _ => (((w k).walkSymbol h).mapError _).bind ?_) fun _ => .ok ⟨rfl, h⟩
    rintro ⟨sym, n, t⟩ ⟨sym', n', t'⟩ ⟨rfl, -, ht⟩
    exact ih (hput sym ht)

/-! ## What the two commands depend on -/

/-- The three error fields that a command changes by error entry alone are the same. -/
structure SameError (s s' : State) : Prop where
  err : s.err = s'.err
  errCode : s.errCode = s'.errCode
  errInfo : s.errInfo = s'.errInfo

theorem SameError.of_kept {s s' t t' : State} (h : SameError s s') (hk : KeptE s t) (hk' : KeptE s' t') :
    SameError t t' :=
  ⟨hk.err.trans (h.err.trans hk'.err.symm), hk.errCode.trans (h.errCode.trans hk'.errCode.symm),
    hk.errInfo.trans (h.errInfo.trans hk'.errInfo.symm)⟩

theorem SameError.of_entry (c : Cause) (s s' : State) : SameError (errorEntry c s) (errorEntry c s') :=
  ⟨rfl, rfl, rfl⟩

/-- What COMPRESS and DECOMPRESS depend on: the capacities and the bytes of IN below IN_LEN (R17). -/
structure SameInput (s s' : State) : Prop where
  inCap : s.params.inCap = s'.params.inCap
  outCap : s.params.outCap = s'.params.outCap
  inLen : s.inLen = s'.inLen
  bytes : ∀ a < s.inLen.toNat, s.inAt a = s'.inAt a

theorem SameInput.clearDerived {s s' : State} (h : SameInput s s') :
    SameInput (clearDerived s) (clearDerived s') := ⟨h.inCap, h.outCap, h.inLen, h.bytes⟩

/-- What the host reads as the output of COMPRESS or DECOMPRESS is the same. -/
structure SameOutput (t t' : State) : Prop where
  outLen : t.outLen = t'.outLen
  bytes : ∀ a < t.outLen.toNat, t.outAt a = t'.outAt a
  symCount : t.symCount = t'.symCount
  bitCount : t.bitCount = t'.bitCount

theorem SameOutput.of_entry (c : Cause) (s s' : State) : SameOutput (errorEntry c s) (errorEntry c s') :=
  ⟨rfl, fun a ha => absurd ha (Nat.not_lt_zero a), rfl, rfl⟩

/-! ## COMPRESS (R15, R17) -/

/-- The remaining registers and flags COMPRESS writes, and its code table, are the same. -/
structure SameTables (t t' : State) : Prop where
  nodeCount : t.nodeCount = t'.nodeCount
  root : t.root = t'.root
  bwTotal : t.bwTotal = t'.bwTotal
  brPos : t.brPos = t'.brPos
  freqValid : t.freqValid = t'.freqValid
  treeValid : t.treeValid = t'.treeValid
  codeValid : t.codeValid = t'.codeValid
  bwOpen : t.bwOpen = t'.bwOpen
  brOpen : t.brOpen = t'.brOpen
  codes : t.codeValid = true → t.freq = t'.freq ∧ t.codeLen = t'.codeLen ∧ t.codeVal = t'.codeVal

theorem SameTables.of_entry (c : Cause) (s s' : State) : SameTables (errorEntry c s) (errorEntry c s') :=
  ⟨rfl, rfl, rfl, rfl, rfl, rfl, rfl, rfl, rfl, nofun⟩

theorem SameInput.inBytes {s s' : State} (h : SameInput s s') :
    inBytes s s.inLen.toNat = inBytes s' s'.inLen.toNat := by
  rw [← h.inLen]
  exact List.map_congr_left fun a ha => h.bytes a (List.mem_range.mp ha)

theorem SameInput.inputList {s s' : State} (h : SameInput s s') : inputList s = inputList s' := by
  rw [Machine.inputList, Machine.inputList, h.inBytes]

theorem SameInput.compressedSize {s s' : State} (h : SameInput s s') (hne : s.inLen ≠ 0) :
    compressedSize s = compressedSize s' := by
  simp only [Machine.compressedSize, ← h.inputList, listBits_eq, bitTotal_indep (inputList_good hne) s s']

theorem SameInput.tablesOf {s s' : State} (h : SameInput s s') :
    tablesOf s' = codeGen (treeBuild (Machine.inputList s) (counted s')) := by
  rw [Machine.tablesOf, ← h.inputList]

theorem SameInput.counted_freq {s s' : State} (h : SameInput s s') : (counted s).freq = (counted s').freq :=
  congrArg countBytes h.inBytes

theorem SameInput.codes {s s' : State} (h : SameInput s s') (hne : s.inLen ≠ 0) :
    (Machine.tablesOf s).codeLen = (Machine.tablesOf s').codeLen ∧
      (Machine.tablesOf s).codeVal = (Machine.tablesOf s').codeVal := by
  rw [h.tablesOf]
  exact codes_indep (inputList_good hne) (counted s) (counted s')

theorem SameInput.payloadBits {s s' : State} (h : SameInput s s') (hne : s.inLen ≠ 0) :
    payloadBits (Machine.tablesOf s) s = payloadBits (Machine.tablesOf s') s' := by
  obtain ⟨hl, hv⟩ := h.codes hne
  rw [Machine.payloadBits, Machine.payloadBits, h.inBytes, codeBits_congr hl hv]

theorem Compressed.sameOutput {s s' v v' : State} (h : SameInput s s') {l : SymFreqs} {bits : List Bool}
    (hc : Compressed l bits (tablesOf s) v) (hc' : Compressed l bits (tablesOf s') v') : SameOutput v v' where
  outLen := by rw [hc.fields, hc'.fields]
  bytes := fun a ha => hc.out_same hc' (by
    rw [hc.fields, BitVec.toNat_ofNat] at ha
    exact Nat.lt_of_lt_of_le ha (Nat.mod_le _ _))
  symCount := by
    rw [hc.fields, hc'.fields]
    exact congrArg (fun f => BitVec.ofNat 9 (symbolCount f)) h.counted_freq
  bitCount := by rw [hc.fields, hc'.fields]

theorem Compressed.sameTables {s s' v v' : State} (h : SameInput s s') (hne : s.inLen ≠ 0) {l : SymFreqs}
    {bits : List Bool} (hc : Compressed l bits (tablesOf s) v) (hc' : Compressed l bits (tablesOf s') v') :
    SameTables v v' := by
  have hcodes := h.codes hne
  have hfreq : (tablesOf s).freq = (tablesOf s').freq := h.counted_freq
  rw [h.tablesOf] at hc' hcodes hfreq
  rw [hc.fields, hc'.fields]
  exact ⟨rfl, rfl, rfl, rfl, rfl, rfl, rfl, rfl, rfl, fun _ => ⟨hfreq, hcodes⟩⟩

theorem compress_tooLong {s : State} (h : ¬ s.inLen.toNat ≤ s.params.inCap) :
    bodyOf .compress s = .error (.capacity .inLenOver) := by
  rw [compress_eq, require_bind_neg h]

theorem compress_empty {s : State} (h : s.inLen.toNat ≤ s.params.inCap) (h0 : s.inLen = 0) :
    bodyOf .compress s = .ok { putOutBytes 0 [0x01, 0x01] (counted s) with outLen := 2 } := by
  rw [compress_eq, require_bind_pos h, if_pos h0]
  rfl

theorem compress_over {s : State} (h : s.inLen.toNat ≤ s.params.inCap) (hne : s.inLen ≠ 0)
    (hsize : s.params.outCap < compressedSize s) : bodyOf .compress s = .error (.capacity .outOver) := by
  rw [compressedSize_eq hne] at hsize
  rw [compress_eq, require_bind_pos h, if_neg hne]
  exact (compressFull_spec (s := counted s) (counted_freq s)).1 hsize

theorem compress_agree {s s' : State} (h : SameInput s s') :
    Agree (fun t t' => SameOutput t t' ∧ SameTables t t') (bodyOf .compress s) (bodyOf .compress s') := by
  have hfit : s.inLen.toNat ≤ s.params.inCap ↔ s'.inLen.toNat ≤ s'.params.inCap := by rw [h.inLen, h.inCap]
  have hempty : s.inLen = 0 ↔ s'.inLen = 0 := by rw [h.inLen]
  by_cases hlong : s.inLen.toNat ≤ s.params.inCap
  case neg =>
    rw [compress_tooLong hlong, compress_tooLong (mt hfit.mpr hlong)]
    exact .error _
  by_cases h0 : s.inLen = 0
  case pos =>
    rw [compress_empty hlong h0, compress_empty (hfit.mp hlong) (hempty.mp h0)]
    refine .ok ⟨⟨rfl, fun a ha => ?_, ?_, rfl⟩, rfl, rfl, rfl, rfl, rfl, rfl, rfl, rfl, rfl, nofun⟩
    · have hbyte := fun x => outAt_putOutBytes 0 [0x01, 0x01] (counted x) (i := a) ha
      rw [Nat.zero_add] at hbyte
      exact (hbyte s).trans (hbyte s').symm
    · exact congrArg (fun f => BitVec.ofNat 9 (symbolCount f)) h.counted_freq
  have hsize := h.compressedSize h0
  rcases Nat.lt_or_ge s.params.outCap (compressedSize s) with hover | hroom
  · have hover' : s'.params.outCap < compressedSize s' := by rwa [← hsize, ← h.outCap]
    rw [compress_over hlong h0 hover, compress_over (hfit.mp hlong) (mt hempty.mpr h0) hover']
    exact .error _
  · obtain ⟨v, hv, hc⟩ := compress_ok h0 hlong hroom
    obtain ⟨v', hv', hc'⟩ := compress_ok (mt hempty.mpr h0) (hfit.mp hlong) (by rwa [← hsize, ← h.outCap])
    have hbits := h.payloadBits h0
    have hl := h.inputList
    change Compressed _ (payloadBits (tablesOf s) s) (tablesOf s) v at hc
    change Compressed _ (payloadBits (tablesOf s') s') (tablesOf s') v' at hc'
    rw [← hbits, ← hl] at hc'
    rw [hv, hv']
    exact .ok ⟨hc.sameOutput h hc', hc.sameTables h h0 hc'⟩

/-- Settles O48: both runs make the same tests, and the container is that of the list and the payload (R110), which
are functions of the input (R153). -/
theorem compressDependsOnItsInputAlone : Obligations.CompressDependsOnItsInputAlone := by
  intro s s' t t' hin hout hlen hbytes ht ht' herr herr' hcode hinfo
  have hsame : SameError s s' := ⟨herr.trans herr'.symm, hcode, hinfo⟩
  have key : SameError t t' ∧ SameOutput t t' ∧ SameTables t t' := by
    rcases exec_agree (compress_agree ⟨hin, hout, hlen, hbytes⟩) ht ht' with ⟨hR, hk, hk'⟩ | ⟨c, rfl, rfl⟩
    · exact ⟨hsame.of_kept hk hk', hR⟩
    · exact ⟨.of_entry c s s', .of_entry c s s', .of_entry c s s'⟩
  obtain ⟨e, o, r⟩ := key
  refine ⟨e.err, e.errCode, e.errInfo, o.outLen, o.bytes, o.symCount, o.bitCount, r.nodeCount, r.root, r.bwTotal,
    r.brPos, r.freqValid, r.treeValid, r.codeValid, r.bwOpen, r.brOpen, fun hv sym => ?_⟩
  obtain ⟨hfreq, hl, hval⟩ := r.codes hv
  simp only [State.freqAt, State.codeLenAt, State.codeValAt, hfreq, hl, hval, and_self]

/-! ## DECOMPRESS (R17) -/

theorem SameInput.le32In {s s' : State} (h : SameInput s s') {a : Nat} (ha : a + 4 ≤ s.inLen.toNat) :
    le32In s a = le32In s' a := by
  rw [Machine.le32In, Machine.le32In, h.bytes a (by omega), h.bytes (a + 1) (by omega), h.bytes (a + 2) (by omega),
    h.bytes (a + 3) (by omega)]

theorem SameInput.entryStep {s s' : State} (h : SameInput s s') {i : Nat} (hi : 11 + 5 * i ≤ s.inLen.toNat)
    (l : SymFreqs) : entryStep s l i = entryStep s' l i := by
  rw [Machine.entryStep, Machine.entryStep, h.bytes (6 + 5 * i) (by omega), h.le32In (a := 7 + 5 * i) (by omega)]

theorem SameInput.parseEntries {s s' : State} (h : SameInput s s') {n : Nat} (hn : headerSize n ≤ s.inLen.toNat) :
    parseEntries s n = parseEntries s' n := by
  unfold headerSize at hn
  have hprefix : ∀ m ≤ n, (List.range m).foldlM (Machine.entryStep s) [] =
      (List.range m).foldlM (Machine.entryStep s') [] := by
    intro m
    induction m with
    | zero => intro _; rfl
    | succ m ih =>
      intro hm
      rw [List.range_succ, List.foldlM_append, List.foldlM_append, ih (by omega)]
      simp only [List.foldlM_cons, List.foldlM_nil, h.entryStep (i := m) (by omega)]
  exact hprefix n (Nat.le_refl n)

/-- Two states of the decode loop over the same tree of `m` leaves and the same bits, with the same first `k` bytes of
OUT. The arena's entries at or above NODE_COUNT may differ (R49). -/
structure SameDecode (m k : Nat) (u u' : State) : Prop where
  shape : TreeShape u m
  node : ∀ h : Handle, h.toNat < 2 * m - 1 → u.nodeAt h = u'.nodeAt h
  root : u.root = u'.root
  lim : u.brLim = u'.brLim
  pos : u.brPos = u'.brPos
  bits : ∀ j < u.brLim.toNat, inStreamBit u u.brOrg.toNat j = inStreamBit u' u'.brOrg.toNat j
  out : ∀ a < k, u.outAt a = u'.outAt a
  symCount : u.symCount = u'.symCount
  bitCount : u.bitCount = u'.bitCount

theorem SameDecode.skipBit {m k : Nat} {u u' : State} (h : SameDecode m k u u') :
    SameDecode m k (skipBit u) (skipBit u') :=
  ⟨h.shape.congr rfl rfl rfl rfl, h.node, h.root, h.lim, congrArg (· + 1) h.pos, h.bits, h.out, h.symCount,
    h.bitCount⟩

theorem SameDecode.putOut {m k : Nat} {u u' : State} (h : SameDecode m k u u') (b : Byte) :
    SameDecode m (k + 1) (putOut k b u) (putOut k b u') where
  shape := h.shape.congr rfl rfl rfl rfl
  node := h.node
  root := h.root
  lim := h.lim
  pos := h.pos
  bits := h.bits
  out := fun a ha => by
    by_cases hak : a = k
    · subst hak
      rw [outAt_putOut_same, outAt_putOut_same]
    · rw [outAt_putOut_other hak, outAt_putOut_other hak, h.out a (by omega)]
  symCount := h.symCount
  bitCount := h.bitCount

theorem SameDecode.brReadBit {m k : Nat} {u u' : State} (h : SameDecode m k u u') :
    Agree (fun r r' => r.1 = r'.1 ∧ SameDecode m k r.2 r'.2) (brReadBit u) (brReadBit u') := by
  refine Agree.require _ (by rw [h.pos, h.lim]) fun hlt => .ok ⟨?_, h.skipBit⟩
  have hbit := h.bits u.brPos.toNat (BitVec.lt_def.mp hlt)
  rw [h.pos] at hbit
  show inStreamBit u u.brOrg.toNat u.brPos.toNat = inStreamBit u' u'.brOrg.toNat u'.brPos.toNat
  rw [h.pos, hbit]

theorem sameDecode_walkable (m k : Nat) : Walkable (fun h => h.toNat < 2 * m - 1) (SameDecode m k) where
  lim := SameDecode.lim
  pos := SameDecode.pos
  root := fun h => ⟨h.root, h.shape.root_lt⟩
  node := fun h => h.node _
  child := fun b h hlt hleaf => Nat.lt_trans (h.shape.child_lt hlt hleaf b) hlt
  read := SameDecode.brReadBit

/-- Stage 4 of DECOMPRESS starts alike in both runs, where the payload lies below IN_LEN (R153, R233). -/
theorem SameInput.payloadStart {s s' : State} (h : SameInput s s') {l : SymFreqs} (g : GoodList l) {bits : Nat}
    (hlen : headerSize l.length + ceilDiv8 bits ≤ s.inLen.toNat) :
    SameDecode l.length 0 (payloadStart l bits s) (payloadStart l bits s') where
  shape := (rebuilt_shape g s).congr rfl rfl rfl rfl
  node := fun _ hlt =>
    nodeAt_treeBuild_indep g { s with freq := freqOfEntries l } { s' with freq := freqOfEntries l } hlt
  root := rfl
  lim := rfl
  pos := rfl
  bits := fun j hj => by
    have horg : (BitVec.ofNat 32 (headerSize l.length)).toNat ≤ headerSize l.length := Nat.mod_le _ _
    have hlim : (BitVec.ofNat 32 bits).toNat ≤ bits := Nat.mod_le _ _
    change j < (BitVec.ofNat 32 bits).toNat at hj
    exact congrArg (·.getLsbD (streamBit j)) (h.bytes (streamByte _ j) (by
      show streamByte (BitVec.ofNat 32 (headerSize l.length)).toNat j < _
      unfold ceilDiv8 at hlen
      unfold streamByte
      omega))
  out := fun a ha => absurd ha (Nat.not_lt_zero a)
  symCount := rfl
  bitCount := rfl

theorem SameInput.decompressPayload {s s' : State} (h : SameInput s s') {l : SymFreqs} (g : GoodList l)
    (hlen : headerSize l.length ≤ s.inLen.toNat) :
    Agree SameOutput (decompressPayload s.inLen.toNat l s) (decompressPayload s.inLen.toNat l s') := by
  have hbits : Machine.le32In s (6 + 5 * l.length) = Machine.le32In s' (6 + 5 * l.length) :=
    h.le32In (by unfold headerSize at hlen; omega)
  have htotal : bitTotal (rebuilt l s) l = bitTotal (rebuilt l s') l := by
    rw [listBits_rebuilt g s, listBits_rebuilt g s]
  rw [decompressPayload_eq, decompressPayload_eq, ← hbits, ← htotal, ← h.outCap]
  refine .require _ Iff.rfl fun _ => .require _ Iff.rfl fun hshort => .require _ Iff.rfl fun _ =>
    .require _ Iff.rfl fun _ => ?_
  have hstart := h.payloadStart g (bits := Machine.le32In s (6 + 5 * l.length)) (by omega)
  refine (decodeLoop_agree (sameDecode_walkable l.length) (fun b hu => hu.putOut b) hstart).bind ?_
  rintro ⟨k, v⟩ ⟨k', v'⟩ ⟨rfl, hv⟩
  exact .require _ Iff.rfl fun _ => .ok
    ⟨rfl, fun a ha => hv.out a (Nat.lt_of_lt_of_le ha (Nat.mod_le _ _)), hv.symCount, hv.bitCount⟩

/-- The list of a header that parses may go to `tree_build`. -/
theorem good_of_parse {s : State} {n : Nat} {l : SymFreqs} (h : parseEntries s n = .ok l) (hn : 1 ≤ n ∧ n ≤ 256) :
    GoodList l ∧ l.length = n := by
  obtain ⟨hlen, -, hdistinct, hnonzero⟩ := parse_ok h
  refine ⟨⟨List.ne_nil_of_length_pos (by omega), by omega, ?_, hnonzero⟩, hlen⟩
  rw [List.Nodup, List.pairwise_map]
  exact hdistinct

theorem SameInput.decompressFull {s s' : State} (h : SameInput s s') :
    Agree SameOutput (decompressFull s.inLen.toNat s) (decompressFull s.inLen.toNat s') := by
  rw [decompressFull_eq, decompressFull_eq]
  refine .require _ Iff.rfl fun h6 => ?_
  rw [← h.le32In (a := 2) h6]
  refine .require _ Iff.rfl fun hcount => .require _ Iff.rfl fun hlen => ?_
  rw [← h.parseEntries hlen]
  cases hl : Machine.parseEntries s (Machine.le32In s 2) with
  | error c => exact .error c
  | ok l =>
    obtain ⟨g, hn⟩ := good_of_parse hl hcount
    exact h.decompressPayload g (by rwa [hn])

theorem decompress_agree {s s' : State} (h : SameInput s s') :
    Agree SameOutput (bodyOf .decompress s) (bodyOf .decompress s') := by
  rw [decompress_eq, decompress_eq, ← h.inLen, ← h.inCap]
  refine .require _ Iff.rfl fun _ => .require _ Iff.rfl fun h2 => ?_
  rw [← h.bytes 0 (by omega), ← h.bytes 1 (by omega)]
  refine .require _ Iff.rfl fun _ => .require _ Iff.rfl fun _ => ?_
  refine .ite Iff.rfl (fun _ => .require _ Iff.rfl fun _ => .ok ?_) fun _ => h.clearDerived.decompressFull
  exact ⟨rfl, fun a ha => absurd ha (Nat.not_lt_zero a), rfl, rfl⟩

/-- Settles O49: both runs make the same tests on the same bytes, and walk the same tree (R153) over the same bits. -/
theorem decompressDependsOnItsInputAlone : Obligations.DecompressDependsOnItsInputAlone := by
  intro s s' t t' hin hout hlen hbytes ht ht' herr herr' hcode hinfo
  have hsame : SameError s s' := ⟨herr.trans herr'.symm, hcode, hinfo⟩
  have key : SameError t t' ∧ SameOutput t t' := by
    rcases exec_agree (decompress_agree ⟨hin, hout, hlen, hbytes⟩) ht ht' with ⟨hR, hk, hk'⟩ | ⟨c, rfl, rfl⟩
    · exact ⟨hsame.of_kept hk hk', hR⟩
    · exact ⟨.of_entry c s s', .of_entry c s s'⟩
  obtain ⟨e, o⟩ := key
  exact ⟨e.err, e.errCode, e.errInfo, o.outLen, o.bytes, o.symCount, o.bitCount⟩

end Sys2Proof.Machine
end

section
/-! SUPPORT. Accesses by address (rules R9, R54, R79, R80, R85), and the parameters, which no step changes (rules R7,
R9, R44). -/

namespace Sys2Proof.Machine

/-! ## Host addresses (R9, R54, R85) -/

/-- An access by address, where the region takes its width: the step is the move at the offset (R54). -/
theorem step_bus_eq_host {s : State} {x : BusAccess} {r : Region} {off : Nat} {m : HostMove} {rest : List Move}
    (ha : s.agenda = .bus x :: rest) (hr : regionAt s.params x.address = some (r, off))
    (hm : x.moveIn r off = some m) : step s = step { s with agenda := .host m :: rest } := by
  rw [step_bus ha, step_host rfl]
  show busStep x { s with agenda := rest } = hostStep m { s with agenda := rest }
  rw [busStep]
  simp only [hr, hm]

/-- An access by address in none of the three regions stops the run (R54, U8). -/
theorem step_bus_outside {s : State} {x : BusAccess} {rest : List Move} (ha : s.agenda = .bus x :: rest)
    (hr : regionAt s.params x.address = none) : step s = .fault .outsideRegions := by
  rw [step_bus ha, busStep]
  simp only [hr]

/-- An access by address of a width its region does not take stops the run (R79, R80). -/
theorem step_bus_width {s : State} {x : BusAccess} {r : Region} {off : Nat} {rest : List Move}
    (ha : s.agenda = .bus x :: rest) (hr : regionAt s.params x.address = some (r, off))
    (hm : x.moveIn r off = none) : step s = .refused .accessWidth := by
  rw [step_bus ha, busStep]
  simp only [hr, hm]

theorem regionAt_outside {p : Params} {a : Nat} (hr : a < p.regBase ∨ p.regBase + 0x100 ≤ a)
    (hw : p.windowsMapped = true →
      (a < p.inBase ∨ p.inBase + p.inCap ≤ a) ∧ (a < p.outBase ∨ p.outBase + p.outCap ≤ a)) :
    regionAt p a = none := by
  unfold regionAt
  rw [if_neg (by omega), if_neg, if_neg]
  · rintro ⟨hm, h1, h2⟩
    have := (hw hm).2
    omega
  · rintro ⟨hm, h1, h2⟩
    have := (hw hm).1
    omega

/-- Settles O54: each region is at its base (`regionAt_registers`, `regionAt_in`, `regionAt_out`). -/
theorem busAccessesAreTheMovesAtTheBases : Obligations.BusAccessesAreTheMovesAtTheBases := by
  intro s off v b rest
  refine ⟨fun hoff => ?_, fun hm hoff => ?_, fun hm hoff => ?_⟩
  · have hr := regionAt_registers (p := s.params) hoff
    exact ⟨fun ha => step_bus_eq_host ha hr rfl, fun ha => step_bus_eq_host ha hr rfl⟩
  · have hr := regionAt_in hm hoff
    exact ⟨fun ha => step_bus_eq_host ha hr rfl, fun ha => step_bus_eq_host ha hr rfl⟩
  · have hr := regionAt_out hm hoff
    exact ⟨fun ha => step_bus_eq_host ha hr rfl, fun ha => step_bus_eq_host ha hr rfl⟩

/-- Settles O55: an access is in no region, or in one that has no move of its width. -/
theorem busAccessesOutsideTheRegionsStop : Obligations.BusAccessesOutsideTheRegionsStop := by
  intro s a v b rest
  refine ⟨fun ha hreg hwin => ?outside, fun ha hlo hhi => ?registers, fun ha hm hwin => ?windows⟩
  case outside =>
    have hr := regionAt_outside hreg hwin
    rcases ha with ha | ha | ha | ha <;> exact step_bus_outside ha hr
  case registers =>
    have hr := regionAt_registers (p := s.params) (off := a - s.params.regBase) (by omega)
    rw [Nat.add_sub_cancel' hlo] at hr
    rcases ha with ha | ha <;> exact step_bus_width ha hr rfl
  case windows =>
    rcases hwin with ⟨hlo, hhi⟩ | ⟨hlo, hhi⟩
    · have hr := regionAt_in hm (off := a - s.params.inBase) (by omega)
      rw [Nat.add_sub_cancel' hlo] at hr
      rcases ha with ha | ha <;> exact step_bus_width ha hr rfl
    · have hr := regionAt_out hm (off := a - s.params.outBase) (by omega)
      rw [Nat.add_sub_cancel' hlo] at hr
      rcases ha with ha | ha <;> exact step_bus_width ha hr rfl

/-! ## No step changes a parameter (R7, R9, R44) -/

theorem execPending_params {s t : State} (h : execPending s = .next t) : t.params = s.params := by
  unfold execPending at h
  split at h
  · exact (exec_kept h).params
  · cases h
    rfl

theorem thenComplete_next {r : Host.Outcome State Fault Refusal} {t : State} (h : thenComplete r = .next t) :
    ∃ u, r = .next u ∧ t = complete u := by
  cases r with
  | next u => exact ⟨u, rfl, (Host.Outcome.next.inj h).symm⟩
  | fault f => cases h
  | refused r => cases h

theorem hfcStep_params {s t : State} (h : hfcStep s = .next t) : t.params = s.params := by
  unfold hfcStep at h
  split at h
  · cases h
    rfl
  · obtain ⟨u, hu, rfl⟩ := thenComplete_next h
    rw [complete_params]
    exact execPending_params hu

/-- A register access that goes on did its act on some register. -/
theorem regAccess_next {off : Nat} {act : Reg → State} {t : State} (h : regAccess off act = .next t) :
    ∃ r, t = act r := by
  unfold regAccess at h
  split at h
  · cases h
  · split at h
    · cases h
    · exact ⟨_, (Host.Outcome.next.inj h).symm⟩

@[simp] theorem readReg_params (r : Reg) (s : State) : (readReg r s).params = s.params := by
  unfold readReg
  split <;> rfl

@[simp] theorem writeReg_params (r : Reg) (v : Word) (s : State) : (writeReg r v s).params = s.params := by
  cases r
  case cmd | inLen | bwBase | brBase | brLimit =>
    simp only [writeReg, writeCmd]
    split <;> rfl
  all_goals rfl

@[simp] theorem inWrite_params (a : Nat) (b : Byte) (s : State) : (inWrite a b s).params = s.params := by
  unfold inWrite
  split <;> rfl

@[simp] theorem inRead_params (a : Nat) (s : State) : (inRead a s).params = s.params := by
  unfold inRead
  split <;> rfl

@[simp] theorem outRead_params (a : Nat) (s : State) : (outRead a s).params = s.params := by
  unfold outRead
  split <;> rfl

theorem hostStep_params {m : HostMove} {s t : State} (h : hostStep m s = .next t) : t.params = s.params := by
  cases m with
  | regRead off =>
    obtain ⟨r, rfl⟩ := regAccess_next (act := fun r => readReg r s) h
    exact readReg_params r s
  | regWrite off v =>
    obtain ⟨r, rfl⟩ := regAccess_next (act := fun r => writeReg r v s) h
    exact writeReg_params r v s
  | inWrite a b | inRead a | outRead a | outWrite a b =>
    simp only [hostStep] at h
    split at h <;> cases h
    simp

/-- Settles O57, by the agent that moves. -/
theorem noStepChangesTheParameters : Obligations.NoStepChangesTheParameters := by
  intro s t h
  unfold step at h
  split at h
  · exact hfcStep_params h
  · exact hfcStep_params (s := s.popMove) h
  · exact hostStep_params (s := s.popMove) h
  · obtain ⟨m, hm⟩ := busStep_next h
    exact hostStep_params (s := s.popMove) hm
  · cases h
    rfl

end Sys2Proof.Machine
end

section
/-! SUPPORT. But for accesses by address, a step commutes with a change of the base addresses (rule R9). -/

namespace Sys2Proof.Machine

/-! ## The base addresses (R9, R85) -/

/-- `s` with the parameters `p`. -/
def rebase (p : Params) (s : State) : State := { s with params := p }

/-- The capacities of `s` are those of `p`: the two differ in where and whether the regions are mapped alone. -/
structure SameCaps (p : Params) (s : State) : Prop where
  inCap : p.inCap = s.params.inCap
  outCap : p.outCap = s.params.outCap

theorem SameCaps.of_params {p : Params} {s t : State} (h : SameCaps p s) (ht : t.params = s.params) : SameCaps p t :=
  ⟨by rw [ht, h.inCap], by rw [ht, h.outCap]⟩

theorem SameCaps.le_inCap {p : Params} {s : State} (h : SameCaps p s) (n : Nat) :
    n ≤ s.params.inCap ↔ n ≤ (rebase p s).params.inCap := by
  rw [← h.inCap, rebase]

theorem SameCaps.le_outCap {p : Params} {s : State} (h : SameCaps p s) (n : Nat) :
    n ≤ s.params.outCap ↔ n ≤ (rebase p s).params.outCap := by
  rw [← h.outCap, rebase]

/-- `t'` is `t` with the parameters `p`, which have the same capacities. -/
structure Rebased (p : Params) (t t' : State) : Prop where
  caps : SameCaps p t
  eq : t' = rebase p t

theorem Rebased.of_params {p : Params} {s t : State} (h : SameCaps p s) (ht : t.params = s.params) :
    Rebased p t (rebase p t) := ⟨h.of_params ht, rfl⟩

/-! ### The loops -/

theorem pushBit_rebase (p : Params) (b : Bool) (s : State) : pushBit b (rebase p s) = rebase p (pushBit b s) := by
  rw [pushBit, pushBit, apply_ite (rebase p)]
  rfl

theorem bwFinish_rebase (p : Params) (s : State) : bwFinish (rebase p s) = rebase p (bwFinish s) := by
  rw [bwFinish, bwFinish, apply_ite (rebase p)]
  rfl

theorem putOutBytes_rebase (p : Params) (bs : List Byte) (a : Nat) (s : State) :
    putOutBytes a bs (rebase p s) = rebase p (putOutBytes a bs s) := by
  induction bs generalizing a s with
  | nil => rfl
  | cons b rest ih => exact ih (a + 1) (putOut a b s)

theorem Rebased.bwWriteBit {p : Params} {s s' : State} (h : Rebased p s s') (b : Bool) :
    Agree (Rebased p) (bwWriteBit b s) (bwWriteBit b s') := by
  obtain ⟨hcaps, rfl⟩ := h
  refine .require _ (imp_congr_right fun _ => hcaps.le_outCap _) fun _ => ?_
  rw [pushBit_rebase]
  exact .ok (.of_params hcaps (pushBit_params b s))

theorem Rebased.bwWriteBits {p : Params} {s s' : State} (h : Rebased p s s') (bs : List Bool) :
    Agree (Rebased p) (bwWriteBits bs s) (bwWriteBits bs s') :=
  Agree.foldlM (fun _ _ b ht => ht.bwWriteBit b) bs h

theorem Rebased.bwWriteCode {p : Params} {s s' : State} (h : Rebased p s s') (sym : Byte) :
    Agree (Rebased p) (bwWriteCode sym s) (bwWriteCode sym s') := by
  have hbits : codeBits s' = codeBits s := by
    rw [h.eq]
    rfl
  rw [Machine.bwWriteCode, Machine.bwWriteCode, hbits]
  exact h.bwWriteBits _

theorem Rebased.brReadBit {p : Params} {s s' : State} (h : Rebased p s s') :
    Agree (fun r r' => r.1 = r'.1 ∧ Rebased p r.2 r'.2) (brReadBit s) (brReadBit s') := by
  obtain ⟨hcaps, rfl⟩ := h
  exact .require _ Iff.rfl fun _ => .ok ⟨rfl, .of_params hcaps rfl⟩

theorem Rebased.putOut {p : Params} {s s' : State} (h : Rebased p s s') (a : Nat) (b : Byte) :
    Rebased p (putOut a b s) (putOut a b s') := by
  obtain ⟨hcaps, rfl⟩ := h
  exact .of_params hcaps rfl

theorem rebased_walkable (p : Params) : Walkable (fun _ => True) (Rebased p) where
  lim := fun h => by rw [h.eq, rebase]
  pos := fun h => by rw [h.eq, rebase]
  root := fun h => ⟨by rw [h.eq, rebase], trivial⟩
  node := fun h _ => by
    rw [h.eq]
    rfl
  child := fun _ _ _ _ => trivial
  read := Rebased.brReadBit

/-! ### The commands -/

/-- `B` of rule R213, once FREQ is built: the number of payload bits. -/
def encodedBits (s : State) : Nat :=
  bitTotal (codeGen (treeBuild (presentSymbols s.freq) s)) (presentSymbols s.freq)

/-- `need` of rule R213. -/
def encodedSize (s : State) : Nat := headerSize (presentSymbols s.freq).length + ceilDiv8 (encodedBits s)

/-- The state in which COMPRESS writes the payload: the tables, the header and the open writer (R213). -/
def encoderStart (s : State) : State :=
  bwInit (BitVec.ofNat 32 (headerSize (presentSymbols s.freq).length))
    (putOutBytes 0 (headerBytes (presentSymbols s.freq) (encodedBits s))
      (codeGen (treeBuild (presentSymbols s.freq) s)))

/-- The end of COMPRESS after the payload (R213). -/
def encoderEnd (size bits : Nat) (v : State) : State :=
  { bwFinish v with outLen := BitVec.ofNat 32 size, bitCount := BitVec.ofNat 32 bits }

theorem compressFull_eq (s : State) : compressFull s =
    (require (encodedSize s ≤ s.params.outCap) (.capacity .outOver) >>= fun _ =>
     (inBytes s s.inLen.toNat).foldlM (fun x b => bwWriteCode b x) (encoderStart s) >>= fun v =>
     .ok (encoderEnd (encodedSize s) (encodedBits s) v)) := rfl

theorem encodedBits_rebase (p : Params) (s : State) : encodedBits (rebase p s) = encodedBits s := rfl

theorem encoderStart_rebase (p : Params) (s : State) : encoderStart (rebase p s) = rebase p (encoderStart s) := by
  have hheader := putOutBytes_rebase p (headerBytes (presentSymbols s.freq) (encodedBits s)) 0
    (codeGen (treeBuild (presentSymbols s.freq) s))
  exact congrArg (bwInit (BitVec.ofNat 32 (headerSize (presentSymbols s.freq).length))) hheader

theorem encoderStart_params (s : State) : (encoderStart s).params = s.params := by simp [encoderStart]

theorem encoderEnd_rebase (p : Params) (size bits : Nat) (v : State) :
    encoderEnd size bits (rebase p v) = rebase p (encoderEnd size bits v) := by
  rw [encoderEnd, bwFinish_rebase]
  rfl

theorem compressFull_rebase {p : Params} {s : State} (h : SameCaps p s) :
    Agree (Rebased p) (compressFull s) (compressFull (rebase p s)) := by
  have hstart : Rebased p (encoderStart s) (encoderStart (rebase p s)) :=
    ⟨h.of_params (encoderStart_params s), encoderStart_rebase p s⟩
  rw [compressFull_eq, compressFull_eq]
  refine .require _ (h.le_outCap _) fun _ => ?_
  refine Agree.bind (Agree.foldlM (fun _ _ b ht => ht.bwWriteCode b) _ hstart) ?_
  rintro v _ ⟨hcaps, rfl⟩
  refine .ok ⟨hcaps.of_params (bwFinish_params v), encoderEnd_rebase p _ _ v⟩

theorem clearDerived_rebase (p : Params) (s : State) : clearDerived (rebase p s) = rebase p (clearDerived s) := rfl

theorem freqBuild_rebase (p : Params) (s : State) : freqBuild (rebase p s) = rebase p (freqBuild s) := rfl

theorem compress_rebase {p : Params} {s : State} (h : SameCaps p s) :
    Agree (Rebased p) (bodyOf .compress s) (bodyOf .compress (rebase p s)) := by
  have hcounted : SameCaps p (freqBuild (clearDerived s)) := h.of_params rfl
  rw [compress_eq, compress_eq, clearDerived_rebase, freqBuild_rebase, putOutBytes_rebase]
  exact .require _ (h.le_inCap _) fun _ => .ite Iff.rfl
    (fun _ => .ok ⟨hcounted.of_params (putOutBytes_params _ 0 _), rfl⟩) fun _ => compressFull_rebase hcounted

theorem decompressPayload_rebase {p : Params} {s : State} (h : SameCaps p s) (n : Nat) (l : SymFreqs) :
    Agree (Rebased p) (decompressPayload n l s) (decompressPayload n l (rebase p s)) := by
  rw [decompressPayload_eq, decompressPayload_eq]
  refine .require _ Iff.rfl fun _ => .require _ Iff.rfl fun _ => .require _ Iff.rfl fun _ =>
    .require _ (h.le_outCap _) fun _ => ?_
  have hstart : Rebased p (payloadStart l (le32In s (6 + 5 * l.length)) s)
      (payloadStart l (le32In s (6 + 5 * l.length)) (rebase p s)) := ⟨h.of_params rfl, rfl⟩
  refine (decodeLoop_agree (R := fun _ => Rebased p) (fun _ => rebased_walkable p) (fun b hu => hu.putOut _ b)
    hstart).bind ?_
  rintro ⟨k, v⟩ ⟨_, _⟩ ⟨rfl, hcaps, rfl⟩
  exact .require _ Iff.rfl fun _ => .ok (.of_params hcaps rfl)

theorem decompressFull_rebase {p : Params} {s : State} (h : SameCaps p s) (n : Nat) :
    Agree (Rebased p) (decompressFull n s) (decompressFull n (rebase p s)) := by
  rw [decompressFull_eq, decompressFull_eq]
  refine .require _ Iff.rfl fun _ => .require _ Iff.rfl fun _ => .require _ Iff.rfl fun _ => ?_
  refine (Agree.refl (parseEntries s (le32In s 2))).bind ?_
  rintro l _ rfl
  exact decompressPayload_rebase h n l

theorem decompress_rebase {p : Params} {s : State} (h : SameCaps p s) :
    Agree (Rebased p) (bodyOf .decompress s) (bodyOf .decompress (rebase p s)) := by
  have hcleared : SameCaps p (clearDerived s) := h.of_params rfl
  rw [decompress_eq, decompress_eq, clearDerived_rebase]
  refine .require _ (h.le_inCap _) fun _ => .require _ Iff.rfl fun _ => .require _ Iff.rfl fun _ =>
    .require _ Iff.rfl fun _ => ?_
  refine .ite Iff.rfl (fun _ => ?_) fun _ => decompressFull_rebase hcleared _
  exact .require _ Iff.rfl fun _ => .ok ⟨h.of_params rfl, rfl⟩

/-- Every command's body is the same wherever the bases are (R9). -/
theorem body_rebase {p : Params} {s : State} (h : SameCaps p s) (i : Instr) :
    Agree (Rebased p) (bodyOf i s) (bodyOf i (rebase p s)) := by
  have here : Rebased p s (rebase p s) := ⟨h, rfl⟩
  cases i with
  | nop | clear | tblRead _ => exact .ok (.of_params h rfl)
  | nodeRead _ | treeBuild =>
    exact .require _ Iff.rfl fun _ => .require _ Iff.rfl fun _ => .ok (.of_params h rfl)
  | freqBuild => exact .require _ (h.le_inCap _) fun _ => .ok (.of_params h rfl)
  | codeGen => exact .require _ Iff.rfl fun _ => .ok (.of_params h rfl)
  | bwInit => exact .require _ (h.le_outCap _) fun _ => .ok (.of_params h rfl)
  | bwWriteBit b => exact .require _ Iff.rfl fun _ => here.bwWriteBit b
  | bwWriteCode sym =>
    exact .require _ Iff.rfl fun _ => .require _ Iff.rfl fun _ => .require _ Iff.rfl fun _ => here.bwWriteCode sym
  | bwFinish =>
    refine .require _ Iff.rfl fun _ => .ok ⟨h.of_params (bwFinish_params s), ?_⟩
    rw [bwFinish_rebase]
    rfl
  | brInit => exact .require _ (h.le_inCap _) fun _ => .require _ Iff.rfl fun _ => .ok (.of_params h rfl)
  | brReadBit =>
    refine .require _ Iff.rfl fun _ => here.brReadBit.bind ?_
    rintro ⟨b, t⟩ ⟨_, _⟩ ⟨rfl, hcaps, rfl⟩
    exact .ok (.of_params hcaps rfl)
  | brDecodeSym =>
    refine .require _ Iff.rfl fun _ => .require _ Iff.rfl fun _ => ((rebased_walkable p).walkSymbol here).bind ?_
    rintro ⟨sym, n, t⟩ ⟨_, _, _⟩ ⟨rfl, rfl, hcaps, rfl⟩
    exact .ok (.of_params hcaps rfl)
  | compress => exact compress_rebase h
  | decompress => exact decompress_rebase h

/-! ### The moves -/

/-- The outcome of the same step with the parameters `p`. -/
def rebaseOutcome (p : Params) (r : Host.Outcome State Fault Refusal) : Host.Outcome State Fault Refusal :=
  match r with
  | .next t => .next (rebase p t)
  | .fault f => .fault f
  | .refused r => .refused r

theorem exec_rebase {p : Params} {s : State} (h : SameCaps p s) (i : Instr) :
    exec i (rebase p s) = rebaseOutcome p (exec i s) := by
  obtain ⟨t, ht⟩ := exec_next i s
  obtain ⟨t', ht'⟩ := exec_next i (rebase p s)
  rw [ht, ht']
  rcases exec_agree (body_rebase h i) ht ht' with ⟨⟨-, rfl⟩, -⟩ | ⟨c, rfl, rfl⟩ <;> rfl

theorem execPending_rebase {p : Params} {s : State} (h : SameCaps p s) :
    execPending (rebase p s) = rebaseOutcome p (execPending s) := by
  have hpend : (rebase p s).pend = s.pend := rfl
  cases hd : decode s.pend with
  | ok i =>
    simp only [execPending, hpend, hd]
    exact exec_rebase h i
  | error why =>
    simp only [execPending, hpend, hd]
    rfl

theorem thenComplete_rebase (p : Params) (r : Host.Outcome State Fault Refusal) :
    thenComplete (rebaseOutcome p r) = rebaseOutcome p (thenComplete r) := by
  cases r <;> rfl

theorem hfcStep_rebase {p : Params} {s : State} (h : SameCaps p s) :
    hfcStep (rebase p s) = rebaseOutcome p (hfcStep s) := by
  have hseq : (rebase p s).seq = s.seq := rfl
  cases hs : s.seq with
  | idle =>
    simp only [hfcStep, hseq, hs]
    rfl
  | exec => simp only [hfcStep, hseq, hs, execPending_rebase h, thenComplete_rebase]

theorem regValue_rebase {p : Params} {s : State} (h : SameCaps p s) (r : Reg) :
    regValue (rebase p s) r = regValue s r := by
  cases r
  case inCap => exact congrArg (BitVec.ofNat 32) h.inCap
  case outCap => exact congrArg (BitVec.ofNat 32) h.outCap
  all_goals rfl

theorem readReg_rebase {p : Params} {s : State} (h : SameCaps p s) (r : Reg) :
    readReg r (rebase p s) = rebase p (readReg r s) := by
  rw [readReg, readReg, regValue_rebase h, apply_ite (rebase p)]
  rfl

theorem writeReg_rebase (p : Params) (r : Reg) (v : Word) (s : State) :
    writeReg r v (rebase p s) = rebase p (writeReg r v s) := by
  cases r
  case cmd | inLen | bwBase | brBase | brLimit =>
    simp only [writeReg, writeCmd, apply_ite (rebase p)]
    rfl
  all_goals rfl

theorem inWrite_rebase (p : Params) (a : Nat) (b : Byte) (s : State) :
    inWrite a b (rebase p s) = rebase p (inWrite a b s) := by
  rw [inWrite, inWrite, apply_ite (rebase p)]
  rfl

theorem inRead_rebase (p : Params) (a : Nat) (s : State) : inRead a (rebase p s) = rebase p (inRead a s) := by
  rw [inRead, inRead, apply_ite (rebase p)]
  rfl

theorem outRead_rebase (p : Params) (a : Nat) (s : State) : outRead a (rebase p s) = rebase p (outRead a s) := by
  rw [outRead, outRead, apply_ite (rebase p)]
  rfl

theorem regAccess_rebase {p : Params} {off : Nat} {act act' : Reg → State} (h : ∀ r, act' r = rebase p (act r)) :
    regAccess off act' = rebaseOutcome p (regAccess off act) := by
  rw [regAccess, regAccess, apply_ite (rebaseOutcome p), apply_ite (rebaseOutcome p), h]
  rfl

theorem windowAccess_rebase {p : Params} {a cap cap' : Nat} {f : Fault} {t t' : State} (hcap : cap' = cap)
    (ht : t' = rebase p t) :
    (if a < cap' then .next t' else .fault f) =
      rebaseOutcome p (if a < cap then .next t else .fault f) := by
  rw [hcap, ht, apply_ite (rebaseOutcome p)]
  rfl

theorem hostStep_rebase {p : Params} {s : State} (h : SameCaps p s) (m : HostMove) :
    hostStep m (rebase p s) = rebaseOutcome p (hostStep m s) := by
  cases m with
  | regRead off => exact regAccess_rebase fun r => readReg_rebase h r
  | regWrite off v => exact regAccess_rebase fun r => writeReg_rebase p r v s
  | inWrite a b => exact windowAccess_rebase h.inCap (inWrite_rebase p a b s)
  | inRead a => exact windowAccess_rebase h.inCap (inRead_rebase p a s)
  | outRead a => exact windowAccess_rebase h.outCap (outRead_rebase p a s)
  | outWrite a b => exact windowAccess_rebase h.outCap rfl

/-- A step that is the platform's reset. -/
theorem step_reset {s : State} {rest : List Move} (ha : s.agenda = .reset :: rest) :
    step s = .next (resetStep { s with agenda := rest }) := by
  unfold step
  rw [ha]
  simp [State.popMove, ha]

/-- But for accesses by address, a step is the same wherever the bases are (R9). -/
theorem step_rebase {p : Params} {s : State} (h : SameCaps p s) (hbus : ∀ x rest, s.agenda ≠ .bus x :: rest) :
    step (rebase p s) = rebaseOutcome p (step s) := by
  have hfc (ha : s.agenda = [] ∨ ∃ rest, s.agenda = .hfc :: rest) :
      step (rebase p s) = rebaseOutcome p (step s) := by
    rw [step_hfc ha, step_hfc (s := rebase p s) ha]
    exact hfcStep_rebase (s := { s with agenda := s.agenda.tail }) (h.of_params rfl)
  cases ha : s.agenda with
  | nil => exact hfc (.inl ha)
  | cons m rest =>
    cases m with
    | hfc => exact hfc (.inr ⟨rest, ha⟩)
    | host m =>
      rw [step_host ha, step_host (s := rebase p s) ha]
      exact hostStep_rebase (s := { s with agenda := rest }) (h.of_params rfl) m
    | bus x => exact absurd ha (hbus x rest)
    | reset =>
      rw [step_reset ha, step_reset (s := rebase p s) ha]
      rfl

/-- Settles O56: every command and every host move by offset commutes with a change of the base addresses. -/
theorem baseAddressesChangeNoMove : Obligations.BaseAddressesChangeNoMove := by
  intro s p hin hout hbus
  have hstep : step { s with params := p } = rebaseOutcome p (step s) := step_rebase ⟨hin, hout⟩ hbus
  refine ⟨fun t ht => ?_, fun f hf => ?_, fun r hr => ?_⟩
  · rw [hstep, ht]; rfl
  · rw [hstep, hf]; rfl
  · rw [hstep, hr]; rfl

end Sys2Proof.Machine
end

section
/-! SUPPORT. Every step keeps the invariant (rules R27, R33, R46 to R53, R82, R288): the state a `clear_derived()`
discards is a part of its own, which each command makes anew or keeps, piece by piece. -/

namespace Sys2Proof.Machine

/-! ## The parts of the invariant -/

/-- DONE and the error registers (R27, R33). -/
structure HandshakeOk (s : State) : Prop where
  busy : s.seq = .exec → s.done = false ∧ s.err = false
  errBit : s.err = true ↔ s.errCode ≠ 0
  errPair : (s.errCode = 0 ∧ s.errInfo = 0) ∨ ∃ c, s.errCode = errorCode c ∧ s.errInfo = errorInfo c

/-- The three tables and their flags (R46, R48 to R50). -/
structure TablesOk (s : State) : Prop where
  flags : (s.codeValid = true → s.treeValid = true) ∧ (s.treeValid = true → s.freqValid = true)
  freq : s.freqValid = true → s.symCount.toNat = symbolCount s.freq
  tree : s.treeValid = true → TreeShape s s.symCount.toNat
  code : s.codeValid = true → ∀ sym, codeEntryOk s sym

/-- A buffer of `cap` bytes: in canonical form, and no byte recorded beyond it (R53, R82). -/
def BufferOk (cap : Nat) (m : Memory) : Prop := m.wf ∧ m.below cap

/-- The derived state of rule R287: OUT, the tables and the two streams. -/
structure DerivedOk (s : State) : Prop where
  out : BufferOk s.params.outCap s.outBuf
  tables : TablesOk s
  writer : s.bwOpen = true → WriterOk s
  reader : s.brOpen = true → ReaderOk s

theorem invariant_iff {s : State} :
    Invariant s ↔ BufferOk s.params.inCap s.inBuf ∧ HandshakeOk s ∧ DerivedOk s :=
  ⟨fun h => ⟨h.inBuf, ⟨h.busy, h.errBit, h.errPair⟩,
      ⟨h.outBuf, ⟨h.flags, h.freq, h.tree, h.code⟩, h.writer, h.reader⟩⟩,
    fun ⟨hin, hs, hd⟩ => ⟨hin, hd.out, hs.busy, hs.errBit, hs.errPair, hd.tables.flags, hd.tables.freq, hd.tables.tree,
      hd.tables.code, hd.writer, hd.reader⟩⟩

theorem BufferOk.write {cap : Nat} {m : Memory} (h : BufferOk cap m) {a : Nat} (ha : a < cap) (b : Byte) :
    BufferOk cap (m.write a b) :=
  ⟨Memory.wf_write h.1 a b, Memory.below_write h.2 ha b⟩

theorem bufferOk_havoc (cap d : Nat) : BufferOk cap (Memory.havoc d) := ⟨Memory.wf_havoc d, Memory.below_havoc cap d⟩

/-! ### What each part depends on -/

/-- `t` has the tables of `s`. -/
structure TablesKept (s t : State) : Prop where
  freqValid : t.freqValid = s.freqValid
  treeValid : t.treeValid = s.treeValid
  codeValid : t.codeValid = s.codeValid
  symCount : t.symCount = s.symCount
  freq : t.freq = s.freq
  node : t.node = s.node
  nodeCount : t.nodeCount = s.nodeCount
  root : t.root = s.root
  codeLen : t.codeLen = s.codeLen
  codeVal : t.codeVal = s.codeVal

/-- `t` has the parameters and the writer of `s`. -/
structure WriterKept (s t : State) : Prop where
  params : t.params = s.params
  bwOpen : t.bwOpen = s.bwOpen
  bwOrg : t.bwOrg = s.bwOrg
  bwTotal : t.bwTotal = s.bwTotal
  bwAcc : t.bwAcc = s.bwAcc

/-- `t` has the parameters and the reader of `s`. -/
structure ReaderKept (s t : State) : Prop where
  params : t.params = s.params
  brOpen : t.brOpen = s.brOpen
  brOrg : t.brOrg = s.brOrg
  brLim : t.brLim = s.brLim
  brPos : t.brPos = s.brPos

/-- `t` has the derived state of `s`. -/
structure DerivedKept (s t : State) : Prop where
  tables : TablesKept s t
  writer : WriterKept s t
  reader : ReaderKept s t
  outBuf : t.outBuf = s.outBuf

theorem TablesOk.congr {s t : State} (h : TablesOk s) (e : TablesKept s t) : TablesOk t where
  flags := by rw [e.freqValid, e.treeValid, e.codeValid]; exact h.flags
  freq := by rw [e.freqValid, e.symCount, e.freq]; exact h.freq
  tree := by
    rw [e.treeValid, e.symCount]
    exact fun hv => (h.tree hv).congr (nodeAt_congr e.node) e.root e.nodeCount e.freq
  code := by
    rw [e.codeValid]
    exact fun hv sym => codeEntryOk_congr e.node e.root e.codeLen e.codeVal (h.code hv sym)

theorem WriterOk.congr {s t : State} (h : WriterOk s) (e : WriterKept s t) : WriterOk t where
  fits := by rw [e.params, e.bwOrg, e.bwTotal]; exact h.fits
  clear := by rw [partialBits, e.bwTotal, e.bwAcc]; exact h.clear

theorem ReaderOk.congr {s t : State} (h : ReaderOk s) (e : ReaderKept s t) : ReaderOk t where
  within := by rw [e.brPos, e.brLim]; exact h.within
  fits := by rw [e.params, e.brOrg, e.brLim]; exact h.fits

theorem DerivedOk.writer_congr {s t : State} (h : DerivedOk s) (e : WriterKept s t) : t.bwOpen = true → WriterOk t :=
  fun hv => (h.writer (e.bwOpen ▸ hv)).congr e

theorem DerivedOk.reader_congr {s t : State} (h : DerivedOk s) (e : ReaderKept s t) : t.brOpen = true → ReaderOk t :=
  fun hv => (h.reader (e.brOpen ▸ hv)).congr e

theorem DerivedOk.congr {s t : State} (h : DerivedOk s) (e : DerivedKept s t) : DerivedOk t where
  out := by rw [e.writer.params, e.outBuf]; exact h.out
  tables := h.tables.congr e.tables
  writer := h.writer_congr e.writer
  reader := h.reader_congr e.reader

/-- A move that leaves the derived state and IN alone keeps the invariant where it keeps the handshake. -/
theorem Invariant.of_derivedKept {s t : State} (h : Invariant s) (e : DerivedKept s t) (hin : t.inBuf = s.inBuf)
    (hs : HandshakeOk t) : Invariant t := by
  obtain ⟨hbuf, -, hd⟩ := invariant_iff.mp h
  refine invariant_iff.mpr ⟨?_, hs, hd.congr e⟩
  rw [e.writer.params, hin]
  exact hbuf

/-! ### Where nothing is valid and nothing open -/

theorem tablesOk_of_invalid {s : State} (hf : s.freqValid = false) (ht : s.treeValid = false)
    (hc : s.codeValid = false) : TablesOk s where
  flags := by simp [ht, hc]
  freq := by simp [hf]
  tree := by simp [ht]
  code := by simp [hc]

theorem derivedOk_clearDerived (s : State) : DerivedOk (clearDerived s) where
  out := bufferOk_havoc _ _
  tables := tablesOk_of_invalid rfl rfl rfl
  writer := (nomatch ·)
  reader := (nomatch ·)

theorem invariant_afterReset (p : Params) (d : Nat) (ms : List Move) : Invariant (State.afterReset p d ms) := by
  refine invariant_iff.mpr ⟨bufferOk_havoc _ d, ⟨(nomatch ·), by simp [State.afterReset], .inl ⟨rfl, rfl⟩⟩,
    bufferOk_havoc _ d, tablesOk_of_invalid rfl rfl rfl, (nomatch ·), (nomatch ·)⟩

/-- Settles O51: `State.reset` is the table of R56 for one instance. -/
theorem invariantAtReset : Obligations.InvariantAtReset := invariant_afterReset _ _ _

/-- Settles O52: the step is the reset, and the table of R56 meets the invariant for any parameters and draw. -/
theorem invariantAfterAnyReset : Obligations.InvariantAfterAnyReset :=
  fun _ _ ha => ⟨_, step_reset ha, invariant_afterReset _ _ _⟩

/-! ## The tables -/

theorem tablesOk_freqBuild (s : State) : TablesOk (dropTree (freqBuild s)) where
  flags := ⟨(nomatch ·), (nomatch ·)⟩
  freq := fun _ => symbolCount_toNat _
  tree := (nomatch ·)
  code := (nomatch ·)

/-- The list of `tree_build` lists as many symbols as are present. -/
theorem ListsFreq.symbolCount_eq {l : SymFreqs} {s : State} (h : ListsFreq l s) : symbolCount s.freq = l.length := by
  have hmem : ∀ e, e ∈ l ↔ e ∈ presentSymbols s.freq := by
    intro e
    rw [mem_presentSymbols]
    constructor
    · intro he
      exact ⟨(h.counts e he).2, (h.counts e he).1⟩
    · rintro ⟨hne, hf⟩
      obtain ⟨e', he', hsym⟩ := h.covers e.1 (by rw [State.freqAt, hf]; exact hne)
      have hcount : s.freqAt e.1 = e'.2 := hsym ▸ (h.counts e' he').1
      rwa [show e = e' from Prod.ext hsym.symm (hf.symm.trans hcount)]
  have hperm := (List.perm_ext_iff_of_nodup (.of_map _ h.distinct) (.of_map _ (presentSymbols_nodup s.freq))).mpr hmem
  rw [← length_presentSymbols, hperm.length_eq]

theorem tablesOk_treeBuild {s : State} (h : TablesOk s) (hf : s.freqValid = true) (hne : presentSymbols s.freq ≠ []) :
    TablesOk (dropCode (treeBuild (presentSymbols s.freq) s)) where
  flags := ⟨(nomatch ·), fun _ => hf⟩
  freq := h.freq
  tree := fun _ => by
    have hcount : s.symCount.toNat = (presentSymbols s.freq).length := (h.freq hf).trans (length_presentSymbols _).symm
    show TreeShape _ s.symCount.toNat
    rw [hcount]
    exact (treeBuild_shape (listsFreq_presentSymbols hne)).congr (nodeAt_congr rfl) rfl rfl rfl
  code := (nomatch ·)

theorem tablesOk_codeGen {s : State} (h : TablesOk s) (ht : s.treeValid = true) : TablesOk (codeGen s) where
  flags := ⟨fun _ => ht, h.flags.2⟩
  freq := h.freq
  tree := fun _ => (h.tree ht).congr (nodeAt_congr rfl) rfl rfl rfl
  code := fun _ => codeGen_entryOk (h.tree ht)

theorem tablesOk_tablesOf {s : State} (hne : s.inLen ≠ 0) : TablesOk (tablesOf s) := by
  have hcounted : TablesOk (counted s) := (tablesOk_freqBuild (clearDerived s)).congr (by repeat' constructor)
  have htree := tablesOk_treeBuild hcounted rfl (inputList_ne hne)
  exact (tablesOk_codeGen htree rfl).congr (by repeat' constructor)

theorem tablesOk_stage4 {s : State} {l : SymFreqs} (h : ContainerOk s l) : TablesOk (stage4 s l) := by
  have g := good_of_HeaderOk h.header
  have hlist := rebuilt_listsFreq (s := clearDerived s) g.nonempty g.small g.distinct g.nonzero
  have hcount : (stage4 s l).symCount.toNat = l.length := by
    show (BitVec.ofNat 9 l.length).toNat = l.length
    exact toNat_ofNat9 (by have := g.small; omega)
  refine ⟨⟨fun _ => rfl, fun _ => rfl⟩, fun _ => ?freq, fun _ => ?tree, fun _ sym => ?code⟩
  case freq => rw [hcount]; exact hlist.symbolCount_eq.symm
  case tree => rw [hcount]; exact stage4_shape h
  case code =>
    have hentry := rebuilt_entryOk g (clearDerived s) sym
    exact codeEntryOk_congr (s := rebuilt l (clearDerived s)) (t := stage4 s l) rfl rfl rfl rfl hentry

/-! ## The streams -/

theorem writerOk_bwInit {s : State} (h : s.bwBase.toNat ≤ s.params.outCap) : WriterOk (bwInit s.bwBase s) where
  fits := by simpa [ceilDiv8] using h
  clear := by simp

/-- Bits that were written did fit, so everything `bwWriteBits_spec` says holds of them. -/
theorem wrote_of_ok {bs : List Bool} {s t : State} (hw : WriterOk s) (h : bwWriteBits bs s = .ok t) : Wrote s t bs := by
  rcases Nat.lt_or_ge s.params.outCap (s.bwOrg.toNat + ceilDiv8 (s.bwTotal.toNat + bs.length)) with hlt | hle
  · rw [bwWriteBits_over hw hlt] at h
    cases h
  · obtain ⟨u, hu, w⟩ := bwWriteBits_spec hw hle
    rw [hu] at h
    cases h
    exact w

theorem DerivedOk.wrote {bs : List Bool} {s t : State} (h : DerivedOk s) (w : Wrote s t bs) : DerivedOk t := by
  have hout : BufferOk s.params.outCap t.outBuf := ⟨w.wf h.out.1, w.below h.out.2⟩
  have hok : WriterOk t := w.ok
  rw [show t = _ from w.only] at hok ⊢
  exact ⟨hout, h.tables.congr (by repeat' constructor), fun _ => hok, h.reader_congr (by repeat' constructor)⟩

theorem DerivedOk.bwWriteBits {bs : List Bool} {s t : State} (h : DerivedOk s) (hopen : s.bwOpen = true)
    (ht : bwWriteBits bs s = .ok t) : DerivedOk t :=
  h.wrote (wrote_of_ok (h.writer hopen) ht)

theorem bwWriteBits_singleton (b : Bool) (s : State) : bwWriteBits [b] s = bwWriteBit b s := by
  rw [bwWriteBits_cons]
  cases bwWriteBit b s <;> rfl

theorem DerivedOk.bwFinish {s : State} (h : DerivedOk s) (hopen : s.bwOpen = true) : DerivedOk (bwFinish s) where
  out := by
    rw [bwFinish_params]
    exact ⟨bwFinish_wf h.out.1, bwFinish_below (h.writer hopen) h.out.2⟩
  tables := h.tables.congr (by rw [bwFinish_eq]; repeat' constructor)
  writer := by simp
  reader := h.reader_congr (by rw [bwFinish_eq]; repeat' constructor)

theorem readerOk_brInit {s : State} (hcap : s.inLen.toNat ≤ s.params.inCap)
    (hrange : s.brBase.toNat + ceilDiv8 s.brLimit.toNat ≤ s.inLen.toNat) :
    ReaderOk (brInit s.brBase s.brLimit s) where
  within := Nat.zero_le _
  fits := Nat.le_trans hrange hcap

theorem ReaderOk.readBits {s : State} (h : ReaderOk s) {n : Nat} (hn : s.brPos.toNat + n ≤ s.brLim.toNat) :
    ReaderOk (readBits n s) where
  within := by rw [readBits_brPos hn]; exact hn
  fits := h.fits

/-- A bit that was read was one of the stream's. -/
theorem brReadBit_inv {s t : State} {b : Bool} (h : brReadBit s = .ok (b, t)) :
    s.brPos.toNat + 1 ≤ s.brLim.toNat ∧ t = readBits 1 s := by
  obtain ⟨hlt, h⟩ := require_bind_ok_iff.mp h
  have hlt : s.brPos.toNat < s.brLim.toNat := hlt
  cases h
  rw [← readBits_succ hlt 0, readBits_zero]
  exact ⟨hlt, rfl⟩

/-- A walk that ended read bits of the stream only (R194). -/
theorem walkSymbol_inv {s t : State} {sym : Byte} {m : Nat} (hpos : s.brPos.toNat ≤ s.brLim.toNat)
    (h : walkSymbol s = .ok (sym, m, t)) : ∃ n, s.brPos.toNat + n ≤ s.brLim.toNat ∧ t = readBits n s := by
  unfold walkSymbol at h
  split at h
  · obtain ⟨⟨b, u⟩, hu, h⟩ := bind_ok_iff.mp h
    obtain ⟨-, h⟩ := require_bind_ok_iff.mp h
    cases h
    exact ⟨1, brReadBit_inv hu⟩
  · obtain ⟨p, -, -, -, -, -, hfit, -, rfl⟩ := walkFrom_inv h rfl hpos
    exact ⟨p.length, hfit, rfl⟩

theorem DerivedOk.readBits {s : State} (h : DerivedOk s) (hopen : s.brOpen = true) {n : Nat}
    (hn : s.brPos.toNat + n ≤ s.brLim.toNat) : DerivedOk (readBits n s) where
  out := h.out
  tables := h.tables.congr (by repeat' constructor)
  writer := h.writer_congr (by repeat' constructor)
  reader := fun _ => (h.reader hopen).readBits hn

/-- The decode loop writes OUT below the `k + left` bytes it may emit. -/
theorem decodeLoop_bufferOk {cap left k j : Nat} {s t : State} (h : BufferOk cap s.outBuf) (hcap : k + left ≤ cap)
    (ht : decodeLoop left k s = .ok (j, t)) : BufferOk cap t.outBuf := by
  induction left generalizing k s with
  | zero =>
    unfold decodeLoop at ht
    split at ht <;> cases ht
    exact h
  | succ left ih =>
    unfold decodeLoop at ht
    split at ht
    · obtain ⟨⟨sym, m, u⟩, hu, ht⟩ := bind_ok_iff.mp ht
      have hu : walkSymbol s = .ok (sym, m, u) := by
        cases hw : walkSymbol s <;> rw [hw] at hu <;> cases hu
        rfl
      have hout : u.outBuf = s.outBuf := by rw [show u = _ from walkSymbol_only hu]
      have hwrite : BufferOk cap (u.outBuf.write k sym) := by
        rw [hout]
        exact h.write (by omega) sym
      exact ih (s := putOut k sym u) hwrite (by omega) ht
    · cases ht
      exact h

/-! ## The commands -/

theorem compress_derivedOk {s t : State} (h : bodyOf .compress s = .ok t) : DerivedOk t := by
  obtain ⟨-, ⟨-, rfl⟩ | ⟨hne, -, hc⟩⟩ := compress_cases h
  · have hcap := s.params.bounded.2.1
    have hout : BufferOk s.params.outCap (putOutBytes 0 [0x01, 0x01] (counted s)).outBuf :=
      ((bufferOk_havoc _ s.draw).write (by omega) _).write (by omega) _
    have htables := (tablesOk_freqBuild (clearDerived s)).congr
      (t := { putOutBytes 0 [0x01, 0x01] (counted s) with outLen := 2 }) (by repeat' constructor)
    exact ⟨hout, htables, (nomatch ·), (nomatch ·)⟩
  · have hbuf : BufferOk s.params.outCap (tablesOf s).outBuf := bufferOk_havoc _ s.draw
    have hout : BufferOk s.params.outCap t.outBuf := ⟨hc.wf hbuf.1, hc.below hbuf.2⟩
    rw [hc.fields]
    exact ⟨hout, (tablesOk_tablesOf hne).congr (by repeat' constructor), (nomatch ·), (nomatch ·)⟩

theorem decompress_derivedOk {s t : State} (h : bodyOf .decompress s = .ok t) : DerivedOk t := by
  rcases decompress_ok_cases h with ⟨-, -, -, -, rfl⟩ | ⟨l, v, hc, hloop, rfl⟩
  · refine ⟨bufferOk_havoc _ _, ⟨⟨(nomatch ·), (nomatch ·)⟩, fun _ => ?_, (nomatch ·),
      (nomatch ·)⟩, (nomatch ·), (nomatch ·)⟩
    show (0 : BitVec 9).toNat = symbolCount (Vector.replicate 256 0)
    decide +kernel
  · have hbuf : BufferOk s.params.outCap (stage4 s l).outBuf := bufferOk_havoc _ s.draw
    have hout := decodeLoop_bufferOk hbuf (by rw [Nat.zero_add]; exact hc.room) hloop
    rw [show v = _ from decodeLoop_only hloop]
    exact ⟨hout, (tablesOk_stage4 hc).congr (by repeat' constructor), (nomatch ·), (nomatch ·)⟩

/-- A command that ends without error keeps the derived state valid. -/
theorem body_derivedOk {i : Instr} {s t : State} (h : DerivedOk s) (ht : bodyOf i s = .ok t) : DerivedOk t := by
  cases i with
  | nop =>
    cases ht
    exact h
  | clear =>
    cases ht
    exact (derivedOk_clearDerived s).congr (by repeat' constructor)
  | tblRead sym =>
    cases ht
    exact h.congr (by repeat' constructor)
  | nodeRead g =>
    obtain ⟨-, ht⟩ := require_bind_ok_iff.mp ht
    obtain ⟨-, ht⟩ := require_bind_ok_iff.mp ht
    cases ht
    exact h.congr (by repeat' constructor)
  | freqBuild =>
    obtain ⟨-, ht⟩ := require_bind_ok_iff.mp ht
    cases ht
    exact ⟨h.out, tablesOk_freqBuild s, h.writer_congr (by repeat' constructor),
      h.reader_congr (by repeat' constructor)⟩
  | treeBuild =>
    obtain ⟨hf, ht⟩ := require_bind_ok_iff.mp ht
    obtain ⟨hne, ht⟩ := require_bind_ok_iff.mp ht
    cases ht
    exact ⟨h.out, tablesOk_treeBuild h.tables hf hne, h.writer_congr (by repeat' constructor),
      h.reader_congr (by repeat' constructor)⟩
  | codeGen =>
    obtain ⟨hv, ht⟩ := require_bind_ok_iff.mp ht
    cases ht
    exact ⟨h.out, tablesOk_codeGen h.tables hv, h.writer_congr (by repeat' constructor),
      h.reader_congr (by repeat' constructor)⟩
  | bwInit =>
    obtain ⟨hle, ht⟩ := require_bind_ok_iff.mp ht
    cases ht
    exact ⟨h.out, h.tables.congr (by repeat' constructor),
      fun _ => (writerOk_bwInit hle).congr (by repeat' constructor), h.reader_congr (by repeat' constructor)⟩
  | bwWriteBit b =>
    obtain ⟨hopen, ht⟩ := require_bind_ok_iff.mp ht
    exact h.bwWriteBits hopen ((bwWriteBits_singleton b s).trans ht)
  | bwWriteCode sym =>
    obtain ⟨hopen, ht⟩ := require_bind_ok_iff.mp ht
    obtain ⟨-, ht⟩ := require_bind_ok_iff.mp ht
    obtain ⟨-, ht⟩ := require_bind_ok_iff.mp ht
    exact h.bwWriteBits hopen ht
  | bwFinish =>
    obtain ⟨hopen, ht⟩ := require_bind_ok_iff.mp ht
    cases ht
    exact (h.bwFinish hopen).congr (by repeat' constructor)
  | brInit =>
    obtain ⟨hcap, ht⟩ := require_bind_ok_iff.mp ht
    obtain ⟨hrange, ht⟩ := require_bind_ok_iff.mp ht
    cases ht
    exact ⟨h.out, h.tables.congr (by repeat' constructor), h.writer_congr (by repeat' constructor),
      fun _ => readerOk_brInit hcap hrange⟩
  | brReadBit =>
    obtain ⟨hopen, ht⟩ := require_bind_ok_iff.mp ht
    obtain ⟨⟨b, u⟩, hu, ht⟩ := bind_ok_iff.mp ht
    obtain ⟨hfit, rfl⟩ := brReadBit_inv hu
    cases ht
    exact (h.readBits hopen hfit).congr (by repeat' constructor)
  | brDecodeSym =>
    obtain ⟨hopen, ht⟩ := require_bind_ok_iff.mp ht
    obtain ⟨-, ht⟩ := require_bind_ok_iff.mp ht
    obtain ⟨⟨sym, m, u⟩, hu, ht⟩ := bind_ok_iff.mp ht
    obtain ⟨n, hfit, rfl⟩ := walkSymbol_inv (h.reader hopen).within hu
    cases ht
    exact (h.readBits hopen hfit).congr (by repeat' constructor)
  | compress => exact compress_derivedOk ht
  | decompress => exact decompress_derivedOk ht

/-! ## The HFC's move -/

theorem HandshakeOk.congr {s t : State} (h : HandshakeOk s) (hseq : t.seq = s.seq) (hdone : t.done = s.done)
    (herr : t.err = s.err) (hcode : t.errCode = s.errCode) (hinfo : t.errInfo = s.errInfo) : HandshakeOk t where
  busy := by rw [hseq, hdone, herr]; exact h.busy
  errBit := by rw [herr, hcode]; exact h.errBit
  errPair := by rw [hcode, hinfo]; exact h.errPair

theorem errorCode_ne_zero (c : Cause) : errorCode c ≠ 0 := by cases c <;> simp [errorCode]

/-- The complete step leaves no command executing, so any error registers that belong together will do. -/
theorem invariant_complete {s : State} (hin : BufferOk s.params.inCap s.inBuf) (hd : DerivedOk s)
    (hbit : s.err = true ↔ s.errCode ≠ 0)
    (hpair : (s.errCode = 0 ∧ s.errInfo = 0) ∨ ∃ c, s.errCode = errorCode c ∧ s.errInfo = errorInfo c) :
    Invariant (complete s) :=
  invariant_iff.mpr ⟨hin, ⟨(nomatch ·), hbit, hpair⟩, hd.congr (by repeat' constructor)⟩

theorem invariant_complete_errorEntry {s : State} (h : Invariant s) (c : Cause) :
    Invariant (complete (errorEntry c s)) := by
  have hd : DerivedOk (errorEntry c s) := (derivedOk_clearDerived s).congr (by repeat' constructor)
  exact invariant_complete h.inBuf hd ⟨fun _ => errorCode_ne_zero c, fun _ => rfl⟩ (.inr ⟨c, rfl, rfl⟩)

theorem invariant_complete_body {i : Instr} {s t : State} (h : Invariant s) (ht : bodyOf i s = .ok t) :
    Invariant (complete t) := by
  obtain ⟨hin, hs, hd⟩ := invariant_iff.mp h
  have k := body_kept ht
  have hs' := hs.congr k.seq k.done k.err k.errCode k.errInfo
  exact invariant_complete (by rw [k.params, k.inBuf]; exact hin) (body_derivedOk hd ht) hs'.errBit hs'.errPair

theorem runBody_keepsInvariant {s u : State} {r : Except Cause State} (h : Invariant s)
    (hu : runBody s r = .next u) (hok : ∀ t, r = .ok t → Invariant (complete t)) : Invariant (complete u) := by
  rcases runBody_cases hu with hr | ⟨c, -, rfl⟩
  · exact hok u hr
  · exact invariant_complete_errorEntry h c

theorem hfcStep_keepsInvariant {s t : State} (h : Invariant s) (ht : hfcStep s = .next t) : Invariant t := by
  unfold hfcStep at ht
  split at ht
  · cases ht
    exact h
  · obtain ⟨u, hu, rfl⟩ := thenComplete_next ht
    unfold execPending at hu
    split at hu
    · rw [exec_eq_runBody] at hu
      exact runBody_keepsInvariant h hu fun _ hbody => invariant_complete_body h hbody
    · exact runBody_keepsInvariant h hu fun _ hr => nomatch hr

/-! ## The host's moves -/

theorem Invariant.handshake {s : State} (h : Invariant s) : HandshakeOk s := ⟨h.busy, h.errBit, h.errPair⟩

theorem Invariant.respond {s : State} (h : Invariant s) (r : Resp) (d : Nat) :
    Invariant { s with resp := r, draw := d } :=
  h.of_derivedKept (by repeat' constructor) rfl (h.handshake.congr rfl rfl rfl rfl rfl)

/-- A read answers one response or the other, and draws for one of them. -/
theorem Invariant.respondEither {s : State} (h : Invariant s) (c : Prop) [Decidable c] (r r' : Resp) (d : Nat) :
    Invariant (if c then { s with resp := r, draw := d } else { s with resp := r' }) := by
  split
  · exact h.respond r d
  · exact h.respond r' s.draw

theorem Invariant.accept {s : State} (h : Invariant s) (w : Word) : Invariant (accept w s) :=
  h.of_derivedKept (by repeat' constructor) rfl ⟨fun _ => ⟨rfl, rfl⟩, by simp, .inl ⟨rfl, rfl⟩⟩

theorem Invariant.writeStatus {s : State} (h : Invariant s) (v : Word) : Invariant (writeStatus v s) := by
  refine h.of_derivedKept (by repeat' constructor) rfl ⟨fun hseq => ?_, h.errBit, h.errPair⟩
  obtain ⟨hdone, herr⟩ := h.busy hseq
  exact ⟨by simp [Machine.writeStatus, hdone], herr⟩

theorem Invariant.writeReg {s : State} (h : Invariant s) (r : Reg) (v : Word) : Invariant (writeReg r v s) := by
  have keeps {t : State} (e : DerivedKept s t) (hin : t.inBuf = s.inBuf) (hseq : t.seq = s.seq)
      (hdone : t.done = s.done) (herr : t.err = s.err) (hcode : t.errCode = s.errCode) (hinfo : t.errInfo = s.errInfo) :
      Invariant t :=
    h.of_derivedKept e hin (h.handshake.congr hseq hdone herr hcode hinfo)
  cases r with
  | ctrl => exact keeps (by repeat' constructor) rfl rfl rfl rfl rfl rfl
  | status => exact h.writeStatus v
  | cmd =>
    unfold Machine.writeReg writeCmd
    dsimp only
    split
    · exact keeps (by repeat' constructor) rfl rfl rfl rfl rfl rfl
    · exact h.accept v
  | inLen | bwBase | brBase | brLimit =>
    unfold Machine.writeReg
    dsimp only
    split
    · exact h
    · exact keeps (by repeat' constructor) rfl rfl rfl rfl rfl rfl
  | id | errcode | errinfo | outLen | symCount | bitcount | bwBits | brPos | nodeCount | root | inCap | outCap | res _
    | reserved => exact h

theorem Invariant.putIn {s : State} (h : Invariant s) {a : Nat} (ha : a < s.params.inCap) (b : Byte) :
    Invariant (putIn a b s) := by
  obtain ⟨hin, hs, hd⟩ := invariant_iff.mp h
  exact invariant_iff.mpr ⟨hin.write ha b, hs.congr rfl rfl rfl rfl rfl, hd.congr (by repeat' constructor)⟩

theorem hostStep_keepsInvariant {m : HostMove} {s t : State} (h : Invariant s) (ht : hostStep m s = .next t) :
    Invariant t := by
  cases m with
  | regRead off =>
    obtain ⟨r, rfl⟩ := regAccess_next (act := fun r => readReg r s) ht
    exact h.respondEither _ _ _ _
  | regWrite off v =>
    obtain ⟨r, rfl⟩ := regAccess_next (act := fun r => writeReg r v s) ht
    exact h.writeReg r v
  | inWrite a b =>
    simp only [hostStep] at ht
    split at ht <;> cases ht
    unfold inWrite
    split
    · exact h
    · exact h.putIn ‹_› b
  | inRead a | outRead a =>
    simp only [hostStep] at ht
    split at ht <;> cases ht
    exact h.respondEither _ _ _ _
  | outWrite a b =>
    simp only [hostStep] at ht
    split at ht <;> cases ht
    exact h

/-! ## The step -/

theorem Invariant.popMove {s : State} (h : Invariant s) : Invariant s.popMove :=
  h.of_derivedKept (by repeat' constructor) rfl (h.handshake.congr rfl rfl rfl rfl rfl)

/-- Settles O53, by the agent that moves: a command makes the derived state anew or keeps it, a host's move touches
IN and the handshake alone, and a reset gives the table of R56. -/
theorem stepKeepsTheInvariant : Obligations.StepKeepsTheInvariant := by
  intro s t h ht
  unfold step at ht
  split at ht
  · exact hfcStep_keepsInvariant h ht
  · exact hfcStep_keepsInvariant h.popMove ht
  · exact hostStep_keepsInvariant h.popMove ht
  · obtain ⟨m, hm⟩ := busStep_next ht
    exact hostStep_keepsInvariant h.popMove hm
  · cases ht
    exact invariant_afterReset _ _ _

end Sys2Proof.Machine
end

section
/-! SUPPORT. The handshake and the host's moves: the complete step (R27), a write to CMD (R28), register reads
(R22, R29, R70), accesses that are no move (R80, R82), and the table of reset (R56). -/

namespace Sys2Proof.Machine

/-! ## The complete step -/

theorem busy_of_idle {s : State} (h : s.seq = .idle) : s.busy = false := by simp [State.busy, h]

theorem busy_of_exec {s : State} (h : s.seq = .exec) : s.busy = true := by simp [State.busy, h]

theorem hfcStep_idle {s : State} (h : s.seq = .idle) : hfcStep s = .next s := by simp only [hfcStep, h]

theorem hfcStep_exec {s t : State} (h : s.seq = .exec) (ht : execPending s = .next t) :
    hfcStep s = .next (complete t) := by
  simp only [hfcStep, h, ht, thenComplete]

theorem execPending_of_decoded {s : State} {i : Instr} (h : decode s.pend = .ok i) : execPending s = exec i s := by
  simp only [execPending, h]

theorem execPending_of_rejected {s : State} {why : Reject} (h : decode s.pend = .error why) :
    execPending s = .next (errorEntry (.illegalCommand why) s) := by
  simp only [execPending, h, runBody_error]

/-- Whatever word is pending, `exec` answers a next state with the common frame of all commands. -/
theorem execPending_next (s : State) : ∃ t, execPending s = .next t ∧ Kept s t := by
  cases h : decode s.pend with
  | ok i =>
    obtain ⟨t, ht⟩ := exec_next i s
    exact ⟨t, (execPending_of_decoded h).trans ht, exec_kept ht⟩
  | error why => exact ⟨_, execPending_of_rejected h, kept_error _ _⟩

/-- Settles O5, by what PEND decodes to. -/
theorem stepRunsTheAcceptedCommand : Obligations.StepRunsTheAcceptedCommand := by
  intro s ha
  have hstep : step s = hfcStep s.popMove := step_hfc ha
  refine ⟨fun hidle => hstep.trans (hfcStep_idle (s := s.popMove) hidle), fun hexec =>
    ⟨fun i hi => ?command, fun why hwhy => ?illegal⟩⟩
  case command =>
    obtain ⟨t, ht⟩ := exec_next i s.popMove
    have hpending := (execPending_of_decoded (s := s.popMove) hi).trans ht
    exact ⟨t, ht, hstep.trans (hfcStep_exec hexec hpending)⟩
  case illegal =>
    have hpending := execPending_of_rejected (s := s.popMove) hwhy
    refine ⟨clearDerived s.popMove, rfl, hstep.trans ((hfcStep_exec (s := s.popMove) hexec hpending).trans ?_)⟩
    cases why <;> rfl

/-- Settles O7: the complete step follows `exec`, which keeps PEND and CTRL.IE. -/
theorem everyAcceptedCommandCompletes : Obligations.EveryAcceptedCommandCompletes := by
  intro s ha hexec
  obtain ⟨t, ht, k⟩ := execPending_next s.popMove
  refine ⟨complete t, (step_hfc ha).trans (hfcStep_exec hexec ht), rfl, rfl, k.pend, ?_⟩
  simp [irq, k.ie, State.popMove]

/-! ## Register accesses -/

theorem regAccess_aligned {off : Nat} (hlt : off < 0x100) (hmod : off % 4 = 0) (act : Reg → State) :
    regAccess off act = .next (act (regAt (off / 4))) := by
  rw [regAccess, if_neg (by omega), if_neg (by omega)]

theorem regAccess_outside {off : Nat} (h : 0x100 ≤ off) (act : Reg → State) :
    regAccess off act = .fault .outsideRegisterBlock := by
  rw [regAccess, if_pos h]

theorem regAccess_misaligned {off : Nat} (hlt : off < 0x100) (hmod : off % 4 ≠ 0) (act : Reg → State) :
    regAccess off act = .refused .misalignedRegisterAccess := by
  rw [regAccess, if_neg (by omega), if_pos hmod]

theorem step_regRead {s : State} {off : Nat} {rest : List Move} (ha : s.agenda = .host (.regRead off) :: rest)
    (hlt : off < 0x100) (hmod : off % 4 = 0) :
    step s = .next (readReg (regAt (off / 4)) { s with agenda := rest }) := by
  rw [step_host ha, hostStep, regAccess_aligned hlt hmod]

theorem step_regWrite {s : State} {off : Nat} {v : Word} {rest : List Move}
    (ha : s.agenda = .host (.regWrite off v) :: rest) (hlt : off < 0x100) (hmod : off % 4 = 0) :
    step s = .next (writeReg (regAt (off / 4)) v { s with agenda := rest }) := by
  rw [step_host ha, hostStep, regAccess_aligned hlt hmod]

theorem writeCmd_idle {s : State} (h : s.seq = .idle) (v : Word) : writeCmd v s = accept v s := by
  simp [writeCmd, busy_of_idle h]

theorem writeCmd_busy {s : State} (h : s.seq = .exec) (v : Word) : writeCmd v s = dropCommand s := by
  simp [writeCmd, busy_of_exec h]

theorem step_writeCmd {s : State} {w : Word} {rest : List Move} (ha : s.agenda = .host (.regWrite 0x0C w) :: rest) :
    step s = .next (writeCmd w { s with agenda := rest }) :=
  step_regWrite ha (by decide) (by decide)

/-- Settles O6: the register at 0x0C is CMD, whose write asks SEQ. -/
theorem commandWriteIsAcceptedOrDropped : Obligations.CommandWriteIsAcceptedOrDropped := by
  intro s w rest ha
  exact ⟨fun hidle => (step_writeCmd ha).trans (congrArg _ (writeCmd_idle (s := { s with agenda := rest }) hidle w)),
    fun hexec => (step_writeCmd ha).trans (congrArg _ (writeCmd_busy (s := { s with agenda := rest }) hexec w))⟩

/-- Settles O8, by the register the write is to. -/
theorem interruptLineFollowsItsBits : Obligations.InterruptLineFollowsItsBits := by
  intro s rest v
  refine ⟨by simp [irq], fun ha => ?ctrl, fun ha hidle hv => ?status, fun ha hidle => ?cmd⟩
  case ctrl => exact ⟨_, step_regWrite ha (by decide) (by decide), rfl⟩
  case status =>
    refine ⟨writeStatus v { s with agenda := rest }, step_regWrite ha (by decide) (by decide), ?_⟩
    simp [irq, writeStatus, State.busy, hidle, hv]
  case cmd =>
    have haccept := writeCmd_idle (s := { s with agenda := rest }) hidle v
    exact ⟨_, (step_writeCmd ha).trans (congrArg _ haccept), by simp [irq]⟩

/-- Settles O14: each access by its test in `hostStep`. -/
theorem accessesOutsideTheInterfaceStop : Obligations.AccessesOutsideTheInterfaceStop := by
  intro s a b v rest
  refine ⟨fun ha => ⟨fun hout => ?outside, fun hlt hmod => ?misaligned⟩, fun ha hcap => ?inWindow,
    fun ha hcap => ?outWindow⟩
  case outside => rcases ha with ha | ha <;> rw [step_host ha, hostStep, regAccess_outside hout]
  case misaligned => rcases ha with ha | ha <;> rw [step_host ha, hostStep, regAccess_misaligned hlt hmod]
  case inWindow => rcases ha with ha | ha <;> exact (step_host ha).trans (if_neg (Nat.not_lt.mpr hcap))
  case outWindow => rcases ha with ha | ha <;> exact (step_host ha).trans (if_neg (Nat.not_lt.mpr hcap))

/-! ## Register reads -/

theorem getLsbD_bitAt (b : Bool) {i : Nat} (hi : i < 32) (k : Nat) :
    (bitAt b i).getLsbD k = (decide (k = i) && b) := by
  rcases Nat.lt_trichotomy k i with h | rfl | h
  · simp [bitAt, h, Nat.ne_of_lt h]
  · simp [bitAt, hi]
  · simp [bitAt, BitVec.getLsbD_ofBool, Nat.ne_of_gt h, Nat.sub_ne_zero_of_lt h]

/-- The STATUS register, bit by bit (R33). -/
theorem getLsbD_statusWord (s : State) (k : Nat) : (statusWord s).getLsbD k =
    [s.busy, s.done, s.err, s.ovr, false, false, false, false, s.freqValid, s.treeValid, s.codeValid, s.bwOpen,
      s.brOpen].getD k false := by
  simp (disch := decide) only [statusWord, BitVec.getLsbD_or, getLsbD_bitAt]
  rcases Nat.lt_or_ge k 13 with hk | hk
  · interval_cases k <;> simp
  · rw [List.getD_eq_default _ _ hk]
    simp (disch := omega) only [decide_eq_false, Bool.false_and, Bool.or_false]

theorem toNat_bitAt_zero (b : Bool) : (bitAt b 0).toNat = b.toNat := by cases b <;> rfl

theorem toNat_cap {c : Nat} (h : 2 ≤ c ∧ c ≤ 536870911) : (BitVec.ofNat 32 c).toNat = c := by
  rw [BitVec.toNat_ofNat]
  omega

theorem regAt_res (k : Fin 10) : regAt ((0x50 + 4 * k.val) / 4) = .res k := by
  revert k
  decide

/-- The reserved offsets of the register block (R23). -/
theorem regAt_reserved {off : Nat} (hlt : off < 0x100) (h : off = 0x4C ∨ 0x78 ≤ off) :
    regAt (off / 4) = .reserved := by
  have key : ∀ k < 64, k = 0x13 ∨ 0x1E ≤ k → regAt k = .reserved := by decide
  exact key _ (by omega) (by omega)

theorem readReg_idle {s : State} (h : s.seq = .idle) (r : Reg) : readReg r s = respond (.word (regValue s r)) s := by
  simp [readReg, busy_of_idle h]

theorem readReg_readable {s : State} {r : Reg} (h : readableWhileBusy r = true) :
    readReg r s = respond (.word (regValue s r)) s := by
  simp [readReg, h]

theorem readReg_unreadable {s : State} {r : Reg} (hexec : s.seq = .exec) (h : readableWhileBusy r = false) :
    readReg r s = respondFreeWord s := by
  simp [readReg, busy_of_exec hexec, h]

/-- Settles O9, register by register of the map (R22). -/
theorem registerReadsWhileIdle : Obligations.RegisterReadsWhileIdle := by
  intro s off rest ha hidle hlt hmod
  obtain ⟨hin, hout⟩ := s.params.bounded
  refine ⟨regValue s (regAt (off / 4)), ?step, ?_, ?ctrl, ?status, ?_, ?errCode, ?errInfo, ?_, ?_, ?symCount, ?_, ?_,
    ?_, ?_, ?_, ?_, ?nodeCount, ?root, ?inCap, ?outCap, ?res, ?reserved⟩
  case step =>
    exact (step_regRead ha hlt hmod).trans (congrArg _ (readReg_idle (s := { s with agenda := rest }) hidle _))
  case ctrl => rintro rfl; exact toNat_bitAt_zero s.ie
  case status => rintro rfl k; exact (getLsbD_statusWord s k).trans (by rw [busy_of_idle hidle])
  case errCode | errInfo | symCount | nodeCount | root => rintro rfl; exact BitVec.toNat_setWidth_of_le (by decide)
  case inCap => rintro rfl; exact toNat_cap hin
  case outCap => rintro rfl; exact toNat_cap hout
  case res => rintro k rfl; rw [regAt_res]; rfl
  case reserved => intro h; rw [regAt_reserved hlt h]; rfl
  all_goals rintro rfl; rfl

/-- Settles O10: R29's five registers are the readable ones; the value of any other is a draw. -/
theorem registerReadsWhileBusy : Obligations.RegisterReadsWhileBusy := by
  intro s off rest ha hexec hlt hmod
  obtain ⟨hin, hout⟩ := s.params.bounded
  have hstep := step_regRead ha hlt hmod
  cases hr : readableWhileBusy (regAt (off / 4)) with
  | true =>
    refine ⟨regValue s (regAt (off / 4)), s.draw, hstep.trans (congrArg _ (readReg_readable hr)), ?id, ?ctrl,
      ?status, ?inCap, ?outCap⟩
    case id => rintro rfl; rfl
    case ctrl => rintro rfl; exact toNat_bitAt_zero s.ie
    case status => rintro rfl k; exact (getLsbD_statusWord s k).trans (by rw [busy_of_exec hexec])
    case inCap => rintro rfl; exact toNat_cap hin
    case outCap => rintro rfl; exact toNat_cap hout
  | false =>
    have hread := readReg_unreadable (s := { s with agenda := rest }) hexec hr
    refine ⟨Config.freeRegRead s.draw, s.draw + 1, hstep.trans (congrArg _ hread), ?_, ?_, ?_, ?_, ?_⟩
    all_goals rintro rfl; cases hr

/-! ## Reset -/

theorem statusWord_afterReset (p : Params) (d : Nat) (ms : List Move) : statusWord (State.afterReset p d ms) = 0 := by
  simp [statusWord, bitAt, State.afterReset, State.busy]

/-- Settles O15: the step is the reset, and its state is the table. -/
theorem resetGivesTheTable : Obligations.ResetGivesTheTable := by
  intro s rest ha
  refine ⟨_, step_reset ha, rfl, rfl, rfl, statusWord_afterReset _ _ _, ?_⟩
  repeat' constructor

/-- Settles O16: each register by its line of the table. -/
theorem resetStateHasTheTable : Obligations.ResetStateHasTheTable := by
  refine ⟨rfl, rfl, statusWord_afterReset _ _ _, ?_⟩
  repeat' constructor

end Sys2Proof.Machine
end

section
/-! SUPPORT. What a command that ends without error has made of the state, and what that says of the host's side, RES
and the validity flags (rules R45, R46, R53, R287). -/

namespace Sys2Proof.Machine

/-! ## The effect of each command -/

/-- `t` is what the command `i`, where it ends without error, makes of `s`. -/
def Effect (i : Instr) (s t : State) : Prop :=
  match i with
  | .nop => t = s
  | .clear => t = setRes [] (clearDerived s)
  | .tblRead sym => t = setRes (tblReadValues s sym) s
  | .nodeRead h => t = setRes (nodeReadValues (s.nodeAt h)) s
  | .freqBuild => t = dropTree (freqBuild s)
  | .treeBuild => t = dropCode (treeBuild (presentSymbols s.freq) s)
  | .codeGen => t = codeGen s
  | .bwInit => t = { bwInit s.bwBase s with outLen := s.bwBase }
  | .bwWriteBit _ | .bwWriteCode _ => onlyWriter s t
  | .bwFinish => t = setRes [BitVec.ofNat 32 (lastByteValid s.bwTotal.toNat),
      BitVec.ofNat 32 (lastBytePad s.bwTotal.toNat)]
    { bwFinish s with
      bitCount := s.bwTotal, outLen := BitVec.ofNat 32 (s.bwOrg.toNat + ceilDiv8 s.bwTotal.toNat) }
  | .brInit => t = brInit s.brBase s.brLimit s
  | .brReadBit => ∃ b u, onlyReader s u ∧ t = setRes [b] u
  | .brDecodeSym => ∃ sym n u, onlyReader s u ∧ t = setRes [sym, n] u
  | .compress => (s.inLen = 0 ∧ t = { putOutBytes 0 [0x01, 0x01] (counted s) with outLen := 2 }) ∨
    (s.inLen ≠ 0 ∧ Compressed (inputList s) (payloadBits (tablesOf s) s) (tablesOf s) t)
  | .decompress =>
    (s.inAt 1 = 1 ∧ t = { clearDerived s with freq := Vector.replicate 256 0, freqValid := true }) ∨
    ∃ l v n, ContainerOk s l ∧ onlyDecoder (stage4 s l) v ∧ t = { v with outLen := n, brOpen := false }

theorem effect_of_body {i : Instr} {s t : State} (h : bodyOf i s = .ok t) : Effect i s t := by
  cases i with
  | nop | clear | tblRead _ => exact (Except.ok.inj h).symm
  | freqBuild | codeGen | bwInit | bwFinish =>
    obtain ⟨-, h⟩ := require_bind_ok_iff.mp h
    exact (Except.ok.inj h).symm
  | nodeRead _ | treeBuild | brInit =>
    obtain ⟨-, h⟩ := require_bind_ok_iff.mp h
    obtain ⟨-, h⟩ := require_bind_ok_iff.mp h
    exact (Except.ok.inj h).symm
  | bwWriteBit b =>
    obtain ⟨-, h⟩ := require_bind_ok_iff.mp h
    exact bwWriteBit_only h
  | bwWriteCode sym =>
    obtain ⟨-, h⟩ := require_bind_ok_iff.mp h
    obtain ⟨-, h⟩ := require_bind_ok_iff.mp h
    obtain ⟨-, h⟩ := require_bind_ok_iff.mp h
    exact bwWriteBits_only h
  | brReadBit =>
    obtain ⟨-, h⟩ := require_bind_ok_iff.mp h
    obtain ⟨⟨b, u⟩, hu, h⟩ := bind_ok_iff.mp h
    exact ⟨_, u, brReadBit_only hu, (Except.ok.inj h).symm⟩
  | brDecodeSym =>
    obtain ⟨-, h⟩ := require_bind_ok_iff.mp h
    obtain ⟨-, h⟩ := require_bind_ok_iff.mp h
    obtain ⟨⟨sym, n, u⟩, hu, h⟩ := bind_ok_iff.mp h
    exact ⟨_, _, u, walkSymbol_only hu, (Except.ok.inj h).symm⟩
  | compress => exact (compress_cases h).2.imp_right fun ⟨hne, _, hc⟩ => ⟨hne, hc⟩
  | decompress =>
    rcases decompress_ok_cases h with ⟨-, -, h1, -, ht⟩ | ⟨l, v, hc, hloop, ht⟩
    · exact .inl ⟨h1, ht⟩
    · exact .inr ⟨l, v, _, hc, decodeLoop_only hloop, ht⟩

/-! ## The host's side -/

/-- Settles O18: the frame common to all commands, with or without error. -/
theorem noCommandTouchesTheHostSide : Obligations.NoCommandTouchesTheHostSide := by
  intro i s
  obtain ⟨t, ht⟩ := exec_next i s
  have k := exec_kept ht
  exact ⟨t, ht, congrFun (inAt_congr k.inBuf), k.inLen, k.bwBase, k.brBase, k.brLimit, k.ie, k.ovr, k.seq, k.pend,
    k.done, k.params, k.agenda, k.resp⟩

/-! ## RES -/

theorem compress_res {s t : State} (h : Effect .compress s t) : t.res = s.res := by
  rcases h with ⟨-, rfl⟩ | ⟨-, hc⟩
  · simp [counted]
  · rw [hc.fields]
    simp [tablesOf, counted]

theorem decompress_res {s t : State} (h : Effect .decompress s t) : t.res = s.res := by
  rcases h with ⟨-, rfl⟩ | ⟨l, v, n, -, hv, rfl⟩
  · simp
  · rw [show v = _ from hv]
    rfl

/-- Settles O19: error entry keeps RES, and where a command ends its effect says what RES holds. -/
theorem resultRegistersRule : Obligations.ResultRegistersRule := by
  intro i s t hexec hs
  refine ⟨fun ht => ?error, fun ht => ?ends⟩
  case error =>
    obtain ⟨c, -, rfl⟩ := body_error_of hexec hs ht
    simp
  case ends =>
    have he := effect_of_body (body_ok_of hexec ht)
    cases i with
    | tblRead _ => trivial
    | clear =>
      obtain rfl := he
      exact fun k hk => setRes_zero _ _ k hk (Nat.zero_le k)
    | nodeRead _ | bwFinish =>
      obtain rfl := he
      exact fun k hk hle => setRes_zero _ _ k hk hle
    | brReadBit =>
      obtain ⟨b, u, -, rfl⟩ := he
      exact fun k hk hle => setRes_zero _ _ k hk hle
    | brDecodeSym =>
      obtain ⟨sym, n, u, -, rfl⟩ := he
      exact fun k hk hle => setRes_zero _ _ k hk hle
    | nop | freqBuild | treeBuild | codeGen | bwInit | brInit =>
      obtain rfl := he
      rfl
    | bwWriteBit _ | bwWriteCode _ =>
      rw [show t = _ from he]
    | compress => exact compress_res he
    | decompress => exact decompress_res he

/-! ## The validity flags -/

/-- The five flags of `t` (R46). -/
structure FlagsAre (t : State) (freq tree code bw br : Bool) : Prop where
  freqValid : t.freqValid = freq
  treeValid : t.treeValid = tree
  codeValid : t.codeValid = code
  bwOpen : t.bwOpen = bw
  brOpen : t.brOpen = br

theorem compress_flags {s t : State} (h : Effect .compress s t) :
    FlagsAre t true (decide (s.inLen ≠ 0)) (decide (s.inLen ≠ 0)) false false := by
  rcases h with ⟨h0, rfl⟩ | ⟨hne, hc⟩
  · simp only [h0, ne_eq, not_true_eq_false, decide_false]
    exact ⟨rfl, rfl, rfl, rfl, rfl⟩
  · rw [hc.fields]
    simp only [ne_eq, hne, not_false_eq_true, decide_true]
    exact ⟨rfl, rfl, rfl, rfl, rfl⟩

theorem decompress_flags {s t : State} (h : Effect .decompress s t) :
    FlagsAre t true (!(s.inAt 1).getLsbD 0) (!(s.inAt 1).getLsbD 0) false false := by
  rcases h with ⟨h1, rfl⟩ | ⟨l, v, n, hc, hv, rfl⟩
  · rw [h1]
    exact ⟨rfl, rfl, rfl, rfl, rfl⟩
  · rw [hc.header.flags, show v = _ from hv]
    exact ⟨rfl, rfl, rfl, rfl, rfl⟩

/-- Settles O20: error entry clears the flags, and where a command ends its effect says what they are. -/
theorem validityFlags : Obligations.ValidityFlags := by
  intro i s t hexec hs
  refine ⟨fun ht => ?error, fun ht => ?ends⟩
  case error =>
    obtain ⟨c, -, rfl⟩ := body_error_of hexec hs ht
    simp
  case ends =>
    have he := effect_of_body (body_ok_of hexec ht)
    cases i with
    | nop | clear | tblRead _ | nodeRead _ | freqBuild | treeBuild | codeGen | bwInit | brInit =>
      obtain rfl := he
      exact ⟨rfl, rfl, rfl, rfl, rfl⟩
    | bwWriteBit _ | bwWriteCode _ =>
      rw [show t = _ from he]
      exact ⟨rfl, rfl, rfl, rfl, rfl⟩
    | bwFinish =>
      obtain rfl := he
      simp
    | brReadBit =>
      obtain ⟨b, u, hu, rfl⟩ := he
      rw [show u = _ from hu]
      exact ⟨rfl, rfl, rfl, rfl, rfl⟩
    | brDecodeSym =>
      obtain ⟨sym, n, u, hu, rfl⟩ := he
      rw [show u = _ from hu]
      exact ⟨rfl, rfl, rfl, rfl, rfl⟩
    | compress =>
      obtain ⟨hf, ht, hc, hw, hr⟩ := compress_flags he
      exact ⟨hf, ht, hc, hw, hr⟩
    | decompress =>
      obtain ⟨hf, ht, hc, hw, hr⟩ := decompress_flags he
      exact ⟨hf, ht, hc, hw, hr⟩

end Sys2Proof.Machine
end

section
/-! SUPPORT. FREQ_BUILD, CODE_GEN, BW_WRITE_BIT and BW_WRITE_CODE, each in full (rules R141, R142, R172 to R174, R182,
R183, R185, R186). -/

namespace Sys2Proof.Machine

/-! ## FREQ_BUILD -/

theorem freqAt_freqBuild (s : State) (sym : Byte) :
    ((freqBuild s).freqAt sym).toNat = (inBytes s s.inLen.toNat).count sym :=
  countBytes_toNat (by rw [length_inBytes]; exact s.inLen.isLt) sym

theorem count_inBytes (s : State) (n : Nat) (sym : Byte) :
    (inBytes s n).count sym = (List.range n).countP fun i => s.inAt i = sym := by
  rw [inBytes, List.count_eq_countP, List.countP_map]
  rfl

/-- FREQ as a list, by symbol. -/
theorem toList_freq (s : State) : s.freq.toList = (List.range 256).map fun k => s.freqAt (BitVec.ofNat 8 k) := by
  refine List.ext_getElem (by simp) fun k hk hk' => ?_
  have hlt : k < 256 := by simpa using hk'
  simp [State.freqAt, Nat.mod_eq_of_lt hlt]

theorem symbolCount_eq_countP (s : State) :
    symbolCount s.freq = (List.range 256).countP fun k => s.freqAt (BitVec.ofNat 8 k) ≠ 0 := by
  rw [symbolCount, toList_freq, List.countP_map]
  rfl

theorem nodup_bytes : ((List.range 256).map (BitVec.ofNat 8)).Nodup := by
  refine List.Nodup.map_on (fun a ha b hb h => ?_) List.nodup_range
  have hval := congrArg BitVec.toNat h
  simp only [List.mem_range] at ha hb
  simpa only [BitVec.toNat_ofNat, Nat.mod_eq_of_lt (show a < 2 ^ 8 from ha),
    Nat.mod_eq_of_lt (show b < 2 ^ 8 from hb)] using hval

/-- Every byte is one of the 256 symbols, so the counters count all of the input (R142). -/
theorem sum_freqAt_freqBuild (s : State) :
    ((List.range 256).map fun k => ((freqBuild s).freqAt (BitVec.ofNat 8 k)).toNat).sum = s.inLen.toNat := by
  have hsum := sum_count_eq (fun _ => 1) ((List.range 256).map fun k =>
      (BitVec.ofNat 8 k, (freqBuild s).freqAt (BitVec.ofNat 8 k)))
    (by rw [List.map_map]; exact nodup_bytes)
    (inBytes s s.inLen.toNat) ?counts ?covers
  case counts =>
    intro e he
    obtain ⟨k, -, rfl⟩ := List.mem_map.mp he
    exact freqAt_freqBuild s _
  case covers =>
    intro b _
    exact ⟨(b, (freqBuild s).freqAt b), List.mem_map.mpr ⟨b.toNat, List.mem_range.mpr b.isLt, by simp⟩, rfl⟩
  simpa [Function.comp_def] using hsum

/-- Settles O26: each counter by `countBytes_toNat`, and their sum because every byte is one of the 256 symbols. -/
theorem freqBuildCounts : Obligations.FreqBuildCounts := by
  intro s
  refine ⟨fun hlt => ?error, fun hle => ⟨dropTree (freqBuild s), ?ends, fun sym => ?counts, ?sum, ?symbols, rfl⟩⟩
  case error => exact raises_of_body (require_bind_neg (Nat.not_le.mpr hlt) _) rfl rfl
  case ends => exact exec_ok (require_bind_pos hle _)
  case counts => exact (freqAt_freqBuild s sym).trans (count_inBytes s _ sym)
  case sum => exact sum_freqAt_freqBuild s
  case symbols => exact (symbolCount_toNat _).trans (symbolCount_eq_countP (freqBuild s))

/-! ## CODE_GEN -/

/-- Settles O28: `codeGen_entryOk` for every symbol. -/
theorem codeGenHoldsThePaths : Obligations.CodeGenHoldsThePaths := by
  intro s
  refine ⟨fun hv => ?error, fun hv k ts => ⟨codeGen s, ?ends, codeGen_entryOk ts, rfl⟩⟩
  case error => exact raises_of_body (require_bind_neg (by simp [hv]) _) rfl rfl
  case ends => exact exec_ok (require_bind_pos hv _)

/-! ## BW_WRITE_BIT and BW_WRITE_CODE -/

theorem raises_of_writer_closed {i : Instr} {s : State} (h : s.bwOpen = false) {f : Unit → Except Cause State}
    (hi : bodyOf i s = (require (s.bwOpen = true) (.precondition .bwNotOpen) >>= f)) : raises i s 7 4 :=
  raises_of_body (hi.trans (require_bind_neg (by simp [h]) f)) rfl rfl

theorem bwWriteBit_body {s : State} (b : Bool) (hopen : s.bwOpen = true) :
    bodyOf (.bwWriteBit b) s = bwWriteBits [b] s :=
  (require_bind_pos hopen _).trans (bwWriteBits_singleton b s).symm

theorem bwWriteCode_body {s : State} {sym : Byte} (hopen : s.bwOpen = true) (hcode : s.codeValid = true)
    (hlen : s.codeLenAt sym ≠ 0) : bodyOf (.bwWriteCode sym) s = bwWriteBits (codeBits s sym) s :=
  (require_bind_pos hopen _).trans ((require_bind_pos hcode _).trans (require_bind_pos hlen _))

/-- The bit that opens a byte beyond OUT raises (R185). -/
theorem bwWriteBit_over {s : State} (b : Bool) (h0 : s.bwTotal.toNat % 8 = 0)
    (hout : s.params.outCap ≤ s.bwOrg.toNat + s.bwTotal.toNat / 8) :
    bwWriteBit b s = .error (.capacity .outOver) :=
  require_bind_neg (fun h => Nat.not_lt.mpr hout (h h0)) _

/-- The next bit fits: it goes to the open byte, or opens one below OUT_CAP (R51, R185). -/
theorem WriterOk.next_fits {s : State} (hw : WriterOk s)
    (h : s.bwTotal.toNat % 8 = 0 → s.bwOrg.toNat + s.bwTotal.toNat / 8 < s.params.outCap) :
    s.bwOrg.toNat + ceilDiv8 (s.bwTotal.toNat + 1) ≤ s.params.outCap := by
  have hfits := hw.fits
  unfold ceilDiv8 at hfits ⊢
  by_cases h0 : s.bwTotal.toNat % 8 = 0
  · have := h h0
    omega
  · omega

/-- One bit changes OUT where it completes the writer's byte, and nowhere else. -/
theorem Wrote.outAt_single {s t : State} {b : Bool} (w : Wrote s t [b]) {a : Nat}
    (ha : ¬ (s.bwTotal.toNat % 8 = 7 ∧ a = writerAddr s)) : t.outAt a = s.outAt a := by
  have htotal : t.bwTotal.toNat = s.bwTotal.toNat + 1 := w.total
  rcases Nat.lt_or_ge a (writerAddr s) with hlt | hge
  · exact w.before a hlt
  · refine w.after a ?_
    unfold writerAddr streamByte at ha hge
    unfold streamByte
    omega

/-- Settles O33: one bit of `bwWriteBits_spec`. -/
theorem bwWriteBitAppends : Obligations.BwWriteBitAppends := by
  intro s b
  refine ⟨fun hclosed => raises_of_writer_closed hclosed rfl, fun hopen h0 hout => ?beyond, fun hopen hw hfit => ?ends⟩
  case beyond => exact raises_of_body ((require_bind_pos hopen _).trans (bwWriteBit_over b h0 hout)) rfl rfl
  case ends =>
    obtain ⟨t, ht, w⟩ := bwWriteBits_spec (bs := [b]) hw (hw.next_fits hfit)
    exact ⟨t, exec_ok ((bwWriteBit_body b hopen).trans ht), w.ok, w.total, w.old, w.new 0 (by simp),
      fun a ha => w.outAt_single ha, w.only⟩

theorem getElem_codeBits (s : State) (sym : Byte) {i : Nat} (h : i < (codeBits s sym).length) :
    (codeBits s sym)[i] = (s.codeValAt sym).getLsbD ((s.codeLenAt sym).toNat - 1 - i) := by
  simp [codeBits]

/-- Settles O34: the bits of the code by `bwWriteBits_spec`, or `bwWriteBits_over` where they do not fit. -/
theorem bwWriteCodeAppendsTheCode : Obligations.BwWriteCodeAppendsTheCode := by
  intro s sym
  refine ⟨fun hclosed => raises_of_writer_closed hclosed rfl, fun hopen hcode => ?noTable,
    fun hopen hcode hlen => ?noCode, fun hopen hcode hlen hw => ⟨fun hbeyond => ?beyond, fun hfit => ?ends⟩⟩
  case noTable =>
    exact raises_of_body ((require_bind_pos hopen _).trans (require_bind_neg (by simp [hcode]) _)) rfl rfl
  case noCode =>
    exact raises_of_body ((require_bind_pos hopen _).trans ((require_bind_pos hcode _).trans
      (require_bind_neg (not_not.mpr hlen) _))) rfl rfl
  case beyond =>
    rw [← length_codeBits] at hbeyond
    exact raises_of_body ((bwWriteCode_body hopen hcode hlen).trans (bwWriteBits_over hw hbeyond)) rfl rfl
  case ends =>
    rw [← length_codeBits] at hfit
    obtain ⟨t, ht, w⟩ := bwWriteBits_spec hw hfit
    have horg : t.bwOrg = s.bwOrg := by rw [show t = _ from w.only]
    refine ⟨t, exec_ok ((bwWriteCode_body hopen hcode hlen).trans ht), w.ok, ?total, w.old, fun i hi => ?new,
      fun a ha => ?out, w.only⟩
    case total => rw [w.total, length_codeBits]
    case new =>
      rw [← length_codeBits] at hi
      rw [w.new i hi, getElem_codeBits]
    case out =>
      rcases ha with hlt | hge
      · exact w.before a hlt
      · exact w.after a (by rwa [writerAddr, horg] at hge)

end Sys2Proof.Machine
end

section
/-! SUPPORT. Register writes (R29, R71), the IN and OUT windows (R72 to R75), and the commands whose streams lie in them:
BW_FINISH (R184, R188) and BR_READ_BIT (R192, R193). -/

namespace Sys2Proof.Machine

/-! ## Register writes -/

/-- The offsets of the registers a write can reach (R22). -/
theorem regAt_written_iff {off : Nat} (hlt : off < 0x100) (hmod : off % 4 = 0) :
    (regAt (off / 4) = .ctrl ↔ off = 0x04) ∧ (regAt (off / 4) = .status ↔ off = 0x08) ∧
    (regAt (off / 4) = .cmd ↔ off = 0x0C) ∧ (regAt (off / 4) = .inLen ↔ off = 0x18) ∧
    (regAt (off / 4) = .bwBase ↔ off = 0x28) ∧ (regAt (off / 4) = .brBase ↔ off = 0x2C) ∧
    (regAt (off / 4) = .brLimit ↔ off = 0x30) := by
  have key : ∀ k < 64,
      (regAt k = .ctrl ↔ 4 * k = 0x04) ∧ (regAt k = .status ↔ 4 * k = 0x08) ∧ (regAt k = .cmd ↔ 4 * k = 0x0C) ∧
      (regAt k = .inLen ↔ 4 * k = 0x18) ∧ (regAt k = .bwBase ↔ 4 * k = 0x28) ∧
      (regAt k = .brBase ↔ 4 * k = 0x2C) ∧ (regAt k = .brLimit ↔ 4 * k = 0x30) := by decide
  have hoff : 4 * (off / 4) = off := by omega
  simpa only [hoff] using key (off / 4) (by omega)

theorem busy_iff_not_idle {s : State} : s.busy = true ↔ ¬ s.seq = .idle := by
  cases h : s.seq <;> simp [State.busy, h]

/-- A 1 in bit 1 of a write to STATUS clears DONE while idle, a 1 in bit 3 clears OVR (R33). -/
theorem writeStatus_eq (v : Word) (s : State) : writeStatus v s = { s with
    done := if v.getLsbD 1 = true ∧ s.seq = .idle then false else s.done
    ovr := if v.getLsbD 3 = true then false else s.ovr } := by
  have hdone : (s.done && !(v.getLsbD 1 && !s.busy)) =
      if v.getLsbD 1 = true ∧ s.seq = .idle then false else s.done := by
    cases v.getLsbD 1 <;> cases hseq : s.seq <;> simp [State.busy, hseq]
  have hovr : (s.ovr && !v.getLsbD 3) = if v.getLsbD 3 = true then false else s.ovr := by
    cases v.getLsbD 3 <;> simp
  rw [writeStatus, hdone, hovr]

/-- A write to any register but CMD, as one table of the fields a write can change (R71). -/
theorem writeReg_eq {r : Reg} (hr : r ≠ .cmd) (v : Word) (s : State) : writeReg r v s = { s with
    ie := if r = .ctrl then v.getLsbD 0 else s.ie
    done := if r = .status ∧ v.getLsbD 1 = true ∧ s.seq = .idle then false else s.done
    ovr := if r = .status ∧ v.getLsbD 3 = true then false else s.ovr
    inLen := if r = .inLen ∧ s.seq = .idle then v else s.inLen
    bwBase := if r = .bwBase ∧ s.seq = .idle then v else s.bwBase
    brBase := if r = .brBase ∧ s.seq = .idle then v else s.brBase
    brLimit := if r = .brLimit ∧ s.seq = .idle then v else s.brLimit } := by
  cases r
  case cmd => exact absurd rfl hr
  case status => simp [writeReg, writeStatus_eq]
  case inLen | bwBase | brBase | brLimit => by_cases hidle : s.seq = .idle <;> simp [writeReg, busy_iff_not_idle, hidle]
  all_goals simp [writeReg]

/-- Settles O11: CMD by its own rule, the other registers by the table of `writeReg_eq`, read by offset. -/
theorem registerWrites : Obligations.RegisterWrites := by
  intro s off v rest ha hlt hmod
  refine ⟨fun hoff => ?register, ?accepted, ?dropped⟩
  case register =>
    obtain ⟨hctrl, hstatus, hcmd, hinLen, hbwBase, hbrBase, hbrLimit⟩ := regAt_written_iff hlt hmod
    rw [step_regWrite ha hlt hmod, writeReg_eq (mt hcmd.mp hoff)]
    simp only [hctrl, hstatus, hinLen, hbwBase, hbrBase, hbrLimit]
  case accepted => rintro rfl hidle; exact (commandWriteIsAcceptedOrDropped s v rest ha).1 hidle
  case dropped => rintro rfl hexec; exact (commandWriteIsAcceptedOrDropped s v rest ha).2 hexec

/-! ## The windows -/

theorem inWrite_idle {s : State} (h : s.seq = .idle) (a : Nat) (b : Byte) : inWrite a b s = putIn a b s := by
  simp [inWrite, busy_of_idle h]

theorem inWrite_busy {s : State} (h : s.seq = .exec) (a : Nat) (b : Byte) : inWrite a b s = s := by
  simp [inWrite, busy_of_exec h]

theorem inRead_idle {s : State} (h : s.seq = .idle) (a : Nat) : inRead a s = respond (.byte (s.inAt a)) s := by
  simp [inRead, busy_of_idle h]

theorem inRead_busy {s : State} (h : s.seq = .exec) (a : Nat) : inRead a s = respondFreeByte s := by
  simp [inRead, busy_of_exec h]

theorem outRead_idle {s : State} (h : s.seq = .idle) (a : Nat) : outRead a s = respond (.byte (s.outAt a)) s := by
  simp [outRead, busy_of_idle h]

theorem outRead_busy {s : State} (h : s.seq = .exec) (a : Nat) : outRead a s = respondFreeByte s := by
  simp [outRead, busy_of_exec h]

section
variable {s : State} {a : Nat} {b : Byte} {rest : List Move}

theorem step_inWrite (ha : s.agenda = .host (.inWrite a b) :: rest) (hcap : a < s.params.inCap) :
    step s = .next (inWrite a b { s with agenda := rest }) :=
  (step_host ha).trans (if_pos hcap)

theorem step_inRead (ha : s.agenda = .host (.inRead a) :: rest) (hcap : a < s.params.inCap) :
    step s = .next (inRead a { s with agenda := rest }) :=
  (step_host ha).trans (if_pos hcap)

theorem step_outRead (ha : s.agenda = .host (.outRead a) :: rest) (hcap : a < s.params.outCap) :
    step s = .next (outRead a { s with agenda := rest }) :=
  (step_host ha).trans (if_pos hcap)

end

/-- Settles O12: the write is `putIn` while idle, and nothing while busy. -/
theorem inWriteStoresOneByteWhileIdle : Obligations.InWriteStoresOneByteWhileIdle := by
  intro s a b rest ha hcap
  rw [step_inWrite ha hcap]
  refine ⟨fun hidle => ?stored, fun hexec => ?ignored⟩
  case stored =>
    rw [inWrite_idle (by exact hidle)]
    exact ⟨_, rfl, inAt_putIn_same .., fun x hx => inAt_putIn_other hx .., rfl⟩
  case ignored => rw [inWrite_busy (by exact hexec)]

/-- Settles O13: a window read is the response alone; a busy one is a draw. -/
theorem windowReadsAndOutWrites : Obligations.WindowReadsAndOutWrites := by
  intro s a b rest
  refine ⟨fun ha hcap => ?inWindow, fun ha hcap => ?outWindow, fun ha hcap => (step_host ha).trans (if_pos hcap)⟩
  case inWindow =>
    rw [step_inRead ha hcap]
    refine ⟨fun hidle => ?_, fun hexec => ?_⟩
    · rw [inRead_idle (by exact hidle)]; rfl
    · rw [inRead_busy (by exact hexec)]; exact ⟨_, _, rfl⟩
  case outWindow =>
    rw [step_outRead ha hcap]
    refine ⟨fun hidle => ?_, fun hexec => ?_⟩
    · rw [outRead_idle (by exact hidle)]; rfl
    · rw [outRead_busy (by exact hexec)]; exact ⟨_, _, rfl⟩

/-! ## BW_FINISH -/

/-- BW_ACC after `bw_finish()`: with no partial byte the open writer held no bit in it (R51). -/
theorem WriterOk.bwFinish_bwAcc {s : State} (hw : WriterOk s) : (bwFinish s).bwAcc = 0 := by
  unfold bwFinish
  split
  case isTrue => rfl
  case isFalse hwhole =>
    refine BitVec.eq_of_getLsbD_eq fun i hi => ?_
    exact (hw.clear i (by omega)).trans BitVec.getLsbD_zero.symm

theorem lastByteValid_zero : lastByteValid 0 = 0 := rfl

theorem lastBytePad_zero : lastBytePad 0 = 0 := rfl

/-- The valid bits of the last byte and the padding make it whole (R188). -/
theorem lastByteValid_add_lastBytePad {total : Nat} (h : total ≠ 0) : lastByteValid total + lastBytePad total = 8 := by
  unfold lastByteValid lastBytePad
  split
  · omega
  · rfl

theorem lastByteValid_le (total : Nat) : lastByteValid total ≤ 8 := by
  unfold lastByteValid
  split
  · omega
  · split <;> decide

theorem lastBytePad_le (total : Nat) : lastBytePad total ≤ 7 := by
  unfold lastBytePad
  split <;> omega

/-- The padding rounds the stream up to whole bytes (R188). -/
theorem ceilDiv8_eq_add_lastBytePad (total : Nat) : 8 * ceilDiv8 total = total + lastBytePad total := by
  unfold ceilDiv8 lastBytePad
  split <;> omega

/-- The end of the stream is an address of OUT, so OUT_LEN holds it (R7, R51). -/
theorem WriterOk.toNat_end {s : State} (hw : WriterOk s) :
    (BitVec.ofNat 32 (s.bwOrg.toNat + ceilDiv8 s.bwTotal.toNat)).toNat = s.bwOrg.toNat + ceilDiv8 s.bwTotal.toNat := by
  have hcap := s.params.bounded.2.2
  have hfits := hw.fits
  rw [BitVec.toNat_ofNat]
  omega

/-- The state BW_FINISH ends in (R184). -/
def finished (s : State) : State :=
  setRes [BitVec.ofNat 32 (lastByteValid s.bwTotal.toNat), BitVec.ofNat 32 (lastBytePad s.bwTotal.toNat)]
    { bwFinish s with
      bitCount := s.bwTotal, outLen := BitVec.ofNat 32 (s.bwOrg.toNat + ceilDiv8 s.bwTotal.toNat) }

theorem bwFinish_body {s : State} (hopen : s.bwOpen = true) : bodyOf .bwFinish s = .ok (finished s) :=
  require_bind_pos hopen _

theorem finished_outAt (s : State) : (finished s).outAt = (bwFinish s).outAt := outAt_congr rfl

theorem toNat_finished_res (s : State) : (finished s).res[0].toNat = lastByteValid s.bwTotal.toNat ∧
    (finished s).res[1].toNat = lastBytePad s.bwTotal.toNat := by
  have hvalid := lastByteValid_le s.bwTotal.toNat
  have hpad := lastBytePad_le s.bwTotal.toNat
  simp only [finished, setRes_res, Vector.getElem_ofFn, List.getD_cons_zero, List.getD_cons_succ, BitVec.toNat_ofNat]
  omega

/-- What BW_FINISH leaves as it was, while a writer is open (R184). -/
theorem WriterOk.finished_frame {s : State} (hw : WriterOk s) : finished s = { s with
    outBuf := (finished s).outBuf, bwAcc := 0, bwOpen := false, bitCount := (finished s).bitCount
    outLen := (finished s).outLen, res := (finished s).res } := by
  rw [finished, bwFinish_eq, hw.bwFinish_bwAcc]
  rfl

/-- Settles O35: the bits by `outStreamBit_bwFinish`, RES by the arithmetic of the last byte. -/
theorem bwFinishPadsTheLastByte : Obligations.BwFinishPadsTheLastByte := by
  intro s
  refine ⟨fun hclosed => raises_of_writer_closed hclosed rfl, fun hopen hw => ⟨finished s, exec_ok (bwFinish_body hopen),
    fun k hk => ?bits, fun a ha => ?bytes, rfl, hw.toNat_end, fun hzero => ?empty, fun hne => ?lastByte,
    fun k hk hk2 => setRes_zero _ _ k hk hk2, hw.finished_frame⟩⟩
  case bits => rw [outStreamBit, finished_outAt]; exact outStreamBit_bwFinish hw k hk
  case bytes => rw [finished_outAt]; exact outAt_bwFinish_other fun hpartial heq => ha ⟨hpartial, heq⟩
  case empty => simp [finished, hzero, lastByteValid_zero, lastBytePad_zero]
  case lastByte =>
    have hne : s.bwTotal.toNat ≠ 0 := fun h => hne (BitVec.eq_of_toNat_eq h)
    obtain ⟨hvalid, hpad⟩ := toNat_finished_res s
    rw [hvalid, hpad]
    exact ⟨lastByteValid_add_lastBytePad hne, lastBytePad_le _, ceilDiv8_eq_add_lastBytePad _⟩

/-! ## BR_READ_BIT -/

theorem brReadBit_body {s : State} (hopen : s.brOpen = true) :
    bodyOf .brReadBit s = (brReadBit s >>= fun p => .ok (setRes [(BitVec.ofBool p.1).setWidth 32] p.2)) :=
  require_bind_pos hopen _

/-- Settles O37: the read of one bit, `brReadBit_ok`, or `brReadBit_end` at the end of the stream. -/
theorem brReadBitReturnsTheNextBit : Obligations.BrReadBitReturnsTheNextBit := by
  intro s
  refine ⟨fun hclosed => ?closed, fun hopen hend => ?ended, fun hopen hlt => ?reads⟩
  case closed => exact raises_of_body (require_bind_neg (by simp [hclosed]) _) rfl rfl
  case ended =>
    refine raises_of_body (c := .endOfStream) ?_ rfl rfl
    rw [brReadBit_body hopen, brReadBit_end hend, error_bind]
  case reads =>
    have hbody := brReadBit_body hopen
    rw [brReadBit_ok hlt, ok_bind] at hbody
    refine ⟨_, exec_ok hbody, brPos_succ hlt, ?bit, fun k hk hk1 => setRes_zero _ _ k hk hk1, rfl⟩
    case bit =>
      simp only [setRes_res, Vector.getElem_ofFn, List.getD_cons_zero]
      rw [BitVec.toNat_setWidth_of_le (by decide), BitVec.toNat_ofBool]
      rfl

end Sys2Proof.Machine
end

section
/-! SUPPORT. The command words (rules R101 to R105): the word and its three fields determine each other, the selector
and the encoder's tables are one opcode map, and so every command has exactly one word. -/

namespace Sys2Proof

/-! ## The fields of a word (R101) -/

theorem Cmd.ofWord_toWord (c : Cmd) : Cmd.ofWord c.toWord = c := by
  obtain ⟨rsv, arg, opc⟩ := c
  simp only [Cmd.ofWord, Cmd.toWord, Cmd.mk.injEq]
  refine ⟨?rsv, ?arg, BitVec.extractLsb'_append_eq_right⟩
  all_goals
    ext k hk
    simp only [BitVec.getElem_extractLsb', BitVec.getLsbD_append]
    grind

theorem Cmd.toWord_ofWord (w : Word) : (Cmd.ofWord w).toWord = w := by
  rw [Cmd.toWord, Cmd.ofWord, BitVec.extractLsb'_append_extractLsb'_eq_extractLsb' (by decide),
    BitVec.extractLsb'_append_extractLsb'_eq_extractLsb' (by decide)]
  exact BitVec.extractLsb'_eq_self

theorem Cmd.ofWord_eq_iff {w : Word} {c : Cmd} : Cmd.ofWord w = c ↔ w = c.toWord :=
  ⟨fun h => h ▸ (Cmd.toWord_ofWord w).symm, fun h => h ▸ Cmd.ofWord_toWord c⟩

theorem Cmd.ofWord_opc (w : Word) : (Cmd.ofWord w).opc = BitVec.ofNat 8 w.toNat := by
  simp [Cmd.ofWord, ← BitVec.toNat_inj]

theorem Cmd.ofWord_arg (w : Word) : (Cmd.ofWord w).arg = BitVec.ofNat 16 (w.toNat / 0x100) := by
  simp [Cmd.ofWord, ← BitVec.toNat_inj, Nat.shiftRight_eq_div_pow]

theorem Cmd.ofWord_rsv_eq_zero_iff (w : Word) : (Cmd.ofWord w).rsv = 0 ↔ w.toNat / 0x1000000 = 0 := by
  have hrsv : (Cmd.ofWord w).rsv.toNat = w.toNat / 0x1000000 % 256 := by
    simp [Cmd.ofWord, Nat.shiftRight_eq_div_pow]
  have hw := w.isLt
  rw [← BitVec.toNat_inj, hrsv, show (0 : BitVec 8).toNat = 0 from rfl]
  omega

/-- The word of a command, as rule R101 composes it. -/
theorem encode_eq_or (i : Instr) : encode i = (opcodeOf i).setWidth 32 ||| (argOf i).setWidth 32 <<< 8 := by
  ext k hk
  simp only [encode, Cmd.toWord, BitVec.getElem_or, BitVec.getElem_setWidth, BitVec.getElem_shiftLeft]
  grind

/-! ## Operands (R102) -/

section
variable {n : Nat}

/-- A field of `n` bits has no bit above them. -/
theorem setWidth_and_not_mask (x : BitVec n) : x.setWidth 16 &&& ~~~((BitVec.allOnes n).setWidth 16) = 0 := by
  ext k hk
  simp only [BitVec.getElem_and, BitVec.getElem_not, BitVec.getElem_setWidth, BitVec.getLsbD_allOnes]
  grind

theorem extractLsb'_setWidth (hn : n ≤ 16) (x : BitVec n) : (x.setWidth 16).extractLsb' 0 n = x := by
  ext k hk
  simp only [BitVec.getElem_extractLsb', BitVec.getLsbD_setWidth]
  grind

theorem setWidth_extractLsb' (arg : BitVec 16) :
    (arg.extractLsb' 0 n).setWidth 16 = arg &&& (BitVec.allOnes n).setWidth 16 := by
  ext k hk
  simp only [BitVec.getElem_and, BitVec.getElem_setWidth, BitVec.getLsbD_extractLsb', BitVec.getLsbD_allOnes]
  grind

end

theorem ofBool_getLsbD_zero (arg : BitVec 16) : BitVec.ofBool (arg.getLsbD 0) = arg.extractLsb' 0 1 := by
  ext k hk
  obtain rfl : k = 0 := by omega
  simp

/-- The operand of a command has only the ARG bits the command uses. -/
theorem argOf_and_not_argMask (i : Instr) : argOf i &&& ~~~(argMask i) = 0 := by
  cases i with
  | tblRead sym | bwWriteCode sym | nodeRead sym => exact setWidth_and_not_mask sym
  | bwWriteBit b => exact setWidth_and_not_mask (BitVec.ofBool b)
  | nop | clear | freqBuild | treeBuild | codeGen | bwInit | bwFinish | brInit | brReadBit | brDecodeSym | compress
  | decompress => exact BitVec.zero_and

/-! ## The opcode map (R103) -/

theorem selectCommand_opcodeOf_argOf (i : Instr) : selectCommand (opcodeOf i) (argOf i) = some i := by
  cases i with
  | tblRead sym => exact congrArg (some ∘ Instr.tblRead) (extractLsb'_setWidth (by decide) sym)
  | bwWriteCode sym => exact congrArg (some ∘ Instr.bwWriteCode) (extractLsb'_setWidth (by decide) sym)
  | nodeRead h => exact congrArg (some ∘ Instr.nodeRead) (extractLsb'_setWidth (by decide) h)
  | bwWriteBit b => cases b <;> rfl
  | nop | clear | freqBuild | treeBuild | codeGen | bwInit | bwFinish | brInit | brReadBit | brDecodeSym | compress
  | decompress => rfl

/-- The command the selector finds has the word's opcode, and as its operand the ARG bits it uses. -/
theorem fields_of_selectCommand {opc : BitVec 8} {arg : BitVec 16} {i : Instr} (h : selectCommand opc arg = some i) :
    opcodeOf i = opc ∧ argOf i = arg &&& argMask i := by
  unfold selectCommand at h
  split at h
  case h_17 => cases h
  all_goals
    rename_i hopc
    obtain rfl := Option.some.inj h
    refine ⟨BitVec.eq_of_toNat_eq hopc.symm, ?_⟩
  case h_3 | h_10 | h_4 => exact setWidth_extractLsb' arg
  case h_9 => exact (congrArg _ (ofBool_getLsbD_zero arg)).trans (setWidth_extractLsb' arg)
  all_goals exact BitVec.and_zero.symm

/-- The selector knows exactly the opcodes of rule R103. -/
theorem selectCommand_eq_none_iff {c : Cmd} : selectCommand c.opc c.arg = none ↔ c.opcodeOk = false := by
  unfold selectCommand
  split
  case h_17 => simp_all [Cmd.opcodeOk, Cmd.legalOpcodes, ← BitVec.toNat_inj]
  all_goals
    rename_i hopc
    simp [Cmd.opcodeOk, Cmd.legalOpcodes, ← BitVec.toNat_inj, hopc]

/-- The mask of the rule's table is the decoder's. -/
theorem usedArgBits_of_selectCommand {opc : BitVec 8} {arg : BitVec 16} {i : Instr}
    (h : selectCommand opc arg = some i) : Cmd.usedArgBits opc = argMask i := by
  rw [← (fields_of_selectCommand h).1]
  cases i <;> rfl

/-! ## The decoder (R104) -/

/-- RSV is not 0, or a bit of ARG the command does not use: the second test of rule R104. -/
def Cmd.Strays (c : Cmd) : Prop := c.rsv ≠ 0 ∨ c.arg &&& ~~~(Cmd.usedArgBits c.opc) ≠ 0

theorem Cmd.wellFormed_iff {c : Cmd} : c.wellFormed = true ↔ c.opcodeOk = true ∧ ¬ c.Strays := by
  simp [Cmd.wellFormed, Cmd.reservedOk, Cmd.argOk, Cmd.Strays, and_assoc]

theorem and_mask_of_and_not_mask {x m : BitVec 16} (h : x &&& ~~~m = 0) : x &&& m = x := by
  ext k hk
  have hbit := congrArg (fun y => y.getLsbD k) h
  simp only [BitVec.getLsbD_and, BitVec.getLsbD_not] at hbit
  grind

/-- A command whose second test passes is the encoder's. -/
theorem eq_fields_of_selectCommand {c : Cmd} {i : Instr} (hsel : selectCommand c.opc c.arg = some i)
    (hbits : ¬ c.Strays) : c = { rsv := 0, arg := argOf i, opc := opcodeOf i } := by
  obtain ⟨hopc, harg⟩ := fields_of_selectCommand hsel
  rw [Cmd.Strays, usedArgBits_of_selectCommand hsel, not_or, not_not, not_not] at hbits
  obtain ⟨hrsv, hzero⟩ := hbits
  rw [hopc, harg, and_mask_of_and_not_mask hzero, ← hrsv]

/-- Everything the decoder can do, in the order of its tests. -/
theorem decodeCmd_cases (c : Cmd) :
    (c.opcodeOk = false ∧ decodeCmd c = .error .badOpcode) ∨
    (c.opcodeOk = true ∧ c.Strays ∧ decodeCmd c = .error .reservedBits) ∨
    (c.opcodeOk = true ∧ ¬ c.Strays ∧
      ∃ i, c = { rsv := 0, arg := argOf i, opc := opcodeOf i } ∧ decodeCmd c = .ok i) := by
  cases hsel : selectCommand c.opc c.arg with
  | none => exact .inl ⟨selectCommand_eq_none_iff.mp hsel, by simp only [decodeCmd, hsel]⟩
  | some i =>
    have hopc : c.opcodeOk = true := by
      by_contra hno
      rw [selectCommand_eq_none_iff.mpr (Bool.eq_false_of_not_eq_true hno)] at hsel
      cases hsel
    have hmask := usedArgBits_of_selectCommand hsel
    by_cases hbits : c.Strays
    · refine .inr (.inl ⟨hopc, hbits, ?_⟩)
      rw [Cmd.Strays, hmask] at hbits
      simp only [decodeCmd, hsel, if_pos hbits]
    · refine .inr (.inr ⟨hopc, hbits, i, eq_fields_of_selectCommand hsel hbits, ?_⟩)
      rw [Cmd.Strays, hmask] at hbits
      simp only [decodeCmd, hsel, if_neg hbits]

theorem decodeCmd_eq_ok_iff {c : Cmd} {i : Instr} :
    decodeCmd c = .ok i ↔ c = { rsv := 0, arg := argOf i, opc := opcodeOf i } := by
  constructor
  · intro h
    rcases decodeCmd_cases c with ⟨-, hc⟩ | ⟨-, -, hc⟩ | ⟨-, -, j, hfields, hc⟩
    · cases hc.symm.trans h
    · cases hc.symm.trans h
    · obtain rfl : j = i := Except.ok.inj (hc.symm.trans h)
      exact hfields
  · rintro rfl
    simp [decodeCmd, selectCommand_opcodeOf_argOf, argOf_and_not_argMask]

/-- Settles O3: the word and its three fields determine each other, and the decoder accepts exactly the fields the
encoder gives. -/
theorem decodeAndEncodeAgree : Obligations.DecodeAndEncodeAgree := by
  intro w i
  rw [decode, decodeCmd_eq_ok_iff, Cmd.ofWord_eq_iff, encode]

theorem opc_mem_of_decode_ok {w : Word} {i : Instr} (h : decode w = .ok i) :
    (Cmd.ofWord w).opc ∈ Cmd.legalOpcodes := by
  rcases decodeCmd_cases (Cmd.ofWord w) with ⟨-, hc⟩ | ⟨-, -, hc⟩ | ⟨hopc, -⟩
  · cases hc.symm.trans h
  · cases hc.symm.trans h
  · exact List.contains_iff_mem.mp hopc

/-- A word with an operand, as rule R101 composes it, decodes to its command. -/
theorem decode_of_fields {w : Word} {i : Instr}
    (h : w = (opcodeOf i).setWidth 32 ||| (argOf i).setWidth 32 <<< 8) : decode w = .ok i :=
  (decodeAndEncodeAgree w i).mpr (h.trans (encode_eq_or i).symm)

/-- Settles O2: every word listed has the fields of its command (O3), and no other OPC passes the first test. -/
theorem opcodeMap : Obligations.OpcodeMap := by
  refine ⟨rfl, rfl, fun sym => ?tblRead, fun h => ?nodeRead, rfl, rfl, rfl, rfl, rfl, rfl, fun sym => ?bwWriteCode,
    rfl, rfl, rfl, rfl, rfl, rfl, fun w hother i h => hother ?legal⟩
  case tblRead | nodeRead | bwWriteCode => exact decode_of_fields (by simp [opcodeOf, argOf])
  case legal =>
    have hmem := List.mem_map_of_mem (f := BitVec.toNat) (opc_mem_of_decode_ok h)
    rwa [Cmd.ofWord_opc, BitVec.toNat_ofNat] at hmem

/-- Settles O4: the three outcomes of `decodeCmd_cases`, of which each excludes the other two. -/
theorem decoderRejectsByTheFirstFailingTest : Obligations.DecoderRejectsByTheFirstFailingTest := by
  intro w
  rw [← Cmd.ofWord_arg, ← Cmd.ofWord_opc, ne_eq, ← Cmd.ofWord_rsv_eq_zero_iff, Cmd.wellFormed_iff, decode]
  change _ ∧ _ ∧ (_ ↔ _ ∧ (Cmd.ofWord w).Strays)
  rcases decodeCmd_cases (Cmd.ofWord w) with ⟨hopc, h⟩ | ⟨hopc, hbits, h⟩ | ⟨hopc, hbits, i, -, h⟩
  · simp [h, hopc]
  · simp [h, hopc, hbits]
  · simp [h, hopc, hbits]

/-- Settles O1 by running the decoder. -/
theorem someWordsDecode : Obligations.SomeWordsDecode := by
  unfold Obligations.SomeWordsDecode
  decide

end Sys2Proof
end

section
/-! SUPPORT. COMPRESS in full: the container of the empty input, and for any other the tables of the input and the
container of rule R110 (rules R110, R111, R116, R213 to R216). -/

namespace Sys2Proof.Machine

/-! ## The empty input -/

/-- The counting pass over no byte: every counter is 0, and FREQ is valid (R142). -/
theorem counted_empty {s : State} (h : s.inLen = 0) :
    counted s = { clearDerived s with freq := Vector.replicate 256 0, freqValid := true } := by
  have hbytes : inBytes (clearDerived s) (clearDerived s).inLen.toNat = [] := by simp [inBytes, h]
  have hcount : symbolCount (countBytes []) = 0 := by
    rw [symbolCount, countBytes, List.foldl_nil, Vector.toList_replicate, List.countP_replicate]
    rfl
  rw [counted, freqBuild, hbytes, hcount]
  rfl

/-- Settles O39: the counting pass over no byte, then the two bytes by `outAt_putOutBytes`. -/
theorem compressOfTheEmptyInput : Obligations.CompressOfTheEmptyInput := by
  intro s h0
  have hfit : s.inLen.toNat ≤ s.params.inCap := by simp [h0]
  have hbyte : ∀ i (hi : i < 2), (putOutBytes 0 [0x01, 0x01] (counted s)).outAt i = ([0x01, 0x01] : List Byte)[i] :=
    fun i hi => by rw [← outAt_putOutBytes 0 [0x01, 0x01] (counted s) hi, Nat.zero_add]
  refine ⟨_, clearDerived s, exec_ok (compress_empty hfit h0), rfl, rfl, hbyte 0 (by decide), hbyte 1 (by decide),
    fun sym => ?counts, ?frame⟩
  case counts => simp [counted_empty h0, State.freqAt]
  case frame => rw [counted_empty h0, putOutBytes_eq]

/-! ## A non-empty input -/

section
variable {s t : State} {l : SymFreqs} {bits : List Bool}

/-- The payload's length fits the registers that hold it (R7, R40). -/
theorem Compressed.bits_lt (h : Compressed l bits s t) : bits.length < 2 ^ 32 := by
  have hcap := s.params.bounded.2.2
  have hsmall := h.small
  unfold ceilDiv8 at hsmall
  omega

theorem Compressed.bitCount_toNat (h : Compressed l bits s t) : t.bitCount.toNat = bits.length := by
  rw [h.fields, BitVec.toNat_ofNat]
  exact Nat.mod_eq_of_lt h.bits_lt

theorem Compressed.bwTotal_toNat (h : Compressed l bits s t) : t.bwTotal.toNat = bits.length := by
  rw [h.fields, BitVec.toNat_ofNat]
  exact Nat.mod_eq_of_lt h.bits_lt

theorem Compressed.outHas_header (h : Compressed l bits s t) : outHas t 0 (headerBytes l bits.length) :=
  fun i hi => by rw [Nat.zero_add, h.header i hi]

end

section
variable {s t : State} {bits : List Bool} (hc : Compressed (inputList s) bits (tablesOf s) t)
include hc

theorem Compressed.freq_eq : t.freq = (freqBuild s).freq := by rw [hc.fields]; rfl

theorem Compressed.symCount_toNat : t.symCount.toNat = (inputList s).length := by
  rw [inputList, length_presentSymbols, ← symbolCount_toNat, hc.fields]
  rfl

theorem Compressed.listsPresent : listsPresent (inputList s) t := by
  have hlist : inputList s = presentSymbols t.freq := by rw [hc.freq_eq]; rfl
  rw [hlist]
  exact listsPresent_presentSymbols t

theorem Compressed.merged (hne : s.inLen ≠ 0) : MergedFrom (inputList s) t := by
  refine (treeBuild_merged (inputList_good hne) (counted s)).congr (nodeAt_congr ?_) ?_ ?_ <;> rw [hc.fields] <;> rfl

theorem Compressed.codeEntryOk (hne : s.inLen ≠ 0) (sym : Byte) : codeEntryOk t sym := by
  obtain ⟨k, -, hcode⟩ := codedTree_tablesOf hne
  refine codeEntryOk_congr ?_ ?_ ?_ ?_ (hcode sym) <;> rw [hc.fields]

theorem Compressed.payloadBits_eq :
    (List.range s.inLen.toNat).flatMap (fun i => codeBits t (s.inAt i)) = payloadBits (tablesOf s) s := by
  have hcodes : codeBits t = codeBits (tablesOf s) := by rw [hc.fields]; exact codeBits_congr rfl rfl
  rw [payloadBits, inBytes, List.flatMap_map, hcodes]

end

/-- Settles O40: the state of `Compressed`, with the tables of the input and the container of its list and payload. -/
theorem compressWritesTheContainer : Obligations.CompressWritesTheContainer := by
  intro s hne hin hout
  obtain ⟨t, ht, hc⟩ := compress_ok hne hin hout
  change Compressed _ (payloadBits (tablesOf s) s) (tablesOf s) t at hc
  refine ⟨t, clearDerived s, inputList s, exec_ok ht, rfl, fun sym => ?counts, hc.listsPresent, hc.merged hne,
    hc.codeEntryOk hne, fun bits hbits => ?container, ?frame⟩
  case counts =>
    rw [State.freqAt]
    simp only [hc.freq_eq]
    exact (freqAt_freqBuild s sym).trans (count_inBytes s _ sym)
  case container =>
    rw [hc.payloadBits_eq] at hbits
    subst hbits
    obtain ⟨hversion, hflags, hsymbols, hentries, hlength⟩ :=
      header_out (inputList_good hne).small hc.bits_lt hc.outHas_header
    exact ⟨hc.symCount_toNat, hc.bitCount_toNat, hc.bwTotal_toNat, hc.outLen_toNat, hversion, hflags, hsymbols,
      hentries, hlength, hc.payload⟩
  case frame =>
    rw [hc.fields]
    rfl

end Sys2Proof.Machine
end

section
/-! SUPPORT. TREE_BUILD in full: its list, its two errors in order, and the merge (rules R151 to R156, R160). -/

namespace Sys2Proof.Machine

/-- The list of R151 is empty exactly if every counter is 0. -/
theorem presentSymbols_eq_nil_iff {s : State} : presentSymbols s.freq = [] ↔ ∀ sym, s.freqAt sym = 0 := by
  rw [List.eq_nil_iff_forall_not_mem]
  constructor
  · intro h sym
    by_contra hne
    exact h (sym, s.freqAt sym) (mem_presentSymbols.mpr ⟨hne, rfl⟩)
  · intro h e he
    obtain ⟨hne, hcount⟩ := mem_presentSymbols.mp he
    exact hne (hcount.symm.trans (h e.1))

/-- TREE_BUILD ends where a symbol is present (R151). -/
theorem treeBuild_body {s : State} (hv : s.freqValid = true) (hne : presentSymbols s.freq ≠ []) :
    bodyOf .treeBuild s = .ok (dropCode (treeBuild (presentSymbols s.freq) s)) :=
  (require_bind_pos hv _).trans (require_bind_pos hne _)

/-- Settles O27: the only list of the present symbols is the machine's (`listsPresent_unique`), and `treeBuild_merged` and
`treeBuild_rootWeight` say what `tree_build` makes of it. -/
theorem treeBuildMerges : Obligations.TreeBuildMerges := by
  intro s
  refine ⟨fun hv => ?notValid, fun hv hzero => ?empty, fun hv hpresent => ?builds⟩
  case notValid => exact raises_of_body (require_bind_neg (by simp [hv]) _) rfl rfl
  case empty =>
    have hnil : presentSymbols s.freq = [] := presentSymbols_eq_nil_iff.mpr hzero
    exact raises_of_body ((require_bind_pos hv _).trans (require_bind_neg (not_not.mpr hnil) _)) rfl rfl
  case builds =>
    have hne : presentSymbols s.freq ≠ [] := fun hnil =>
      hpresent.elim fun sym hsym => hsym (presentSymbols_eq_nil_iff.mp hnil sym)
    refine ⟨_, exec_ok (treeBuild_body hv hne), fun l hl => ?_, rfl⟩
    obtain rfl := listsPresent_unique hl (listsPresent_presentSymbols s)
    have hgood := GoodList.present hne
    exact ⟨(treeBuild_merged hgood s).congr (nodeAt_congr rfl) rfl rfl, treeBuild_rootWeight hgood s⟩

end Sys2Proof.Machine
end

section
/-! SUPPORT. The set of codes of a valid tree: how long a code is, and that any bits long enough follow a path to a leaf
(rules R160, R175). -/

namespace Sys2Proof.Machine

/-! ## The lengths of the codes (R175 (a), (c)) -/

/-- A code is the path to a leaf, at most K - 1 bits long, or the one bit "0" (R171, R173). -/
theorem TreeShape.isCodeOf_length_le {s : State} {k : Nat} (ts : TreeShape s k) {p : List Bool} {sym : Byte}
    (hp : isCodeOf s p sym) : p.length ≤ max 1 (k - 1) := by
  unfold isCodeOf at hp
  split at hp
  case isTrue =>
    obtain ⟨rfl, -⟩ := hp
    exact Nat.le_max_left ..
  case isFalse =>
    obtain ⟨g, hg, -⟩ := hp
    exact (ts.code_length hg).trans (Nat.le_max_right ..)

/-- Settles O30: an entry is 0 exactly where the symbol has no leaf, and holds the length of the symbol's code else. -/
theorem codeLengthsAreBounded : Obligations.CodeLengthsAreBounded := by
  intro s hs hv sym
  have ts := hs.tree (hs.flags.1 hv)
  have hcode := hs.code hv sym
  refine ⟨codeLenAt_ne_zero_iff ts hcode, ?bound⟩
  rcases hcode with ⟨p, hp, hlen, -⟩ | ⟨-, hzero, -⟩
  · exact hlen ▸ ts.isCodeOf_length_le hp
  · simp [hzero]

/-! ## Completeness (R175 (d)) -/

/-- From a node of the arena any bits lead to a leaf, if there are as many as there are internal handles up to the node:
each bit goes to a smaller handle. -/
theorem TreeShape.exists_leaf_on_bits {s : State} {k : Nat} (ts : TreeShape s k) {h : Handle} {bits : List Bool}
    (hlt : h.toNat < 2 * k - 1) (hlen : h.toNat + 1 - k ≤ bits.length) :
    ∃ p g, p <+: bits ∧ leadsTo s h p g ∧ (s.nodeAt g).isLeaf = true := by
  induction bits generalizing h with
  | nil =>
    rw [List.length_nil] at hlen
    exact ⟨[], h, List.nil_prefix, rfl, (ts.leaf h (by omega)).1⟩
  | cons b rest ih =>
    rw [List.length_cons] at hlen
    cases hl : (s.nodeAt h).isLeaf with
    | true => exact ⟨[], h, List.nil_prefix, rfl, hl⟩
    | false =>
      have hchild := ts.child_lt hlt hl b
      obtain ⟨p, g, hp, hg, hleaf⟩ := ih (h := childOf (s.nodeAt h) b) (by omega) (by omega)
      exact ⟨b :: p, g, (List.prefix_cons_inj b).mpr hp, ⟨hl, hg⟩, hleaf⟩

/-- Where ROOT is internal any K - 1 bits start with a code. -/
theorem TreeShape.exists_code_prefix {s : State} {k : Nat} (ts : TreeShape s k) (hk : 1 < k) {bits : List Bool}
    (hlen : k - 1 ≤ bits.length) : ∃ p sym, isCodeOf s p sym ∧ p <+: bits := by
  have hlast := ts.rootLast
  have hroot : (s.nodeAt s.root).isLeaf = false := (ts.internal s.root (by omega) ts.root_lt).1
  obtain ⟨p, g, hp, hg, hleaf⟩ := ts.exists_leaf_on_bits ts.root_lt (bits := bits) (by omega)
  exact ⟨p, (s.nodeAt g).sym, by rw [isCodeOf, if_neg (by simp [hroot])]; exact ⟨g, hg, hleaf, rfl⟩, hp⟩

/-- At most one code starts the same bits (R16): of two codes that do, one starts the other. -/
theorem CodedTree.sym_eq_of_prefixes {s : State} (h : CodedTree s) {sym sym' : Byte} {bits : List Bool}
    (hs : s.codeLenAt sym ≠ 0) (hs' : s.codeLenAt sym' ≠ 0) (hp : codeBits s sym <+: bits)
    (hp' : codeBits s sym' <+: bits) : sym = sym' := by
  by_contra hne
  rcases List.prefix_or_prefix_of_prefix hp hp' with hpre | hpre
  · exact h.prefixFree hs hs' hne hpre
  · exact h.prefixFree hs' hs (Ne.symm hne) hpre

/-- Settles O29: K - 1 is at most 255, so 255 bits follow a path to a leaf, and its symbol's code is that path. -/
theorem codesAreComplete : Obligations.CodesAreComplete := by
  intro s hs hv hk bits hlen
  have ts := hs.tree (hs.flags.1 hv)
  obtain ⟨-, hk256⟩ := ts.leaves
  obtain ⟨p, sym, hcode, hpre⟩ := ts.exists_code_prefix hk (bits := bits) (by omega)
  have hentry : s.codeLenAt sym ≠ 0 :=
    (codeLenAt_ne_zero_iff ts (hs.code hv sym)).mpr ((ts.code_exists_iff sym).mp ⟨p, hcode⟩)
  rw [← codeBits_of_isCodeOf ts (hs.code hv sym) hcode] at hpre
  exact ⟨sym, hentry, hpre, fun sym' hentry' hpre' =>
    (hs.codedTree hv).sym_eq_of_prefixes hentry' hentry hpre' hpre⟩

end Sys2Proof.Machine
end

section
/-! SUPPORT. BW_INIT, BR_INIT and BR_DECODE_SYM in full (rules R181, R187, R191, R194 to R197): the tests in order, and
the state each ends in. -/

namespace Sys2Proof.Machine

/-! ## BR_DECODE_SYM -/

theorem brDecodeSym_body {s : State} (hopen : s.brOpen = true) (htree : s.treeValid = true) :
    bodyOf .brDecodeSym s = (walkSymbol s >>= fun r => .ok (setRes [r.1.setWidth 32, BitVec.ofNat 32 r.2.1] r.2.2)) :=
  (require_bind_pos hopen _).trans (require_bind_pos htree _)

/-- Where the walk raises, so does the command, with the walk's error (R195). -/
theorem brDecodeSym_body_error {s : State} (hopen : s.brOpen = true) (htree : s.treeValid = true) {c : Cause}
    (hwalk : walkSymbol s = .error c) : bodyOf .brDecodeSym s = .error c := by
  rw [brDecodeSym_body hopen htree, hwalk, error_bind]

/-- The state BR_DECODE_SYM ends in, having read the code of `sym`, of `n` bits (R195). -/
def decoded (sym : Byte) (n : Nat) (s : State) : State :=
  setRes [sym.setWidth 32, BitVec.ofNat 32 n] (readBits n s)

theorem brDecodeSym_body_code {s : State} (hopen : s.brOpen = true) (htree : s.treeValid = true) {p : List Bool}
    {sym : Byte} (hcode : isCodeOf s p sym) (hbits : streamHas s p)
    (hfit : s.brPos.toNat + p.length ≤ s.brLim.toNat) : bodyOf .brDecodeSym s = .ok (decoded sym p.length s) := by
  rw [brDecodeSym_body hopen htree, walkSymbol_code hcode hbits hfit, ok_bind]
  rfl

theorem toNat_decoded_res (sym : Byte) {n : Nat} (h : n < 2 ^ 32) (s : State) :
    (decoded sym n s).res[0].toNat = sym.toNat ∧ (decoded sym n s).res[1].toNat = n := by
  simp only [decoded, setRes_res, Vector.getElem_ofFn, List.getD_cons_zero, List.getD_cons_succ]
  exact ⟨BitVec.toNat_setWidth_of_le (by decide), (BitVec.toNat_ofNat n 32).trans (Nat.mod_eq_of_lt h)⟩

/-- A tree of one leaf has it as ROOT (R152, R160). -/
theorem TreeShape.root_isLeaf {s : State} (ts : TreeShape s 1) : (s.nodeAt s.root).isLeaf = true :=
  (ts.leaf s.root (by have := ts.rootLast; omega)).1

/-- Settles O38: the outcome is that of `walk_symbol()`, which reads the code that comes next (`walkSymbol_code`), or
raises where the stream ends inside every code that agrees with it (`walkSymbol_eos`, `walkSymbol_end`), or on a 1 bit
at a leaf (`walkSymbol_invalid`). -/
theorem brDecodeSymWalksToALeaf : Obligations.BrDecodeSymWalksToALeaf := by
  intro s
  refine ⟨fun hclosed => ?closed, fun hopen htree => ?noTree, fun hopen htree k ts =>
    ⟨fun p sym hcode hfit hbits => ?code, fun hend => ?ended, fun hk hinside => ?inside,
      fun hk hlt hbit => ?invalid⟩⟩
  case closed => exact raises_of_body (require_bind_neg (by simp [hclosed]) _) rfl rfl
  case noTree =>
    exact raises_of_body ((require_bind_pos hopen _).trans (require_bind_neg (by simp [htree]) _)) rfl rfl
  case code =>
    have hlim := s.brLim.isLt
    obtain ⟨hsym, hlen⟩ := toNat_decoded_res sym (n := p.length) (by omega) s
    exact ⟨_, exec_ok (brDecodeSym_body_code hopen htree hcode hbits hfit), readBits_brPos hfit, hsym, hlen,
      fun k hk hk2 => setRes_zero _ _ k hk hk2, rfl⟩
  case ended => exact raises_of_body (brDecodeSym_body_error hopen htree (walkSymbol_end hend)) rfl rfl
  case inside =>
    have hwalk : walkSymbol s = .error .endOfStream := by
      rcases Nat.le_total s.brPos.toNat s.brLim.toNat with hpos | hend
      · exact walkSymbol_eos ts hk hpos hinside
      · exact walkSymbol_end hend
    exact raises_of_body (brDecodeSym_body_error hopen htree hwalk) rfl rfl
  case invalid =>
    subst hk
    exact raises_of_body (brDecodeSym_body_error hopen htree (walkSymbol_invalid ts.root_isLeaf hlt hbit)) rfl rfl

/-! ## BW_INIT and BR_INIT -/

/-- Settles O32, by the test of BW_BASE. -/
theorem bwInitOpensTheWriter : Obligations.BwInitOpensTheWriter := by
  intro s
  refine ⟨fun hover => ?beyond, fun hfit => ?opens⟩
  case beyond => exact raises_of_body (require_bind_neg (Nat.not_le.mpr hover) _) rfl rfl
  case opens => exact exec_ok (require_bind_pos hfit _)

/-- Settles O36, by the tests of IN_LEN and of the reader's range, in that order. -/
theorem brInitOpensTheReader : Obligations.BrInitOpensTheReader := by
  intro s
  refine ⟨fun hover => ?beyond, fun hin hrange => ?range, fun hin hfit => ?opens⟩
  case beyond => exact raises_of_body (require_bind_neg (Nat.not_le.mpr hover) _) rfl rfl
  case range =>
    exact raises_of_body ((require_bind_pos hin _).trans (require_bind_neg (Nat.not_le.mpr hrange) _)) rfl rfl
  case opens => exact exec_ok ((require_bind_pos hin _).trans (require_bind_pos hfit _))

end Sys2Proof.Machine
end

section
/-! SUPPORT. The two errors of COMPRESS (rules R213, R219), and the primitive commands that make its payload and its
tables (rule R221). -/

namespace Sys2Proof.Machine

/-- Settles O41, by `compress_tooLong` and `compress_over`. -/
theorem compressErrors : Obligations.CompressErrors := by
  intro s
  refine ⟨fun hlong => ?tooLong, fun hfit hne hover => ?tooLarge⟩
  case tooLong => exact raises_of_body (compress_tooLong (Nat.not_le.mpr hlong)) rfl rfl
  case tooLarge => exact raises_of_body (compress_over hfit hne hover) rfl rfl

/-! ## Sequences of commands -/

theorem runsTo_cons {i : Instr} {is : List Instr} {s t u : State} (h : bodyOf i s = .ok t) (h' : runsTo is t u) :
    runsTo (i :: is) s u := ⟨t, exec_ok h, h'⟩

theorem runsTo_append {is js : List Instr} {s t u : State} (h : runsTo is s t) (h' : runsTo js t u) :
    runsTo (is ++ js) s u := by
  induction is generalizing s with
  | nil =>
    obtain rfl : s = t := h
    exact h'
  | cons i is ih =>
    obtain ⟨v, hv, h⟩ := h
    exact ⟨v, hv, ih h⟩

/-- BW_WRITE_CODE of each byte sends the bytes' codes, one list of bits (R116, R183): the commands leave the table and
the open writer as they are. -/
theorem runsTo_bwWriteCode {bytes : List Byte} {s t : State} (hopen : s.bwOpen = true) (hcode : s.codeValid = true)
    (hlen : ∀ b ∈ bytes, s.codeLenAt b ≠ 0) (h : bwWriteBits (bytes.flatMap (codeBits s)) s = .ok t) :
    runsTo (bytes.map Instr.bwWriteCode) s t := by
  induction bytes generalizing s with
  | nil => exact Except.ok.inj h
  | cons b rest ih =>
    rw [List.flatMap_cons, bwWriteBits_append] at h
    obtain ⟨u, hu, h⟩ := bind_ok_iff.mp h
    have hbody := (bwWriteCode_body hopen hcode (hlen b List.mem_cons_self)).trans hu
    have honly : u = _ := bwWriteBits_only hu
    refine runsTo_cons hbody (ih ?_ ?_ (fun x hx => ?_) ?_)
    · rw [honly]; exact hopen
    · rw [honly]; exact hcode
    · rw [honly]; exact hlen x (List.mem_cons_of_mem b hx)
    · rwa [codeBits_congr (s := s) (by rw [honly]) (by rw [honly])]

/-! ## A stream of codes, from BW_INIT to BW_FINISH -/

/-- The state BW_INIT ends in (R181). -/
def writerOpened (s : State) : State := { bwInit s.bwBase s with outLen := s.bwBase }

theorem bwInit_body {s : State} (h : s.bwBase.toNat ≤ s.params.outCap) : bodyOf .bwInit s = .ok (writerOpened s) :=
  require_bind_pos h _

theorem writerOk_writerOpened {s : State} (h : s.bwBase.toNat ≤ s.params.outCap) : WriterOk (writerOpened s) :=
  (writerOk_bwInit h).congr ⟨rfl, rfl, rfl, rfl, rfl⟩

/-- The commands that write the codes of `bytes` from BW_BASE on, where the table has them all and they fit OUT. -/
theorem runsTo_stream {bytes : List Byte} {s : State} (hcode : s.codeValid = true)
    (hlen : ∀ b ∈ bytes, s.codeLenAt b ≠ 0)
    (hfit : s.bwBase.toNat + ceilDiv8 (bytes.flatMap (codeBits s)).length ≤ s.params.outCap) :
    ∃ t, runsTo ([.bwInit] ++ bytes.map Instr.bwWriteCode ++ [.bwFinish]) s (finished t) ∧
      Wrote (writerOpened s) t (bytes.flatMap (codeBits s)) := by
  have hbase : s.bwBase.toNat ≤ s.params.outCap := (Nat.le_add_right ..).trans hfit
  have htotal : (writerOpened s).bwTotal.toNat = 0 := rfl
  obtain ⟨t, ht, w⟩ := bwWriteBits_spec (writerOk_writerOpened hbase) (by rw [htotal, Nat.zero_add]; exact hfit)
  have hopen : t.bwOpen = true := by rw [show t = _ from w.only]; rfl
  have hbits : bytes.flatMap (codeBits (writerOpened s)) = bytes.flatMap (codeBits s) := by
    rw [codeBits_congr (s := s) (t := writerOpened s) rfl rfl]
  exact ⟨t, runsTo_append
    (runsTo_cons (bwInit_body hbase) (runsTo_bwWriteCode rfl hcode hlen (by rw [hbits]; exact ht)))
    (runsTo_cons (bwFinish_body hopen) rfl), w⟩

section
variable {s t : State} {bits : List Bool} (w : Wrote (writerOpened s) t bits)
include w

theorem Wrote.bwTotal_opened : t.bwTotal.toNat = bits.length := w.total.trans (Nat.zero_add _)

theorem Wrote.bwOrg_opened : t.bwOrg = s.bwBase := by rw [show t = _ from w.only]; rfl

/-- BITCOUNT after BW_FINISH is the length of the stream (R184). -/
theorem Wrote.bitCount_finished : (finished t).bitCount.toNat = bits.length := w.bwTotal_opened

/-- OUT_LEN after BW_FINISH is the end of the stream (R184). -/
theorem Wrote.outLen_finished : (finished t).outLen.toNat = s.bwBase.toNat + ceilDiv8 bits.length := by
  rw [← w.bwTotal_opened, ← w.bwOrg_opened]
  exact w.ok.toNat_end

/-- The stream holds the bits written, then zeros to the end of its last byte (R188). -/
theorem Wrote.outStreamBit_finished {k : Nat} (hk : k < 8 * ceilDiv8 bits.length) :
    outStreamBit (finished t) s.bwBase.toNat k = if h : k < bits.length then bits[k] else false := by
  rw [← w.bwTotal_opened] at hk
  rw [outStreamBit, finished_outAt, ← w.bwOrg_opened]
  refine (outStreamBit_bwFinish w.ok k hk).trans ?_
  rw [w.bwTotal_opened]
  split
  case isTrue h =>
    have hnew := w.new k h
    rwa [show (writerOpened s).bwTotal.toNat = 0 from rfl, Nat.zero_add] at hnew
  case isFalse => rfl

/-- The stream leaves the tables alone (R181, R183, R184). -/
theorem Wrote.tablesKept_finished : TablesKept s (finished t) := by
  rw [w.ok.finished_frame, show t = _ from w.only]
  exact ⟨rfl, rfl, rfl, rfl, rfl, rfl, rfl, rfl, rfl, rfl⟩

theorem Wrote.err_finished : (finished t).err = s.err := by
  rw [w.ok.finished_frame, show t = _ from w.only]
  rfl

end

/-- Two streams of the same bits, from the same address on, are the same bytes (R78). -/
theorem outAt_eq_of_outStreamBit {s t : State} {org n : Nat}
    (h : ∀ k < 8 * n, outStreamBit s org k = outStreamBit t org k) {a : Nat} (hge : org ≤ a) (hlt : a < org + n) :
    s.outAt a = t.outAt a := by
  refine byte_of_bits fun j hj => ?_
  have hbit := h (8 * (a - org) + j) (by omega)
  rwa [outStreamBit, outStreamBit, streamByte, streamBit, show org + (8 * (a - org) + j) / 8 = a by omega,
    show (8 * (a - org) + j) % 8 = j by omega] at hbit

/-! ## The tables -/

/-- The state after FREQ_BUILD, TREE_BUILD and CODE_GEN (R141, R151, R172). -/
def primitiveTables (s : State) : State :=
  codeGen (dropCode (treeBuild (inputList s) (dropTree (freqBuild s))))

theorem runsTo_primitiveTables {s : State} (hfit : s.inLen.toNat ≤ s.params.inCap) (hne : s.inLen ≠ 0) :
    runsTo [.freqBuild, .treeBuild, .codeGen] s (primitiveTables s) := by
  have hpresent : presentSymbols (dropTree (freqBuild s)).freq ≠ [] := inputList_ne hne
  exact runsTo_cons (require_bind_pos hfit _) (runsTo_cons (treeBuild_body rfl hpresent)
    (runsTo_cons (require_bind_pos rfl _) rfl))

/-- The code table is that of COMPRESS: it is a function of the list (R153). -/
theorem primitiveTables_codes {s : State} (hne : s.inLen ≠ 0) :
    (primitiveTables s).codeLen = (tablesOf s).codeLen ∧ (primitiveTables s).codeVal = (tablesOf s).codeVal :=
  codes_indep (inputList_good hne) (dropTree (freqBuild s)) (counted s)

theorem codeBits_primitiveTables {s : State} (hne : s.inLen ≠ 0) :
    codeBits (primitiveTables s) = codeBits (tablesOf s) := by
  obtain ⟨hl, hv⟩ := primitiveTables_codes hne
  exact codeBits_congr hl hv

/-- Every input byte is a present symbol, and so has a code (R175). -/
theorem codeLenAt_tablesOf_ne_zero {s : State} (hne : s.inLen ≠ 0) {b : Byte} (hb : b ∈ inBytes s s.inLen.toNat) :
    (tablesOf s).codeLenAt b ≠ 0 := by
  obtain ⟨k, ts, hcode⟩ := codedTree_tablesOf hne
  obtain ⟨e, he, rfl⟩ := inputList_covers b hb
  obtain ⟨hpresent, hcount⟩ := mem_presentSymbols.mp he
  exact (codeLenAt_ne_zero_iff ts (hcode e.1)).mpr fun hzero => hpresent (hcount.symm.trans hzero)

theorem codeLenAt_primitiveTables_ne_zero {s : State} (hne : s.inLen ≠ 0) {b : Byte}
    (hb : b ∈ inBytes s s.inLen.toNat) : (primitiveTables s).codeLenAt b ≠ 0 := by
  rw [State.codeLenAt]
  simp only [(primitiveTables_codes hne).1]
  exact codeLenAt_tablesOf_ne_zero hne hb

/-- The arena below NODE_COUNT is a function of the list too (R153). -/
theorem nodeAt_primitiveTables {s : State} (hne : s.inLen ≠ 0) {h : Handle} (hlt : h < (tablesOf s).nodeCount) :
    (primitiveTables s).nodeAt h = (tablesOf s).nodeAt h := by
  have g := inputList_good hne
  refine nodeAt_treeBuild_indep g (dropTree (freqBuild s)) (counted s) ?_
  rw [← treeBuild_nodeCount_toNat g.nonempty g.small (counted s)]
  exact BitVec.lt_def.mp hlt

/-- COMPRESS ends with the tables it made for the input. -/
theorem Compressed.tablesKept {l : SymFreqs} {bits : List Bool} {s t : State} (h : Compressed l bits s t) :
    TablesKept s t := by
  rw [h.fields]
  exact ⟨rfl, rfl, rfl, rfl, rfl, rfl, rfl, rfl, rfl, rfl⟩

/-- Settles O50: the primitive commands make COMPRESS's tables (`primitiveTables`), so BW_WRITE_CODE of the input sends
its payload bits, from the same address on. -/
theorem primitivesMakeThePayloadOfCompress : Obligations.PrimitivesMakeThePayloadOfCompress := by
  intro s t hexec hs ht hne hbase
  obtain ⟨hin, ⟨h0, -⟩ | ⟨-, -, hc⟩⟩ := compress_cases (body_ok_of hexec ht)
  case inl => exact absurd h0 hne
  have hbits : (inBytes s s.inLen.toNat).flatMap (codeBits (primitiveTables s)) = payloadBits (tablesOf s) s := by
    rw [codeBits_primitiveTables hne, payloadBits]
  have horg : (primitiveTables s).bwBase.toNat = headerSize (inputList s).length := by
    rw [headerSize, ← hc.symCount_toNat]
    exact hbase
  obtain ⟨v, hrun, w⟩ := runsTo_stream (s := primitiveTables s) rfl (fun b => codeLenAt_primitiveTables_ne_zero hne)
    (by rw [hbits, horg]; exact hc.small)
  rw [hbits] at w
  have hk := w.tablesKept_finished
  have hkc := hc.tablesKept
  obtain ⟨hl, hv⟩ := primitiveTables_codes hne
  refine ⟨finished v, ?runs, w.err_finished.trans hs, ?bitCount, ?outLen, fun a hge hlt => ?payload,
    hk.freq.trans hkc.freq.symm, hk.symCount.trans hkc.symCount.symm, hk.nodeCount.trans hkc.nodeCount.symm,
    hk.root.trans hkc.root.symm, fun h hlt => ?node, hk.codeLen.trans (hl.trans hkc.codeLen.symm),
    hk.codeVal.trans (hv.trans hkc.codeVal.symm)⟩
  case runs => exact (runsTo_append (runsTo_primitiveTables hin hne) hrun :)
  case bitCount => exact BitVec.eq_of_toNat_eq (w.bitCount_finished.trans hc.bitCount_toNat.symm)
  case outLen =>
    refine BitVec.eq_of_toNat_eq ?_
    rw [w.outLen_finished, hc.outLen_toNat, horg]
  case payload =>
    rw [hc.symCount_toNat] at hge
    rw [hc.outLen_toNat] at hlt
    refine outAt_eq_of_outStreamBit (fun k hlt => ?_) hge hlt
    have hbit := w.outStreamBit_finished hlt
    rw [horg] at hbit
    exact hbit.trans (hc.payload k hlt).symm
  case node =>
    rw [hkc.nodeCount] at hlt
    rw [nodeAt_congr hk.node, nodeAt_congr hkc.node]
    exact nodeAt_primitiveTables hne hlt

end Sys2Proof.Machine
end

section
/-! SUPPORT. DECOMPRESS in full: the sixteen tests of rule R248 in their order, and the state it ends in (rules R230 to
R248). -/

namespace Sys2Proof.Machine

/-! ## The fixed header (tests 1 to 8) -/

/-- The flag byte 1 is that of the empty container, which holds nothing more (R238). -/
theorem decompress_emptyTrailing {s : State} (hfit : s.inLen.toNat ≤ s.params.inCap) (hlen : 2 ≤ s.inLen.toNat)
    (h0 : s.inAt 0 = 1) (h1 : s.inAt 1 = 1) (hmore : s.inLen ≠ 2) :
    bodyOf .decompress s = .error (.corruptHeader .trailingBytes) := by
  have hne : s.inLen.toNat ≠ 2 := fun h => hmore (BitVec.eq_of_toNat_eq h)
  rw [decompress_eq, require_bind_pos hfit, require_bind_pos hlen, require_bind_pos h0, h1,
    require_bind_pos (by decide), if_pos flag0_1, require_bind_neg hne]

/-- Settles O42, test by test: the version and flag bytes by `decompress_eq`, the rest of the fixed header by
`decompressFull_eq`. -/
theorem decompressTestsTheFixedHeader : Obligations.DecompressTestsTheFixedHeader := by
  intro s
  refine ⟨fun hlong => ?tooLong, fun hfit => ⟨fun hshort => ?noFlags, fun hlen => ⟨fun hversion => ?version,
    fun h0 hflags => ?flags, fun h0 h1 hmore => ?trailing, fun h0 h1 htwo => ?empty, fun h0 h1 => ?full⟩⟩⟩
  case tooLong => exact raises_of_body (require_bind_neg (Nat.not_le.mpr hlong) _) rfl rfl
  case noFlags =>
    exact raises_of_body ((require_bind_pos hfit _).trans (require_bind_neg (Nat.not_le.mpr hshort) _)) rfl rfl
  case version =>
    exact raises_of_body ((require_bind_pos hfit _).trans ((require_bind_pos hlen _).trans
      (require_bind_neg hversion _))) rfl rfl
  case flags =>
    have hbits : ¬ (s.inAt 1).extractLsb' 1 7 = 0 := fun h => Nat.not_le.mpr hflags ((flags_zero _).mp h)
    exact raises_of_body ((require_bind_pos hfit _).trans ((require_bind_pos hlen _).trans
      ((require_bind_pos h0 _).trans (require_bind_neg hbits _)))) rfl rfl
  case trailing => exact raises_of_body (decompress_emptyTrailing hfit hlen h0 h1 hmore) rfl rfl
  case empty =>
    exact ⟨_, clearDerived s, exec_ok (decompress_emptyContainer hfit htwo h0 h1), rfl,
      fun sym => by simp [State.freqAt], rfl⟩
  case full =>
    have hbody := decompress_nonempty hfit hlen h0 h1
    have hle : le32In (clearDerived s) 2 = le32In s 2 := rfl
    rw [decompressFull_eq, hle] at hbody
    refine ⟨fun hshort => ?noCount, fun h6 hcount => ?count, fun h6 hlo hhi hshort => ?noEntries⟩
    case noCount => exact raises_of_body (hbody.trans (require_bind_neg (by omega) _)) rfl rfl
    case count =>
      exact raises_of_body (hbody.trans ((require_bind_pos h6 _).trans (require_bind_neg (by omega) _))) rfl rfl
    case noEntries =>
      have hsize : ¬ headerSize (le32In s 2) ≤ s.inLen.toNat := by unfold headerSize; omega
      exact raises_of_body (hbody.trans ((require_bind_pos h6 _).trans ((require_bind_pos ⟨hlo, hhi⟩ _).trans
        (require_bind_neg hsize _)))) rfl rfl

/-! ## The entries (tests 9 and 10) -/

/-- Parsing stops at the first entry that fails a test (R233). -/
theorem parseEntries_error {s : State} {n i : Nat} {l : SymFreqs} {c : Cause} (hi : i < n)
    (hbefore : (List.range i).foldlM (entryStep s) [] = .ok l) (hstep : entryStep s l i = .error c) :
    parseEntries s n = .error c := by
  rw [parseEntries, range_split i n hi, List.foldlM_append, hbefore, ok_bind, List.foldlM_cons, hstep, error_bind]

/-- Settles O43: the entries before `i` parse (`parse_prefix`), and entry `i` fails. -/
theorem decompressTestsTheEntries : Obligations.DecompressTestsTheEntries := by
  intro s i hfit h0 h1 hlo hhi hlen hi hbefore
  have hbody := decompress_body_full hfit h0 h1 hlo hhi hlen
  have hprefix := parse_prefix (s := clearDerived s) i hbefore
  refine ⟨fun ⟨j, hj, hdup⟩ => ?duplicate, fun hnew hzero => ?zero⟩
  case duplicate =>
    have hstep := parseEntries_error hi hprefix
      (require_bind_neg (not_not_intro ⟨_, List.mem_map_of_mem (List.mem_range.mpr hj), hdup⟩) _)
    exact raises_of_body (hbody.trans (by rw [hstep, error_bind])) rfl rfl
  case zero =>
    have hfresh : ¬ ∃ e ∈ (List.range i).map fun j => ((clearDerived s).inAt (6 + 5 * j),
        BitVec.ofNat 32 (le32In (clearDerived s) (7 + 5 * j))), e.1 = (clearDerived s).inAt (6 + 5 * i) := by
      rintro ⟨e, he, hsym⟩
      obtain ⟨j, hj, rfl⟩ := List.mem_map.mp he
      exact hnew j (List.mem_range.mp hj) hsym
    have hstep := parseEntries_error hi hprefix
      ((require_bind_pos hfresh _).trans (require_bind_neg (not_not_intro hzero) _))
    exact raises_of_body (hbody.trans (by rw [hstep, error_bind])) rfl rfl

/-! ## The header against the rebuilt code (tests 11 to 14) -/

/-- Settles O44: the tests of `decompressPayload_eq`, whose bit total is that of the list (R153). -/
theorem decompressTestsTheHeaderAgainstTheTree : Obligations.DecompressTestsTheHeaderAgainstTheTree := by
  intro s l h
  have hlong := h.long
  have hH : headerSize l.length = 10 + 5 * l.length := rfl
  have hle : le32In (clearDerived s) (6 + 5 * l.length) = le32In s (6 + 5 * l.length) := rfl
  have hbody := body_of_HeaderOk h
  rw [decompressPayload_eq, listBits_rebuilt (good_of_HeaderOk h) s, hle] at hbody
  refine ⟨fun hbits => ?mismatch, fun hbits => ?agree⟩
  case mismatch => exact raises_of_body (hbody.trans (require_bind_neg hbits _)) rfl rfl
  case agree =>
    rw [require_bind_pos hbits, hbits] at hbody
    refine ⟨fun hshort => ?short, fun hmore => ?trailing, fun hsize hover => ?tooLarge⟩
    case short => exact raises_of_body (hbody.trans (require_bind_neg (by omega) _)) rfl rfl
    case trailing =>
      exact raises_of_body (hbody.trans ((require_bind_pos (by omega) _).trans (require_bind_neg (by omega) _))) rfl rfl
    case tooLarge =>
      exact raises_of_body (hbody.trans ((require_bind_pos (by omega) _).trans ((require_bind_pos (by omega) _).trans
        (require_bind_neg (Nat.not_le.mpr hover) _)))) rfl rfl

end Sys2Proof.Machine
end

section
/-! SUPPORT. The payload of DECOMPRESS: the symbols it decodes, the state it ends in (rules R236, R243, R247), and the
tests 15 and 16 of rule R248 (rules R243 to R245). -/

namespace Sys2Proof.Machine

/-! ## Stage 4 after some symbols -/

/-- Stage 4 of DECOMPRESS once the codes of `xs` are read and the symbols are in OUT (R243). -/
def stage4After (s : State) (l : SymFreqs) (xs : List Byte) : State :=
  putOutBytes 0 xs (readBits (xs.flatMap (listCode l s)).length (stage4 s l))

section
variable {s : State} {l : SymFreqs} {xs : List Byte} {rest : List Bool}

/-- But for BR_POS and OUT the state is that stage 4 starts from. -/
theorem stage4After_eq (s : State) (l : SymFreqs) (xs : List Byte) : stage4After s l xs =
    { stage4 s l with
      brPos := BitVec.ofNat 32 (xs.flatMap (listCode l s)).length, outBuf := (stage4After s l xs).outBuf } := by
  have hpos : (stage4 s l).brPos.toNat = 0 := rfl
  rw [stage4After, putOutBytes_eq, readBits, hpos, Nat.zero_add]

theorem stage4After_shape (h : ContainerOk s l) (xs : List Byte) : TreeShape (stage4After s l xs) l.length := by
  rw [stage4After_eq]
  exact (stage4_shape h).congr (nodeAt_congr rfl) rfl rfl rfl

theorem isCodeOf_stage4After (s : State) (l : SymFreqs) (xs : List Byte) :
    isCodeOf (stage4After s l xs) = isCodeOf (stage4 s l) := by
  rw [stage4After_eq]
  exact isCodeOf_congr (nodeAt_congr rfl) rfl

variable (hpay : payloadOf s l = xs.flatMap (listCode l s) ++ rest)
include hpay

theorem listBits_eq_of_payload : listBits l s = (xs.flatMap (listCode l s)).length + rest.length := by
  rw [← length_payloadOf, hpay, List.length_append]

variable (h : ContainerOk s l)
include h

theorem stage4After_brPos : (stage4After s l xs).brPos.toNat = (xs.flatMap (listCode l s)).length := by
  have hlen := listBits_eq_of_payload hpay
  have hlt := bits_lt h
  rw [stage4After_eq, BitVec.toNat_ofNat]
  exact Nat.mod_eq_of_lt (by omega)

theorem stage4After_brLim :
    (stage4After s l xs).brLim.toNat = (stage4After s l xs).brPos.toNat + rest.length := by
  rw [stage4After_brPos hpay h, ← listBits_eq_of_payload hpay, ← stage4_lim h, stage4After_eq]

/-- The bits still to read are `rest`. -/
theorem stage4After_stream : streamHas (stage4After s l xs) rest := by
  have hlim := stage4_lim h
  have hlen := listBits_eq_of_payload hpay
  have hpos : (stage4 s l).brPos.toNat = 0 := rfl
  have hstream := stage4_stream h
  rw [hpay] at hstream
  have hread := streamHas_readBits hstream (by omega)
  rw [stage4After, putOutBytes_eq]
  exact hread

/-- DECOMPRESS reads the codes of `xs` first, and goes on from there (R243). -/
theorem decompress_body_after (hmem : ∀ x ∈ xs, ∃ e ∈ l, e.1 = x) (hle : xs.length ≤ declaredLength l) :
    bodyOf .decompress s =
      (decodeLoop (declaredLength l - xs.length) xs.length (stage4After s l xs) >>= fun p => do
        require (p.1 = declaredLength l) (.corruptHeader .countMismatch)
        return { p.2 with outLen := BitVec.ofNat 32 p.1, brOpen := false }) := by
  have hpos : (stage4 s l).brPos.toNat = 0 := rfl
  have hstream := stage4_stream h
  rw [hpay] at hstream
  have hloop := decodeLoop_tail (code := listCode l s) (left := declaredLength l) (k := 0)
    (fun b hb => by obtain ⟨e, he, rfl⟩ := hmem b hb; exact stage4_code h he) hstream
    (by rw [hpos, stage4_lim h, Nat.zero_add, ← hpay, length_payloadOf]) hle
  rw [Nat.zero_add] at hloop
  rw [body_of_ContainerOk h]
  exact congrArg (· >>= _) hloop

end

/-! ## The end of the decode loop -/

/-- With no bit left the loop ends (R243). -/
theorem decodeLoop_exhausted {s : State} (h : s.brLim.toNat ≤ s.brPos.toNat) (left k : Nat) :
    decodeLoop left k s = .ok (k, s) := by
  have hnot : ¬ s.brPos < s.brLim := by rw [BitVec.lt_def]; omega
  cases left <;> exact if_neg hnot

/-- Bits behind the last symbol (R245). -/
theorem decodeLoop_excess {s : State} (h : s.brPos.toNat < s.brLim.toNat) (k : Nat) :
    decodeLoop 0 k s = .error (.corruptHeader .countMismatch) :=
  if_pos (BitVec.lt_def.mpr h)

/-- A walk that raises ends the loop, at the decoder boundary (R244). -/
theorem decodeLoop_walk_error {s : State} {left k : Nat} {c : Cause} (h : s.brPos.toNat < s.brLim.toNat)
    (hleft : 0 < left) (hwalk : walkSymbol s = .error c) : decodeLoop left k s = .error (decoderBoundary c) := by
  obtain ⟨left, rfl⟩ := Nat.exists_eq_add_of_lt hleft
  rw [Nat.zero_add, decodeLoop, if_pos (BitVec.lt_def.mpr h), hwalk]
  rfl

/-! ## A payload that is the codes of N symbols -/

/-- The state DECOMPRESS ends in where the payload is the codes of `xs` (R247). -/
def recovered (s : State) (l : SymFreqs) (xs : List Byte) : State :=
  { stage4After s l xs with outLen := BitVec.ofNat 32 xs.length, brOpen := false }

theorem decompress_recovered {s : State} {l : SymFreqs} {xs : List Byte} (h : ContainerOk s l)
    (hpay : payloadOf s l = xs.flatMap (listCode l s)) (hmem : ∀ x ∈ xs, ∃ e ∈ l, e.1 = x)
    (hcount : xs.length = declaredLength l) : bodyOf .decompress s = .ok (recovered s l xs) := by
  have hpay' : payloadOf s l = xs.flatMap (listCode l s) ++ [] := by rw [List.append_nil, hpay]
  rw [decompress_body_after hpay' h hmem hcount.le,
    decodeLoop_exhausted (stage4After_brLim hpay' h).le, ok_bind, require_bind_pos hcount]
  rfl

theorem recovered_eq (s : State) (l : SymFreqs) (xs : List Byte) : recovered s l xs =
    { stage4 s l with
      brPos := BitVec.ofNat 32 (xs.flatMap (listCode l s)).length, outBuf := (recovered s l xs).outBuf
      outLen := BitVec.ofNat 32 xs.length, brOpen := false } := by
  rw [recovered, stage4After_eq]

theorem recovered_outAt (s : State) (l : SymFreqs) (xs : List Byte) {k : Nat} (hk : k < xs.length) :
    (recovered s l xs).outAt k = xs[k] := by
  have hbyte := outAt_putOutBytes 0 xs (readBits (xs.flatMap (listCode l s)).length (stage4 s l)) hk
  rwa [Nat.zero_add] at hbyte

/-- The tables are those of the header's list (R236). -/
theorem recovered_merged {s : State} {l : SymFreqs} (h : ContainerOk s l) (xs : List Byte) :
    MergedFrom l (recovered s l xs) := by
  rw [recovered_eq]
  exact (treeBuild_merged (good_of_HeaderOk h.header) _).congr (nodeAt_congr rfl) rfl rfl

theorem recovered_codeEntryOk {s : State} {l : SymFreqs} (h : ContainerOk s l) (xs : List Byte) (sym : Byte) :
    codeEntryOk (recovered s l xs) sym := by
  have hentry := rebuilt_entryOk (good_of_HeaderOk h.header) (clearDerived s) sym
  refine codeEntryOk_congr ?_ ?_ ?_ ?_ hentry <;> rw [recovered_eq] <;> rfl

theorem recovered_freq (s : State) (l : SymFreqs) (xs : List Byte) : (recovered s l xs).freq = freqOfEntries l := by
  rw [recovered_eq]
  rfl

/-- Settles O45: stage 4 reads the codes of all symbols and ends with its bits exhausted (`recovered`). -/
theorem decompressRecoversTheSymbols : Obligations.DecompressRecoversTheSymbols := by
  intro s l xs h hpay hcount hmem
  have g := good_of_HeaderOk h.header
  have hsmall := g.small
  have hbits := bits_lt h
  have hlen : (xs.flatMap (listCode l s)).length = listBits l s := by rw [← hpay, length_payloadOf]
  refine ⟨recovered s l xs, clearDerived s, exec_ok (decompress_recovered h hpay hmem hcount), rfl, ?outLen,
    fun k hk => recovered_outAt s l xs hk, ?symCount, ?bitCount, ?brPos, fun e he => ?listed, fun sym hsym => ?unlisted,
    recovered_merged h xs, recovered_codeEntryOk h xs, ?frame⟩
  case outLen =>
    have hroom := h.room
    have hcap := s.params.bounded.2.2
    exact (BitVec.toNat_ofNat ..).trans (Nat.mod_eq_of_lt (by omega))
  case symCount =>
    rw [recovered_eq]
    exact toNat_ofNat9 (by omega)
  case bitCount =>
    rw [recovered_eq]
    exact (BitVec.toNat_ofNat ..).trans (Nat.mod_eq_of_lt hbits)
  case brPos =>
    rw [recovered_eq, hlen]
    exact (BitVec.toNat_ofNat ..).trans (Nat.mod_eq_of_lt hbits)
  case listed =>
    rw [State.freqAt]
    simp only [recovered_freq]
    exact freqOfEntries_mem g.distinct he
  case unlisted =>
    rw [State.freqAt]
    simp only [recovered_freq]
    exact freqOfEntries_not_mem hsym
  case frame =>
    rw [recovered_eq]
    rfl

/-! ## Any other payload (tests 15 and 16) -/

/-- In the tree of stage 4 the symbols with a code are those of the list, each with the list's code. -/
theorem stage4_listed {s : State} {l : SymFreqs} (h : ContainerOk s l) {p : List Bool} {sym : Byte}
    (hp : isCodeOf (stage4 s l) p sym) : ∃ e ∈ l, e.1 = sym ∧ listCode l s e.1 = p := by
  have ts := stage4_shape h
  have hlisted : ∃ e ∈ l, e.1 = sym := by
    by_contra hno
    push Not at hno
    exact (ts.code_exists_iff sym).mp ⟨p, hp⟩ (freqOfEntries_not_mem hno)
  obtain ⟨e, he, rfl⟩ := hlisted
  exact ⟨e, he, rfl, ts.code_unique (stage4_code h he).1 hp⟩

/-- Two lists of bits the stream holds: the shorter one begins the other. -/
theorem streamHas_prefix {s : State} {p q : List Bool} (hp : streamHas s p) (hq : streamHas s q)
    (hlen : p.length ≤ q.length) : p <+: q := by
  rw [List.prefix_iff_eq_take]
  refine List.ext_getElem (by simpa using hlen) fun i hi _ => ?_
  rw [List.getElem_take, ← hp i hi, ← hq i (by omega)]

/-- Where no listed code begins the bits left, and ROOT is no leaf, the walk runs into the end of the stream (R194). -/
theorem walkSymbol_stage4After {s : State} {l : SymFreqs} {xs : List Byte} {rest : List Bool}
    (hpay : payloadOf s l = xs.flatMap (listCode l s) ++ rest) (h : ContainerOk s l) (htwo : 1 < l.length)
    (hnone : ∀ e ∈ l, ¬ listCode l s e.1 <+: rest) : walkSymbol (stage4After s l xs) = .error .endOfStream := by
  have hlim := stage4After_brLim hpay h
  refine walkSymbol_eos (stage4After_shape h xs) htwo (by omega) fun p sym hcode hbits => ?_
  rw [isCodeOf_stage4After] at hcode
  obtain ⟨e, he, -, rfl⟩ := stage4_listed h hcode
  by_contra hfit
  exact hnone e he (streamHas_prefix hbits (stage4After_stream hpay h) (by omega))

/-- The error of the next walk is that of DECOMPRESS, at the decoder boundary (R244). -/
theorem decompress_walk_error {s : State} {l : SymFreqs} {xs : List Byte} {rest : List Bool} {c : Cause}
    (hpay : payloadOf s l = xs.flatMap (listCode l s) ++ rest) (h : ContainerOk s l)
    (hmem : ∀ x ∈ xs, ∃ e ∈ l, e.1 = x) (hfew : xs.length < declaredLength l) (hrest : rest ≠ [])
    (hwalk : walkSymbol (stage4After s l xs) = .error c) : bodyOf .decompress s = .error (decoderBoundary c) := by
  have hlim := stage4After_brLim hpay h
  have hpos := List.length_pos_iff.mpr hrest
  rw [decompress_body_after hpay h hmem hfew.le, decodeLoop_walk_error (by omega) (Nat.sub_pos_of_lt hfew) hwalk,
    error_bind]

/-- Settles O46: after the codes of `xs` (`decompress_body_after`) the loop ends too late or too early, or its next walk
raises. -/
theorem decompressTestsThePayload : Obligations.DecompressTestsThePayload := by
  intro s l xs rest h hpay hmem
  have hlim := stage4After_brLim hpay h
  refine ⟨fun (hcount : xs.length = declaredLength l) hrest => ?excess, fun (hfew : xs.length < declaredLength l) =>
    ⟨fun hrest => ?boundary, fun htwo hrest hnone => ?inside, fun hone hhead => ?invalid⟩⟩
  case excess =>
    have hpos := List.length_pos_iff.mpr hrest
    have hbody := decompress_body_after hpay h hmem hcount.le
    rw [← hcount, Nat.sub_self, decodeLoop_excess (by omega), error_bind] at hbody
    exact raises_of_body hbody rfl rfl
  case boundary =>
    subst hrest
    have hbody := decompress_body_after hpay h hmem hfew.le
    rw [decodeLoop_exhausted hlim.le, ok_bind, require_bind_neg hfew.ne] at hbody
    exact raises_of_body hbody rfl rfl
  case inside =>
    have hwalk := walkSymbol_stage4After hpay h htwo hnone
    exact raises_of_body (decompress_walk_error hpay h hmem hfew hrest hwalk) rfl rfl
  case invalid =>
    obtain ⟨bits, rfl⟩ := List.head?_eq_some_iff.mp hhead
    have ts := stage4After_shape h xs
    rw [hone] at ts
    have hbit := stage4After_stream hpay h 0 (Nat.succ_pos _)
    rw [List.length_cons] at hlim
    have hwalk := walkSymbol_invalid ts.root_isLeaf (by omega) hbit
    exact raises_of_body (decompress_walk_error hpay h hmem hfew (List.cons_ne_nil _ _) hwalk) rfl rfl

end Sys2Proof.Machine
end

section
/-! SUPPORT. NOP, CLEAR, TBL_READ and NODE_READ in full (rules R261 to R264): what each leaves in RES, and the two errors
of NODE_READ in order. -/

namespace Sys2Proof.Machine

/-! ## NOP and CLEAR -/

/-- Settles O22: the body of NOP ends in the state it starts from. -/
theorem nopChangesNothing : Obligations.NopChangesNothing := fun _ => exec_ok rfl

/-- With no value listed all ten result registers are 0 (R45). -/
theorem setRes_nil (s : State) : setRes [] s = { s with res := Vector.replicate 10 0 } := rfl

/-- Settles O23: the discarded state is that of `clearDerived`. -/
theorem clearDiscardsDerivedState : Obligations.ClearDiscardsDerivedState := fun s =>
  ⟨clearDerived s, exec_ok (congrArg Except.ok (setRes_nil _)), rfl⟩

/-! ## Result registers -/

/-- A result register holds its listed value (R45). -/
theorem setRes_getElem (vals : List Word) (s : State) {k : Nat} (hk : k < 10) :
    (setRes vals s).res[k] = vals.getD k 0 := by rw [setRes_res, Vector.getElem_ofFn]

/-! ## TBL_READ -/

/-- The first `n` words of 32 bits of a number, low word first, are its low `32 * n` bits. -/
theorem sum_words (x n : Nat) :
    ((List.range n).map fun j => x / 2 ^ (32 * j) % 2 ^ 32 * 2 ^ (32 * j)).sum = x % 2 ^ (32 * n) := by
  induction n with
  | zero => rw [Nat.mul_zero, Nat.pow_zero, Nat.mod_one]; rfl
  | succ n ih =>
    rw [List.range_succ, List.map_append, List.sum_append, ih, List.map_singleton, List.sum_singleton, Nat.mul_succ,
      Nat.pow_add, Nat.mod_mul, Nat.mul_comm (2 ^ (32 * n))]

/-- A word of CODEVAL is the code's number divided down to it (R263). -/
theorem toNat_codeValWord (v : CodeBits) (j : Nat) :
    (codeValWord v j).toNat = v.toNat / 2 ^ (32 * j) % 2 ^ 32 := by
  rw [codeValWord, BitVec.extractLsb'_toNat, BitVec.toNat_setWidth_of_le (by decide), Nat.shiftRight_eq_div_pow]

/-- The eight words are the whole code (R263). -/
theorem sum_codeValWord (v : CodeBits) :
    ((List.finRange 8).map fun j => (codeValWord v j.val).toNat * 2 ^ (32 * j.val)).sum = v.toNat := by
  have hlt : v.toNat < 2 ^ (32 * 8) := v.isLt.trans (by decide)
  have hsum := sum_words v.toNat 8
  rw [Nat.mod_eq_of_lt hlt, ← List.map_coe_finRange_eq_range, List.map_map] at hsum
  simp only [toNat_codeValWord]
  exact hsum

/-- The values TBL_READ lists for RES[2..9] are the words of CODEVAL, while CODE_VALID is set (R263). -/
theorem tblReadValues_word (s : State) (sym : Byte) (j : Fin 8) :
    (tblReadValues s sym).getD (2 + j.val) 0 = if s.codeValid then codeValWord (s.codeValAt sym) j.val else 0 := by
  rw [Nat.add_comm]
  simp [tblReadValues]

/-- Settles O24: CODELEN widens without loss, and the eight words of CODEVAL are the whole code
(`sum_codeValWord`). -/
theorem tblReadReturnsTheEntry : Obligations.TblReadReturnsTheEntry := by
  intro s sym
  refine ⟨(setRes (tblReadValues s sym) s).res, exec_ok rfl, rfl, ?len, ?val⟩
  case len =>
    rw [setRes_getElem, tblReadValues, List.getD_cons_succ, List.getD_cons_zero]
    split
    · exact BitVec.toNat_setWidth_of_le (by decide)
    · rfl
  case val =>
    simp only [setRes_getElem, tblReadValues_word]
    split
    · exact sum_codeValWord _
    · decide

/-! ## NODE_READ -/

/-- Two fields of a word of RES that do not overlap: the value of `y` starts at bit `k`, above `x` (R264). -/
theorem toNat_packed {m n k : Nat} (x : BitVec m) (y : BitVec n) (hm : m ≤ k) (hn : k + n ≤ 32) :
    (x.setWidth 32 ||| y.setWidth 32 <<< k).toNat = x.toNat + 2 ^ k * y.toNat := by
  have hx : x.toNat < 2 ^ k := x.isLt.trans_le (Nat.pow_le_pow_right (by decide) hm)
  have hy : 2 ^ k * y.toNat < 2 ^ 32 := calc
    2 ^ k * y.toNat < 2 ^ k * 2 ^ n := Nat.mul_lt_mul_of_pos_left y.isLt (Nat.two_pow_pos k)
    _ = 2 ^ (k + n) := (Nat.pow_add 2 k n).symm
    _ ≤ 2 ^ 32 := Nat.pow_le_pow_right (by decide) hn
  rw [BitVec.toNat_or, BitVec.toNat_shiftLeft, BitVec.toNat_setWidth_of_le (by omega),
    BitVec.toNat_setWidth_of_le (by omega), Nat.shiftLeft_eq, Nat.mul_comm y.toNat, Nat.mod_eq_of_lt hy, Nat.or_comm,
    ← Nat.two_pow_add_eq_or_of_lt hx, Nat.add_comm]

/-- WEIGHT is its low word and the 8 bits above it (R264). -/
theorem toNat_weight_words (w : Weight) :
    (w.extractLsb' 0 32).toNat + 2 ^ 32 * ((w.extractLsb' 32 8).setWidth 32).toNat = w.toNat := by
  rw [BitVec.toNat_setWidth_of_le (by decide), BitVec.extractLsb'_toNat, BitVec.extractLsb'_toNat, Nat.shiftRight_zero,
    Nat.shiftRight_eq_div_pow]
  omega

/-- The body of NODE_READ where neither precondition fails (R264). -/
theorem nodeRead_body {s : State} {h : Handle} (htree : s.treeValid = true) (hlt : h < s.nodeCount) :
    bodyOf (.nodeRead h) s = .ok (setRes (nodeReadValues (s.nodeAt h)) s) :=
  (require_bind_pos htree _).trans (require_bind_pos hlt _)

/-- Settles O25, by the two tests in order and the fields packed into RES[0] to RES[3]. -/
theorem nodeReadReturnsTheNode : Obligations.NodeReadReturnsTheNode := by
  intro s h
  refine ⟨fun hv => ?noTree, fun htree hge => ?badIndex, fun htree hlt => ?reads⟩
  case noTree => exact raises_of_body (require_bind_neg (by simp [hv]) _) rfl rfl
  case badIndex =>
    exact raises_of_body ((require_bind_pos htree _).trans (require_bind_neg (BitVec.not_lt.mpr hge) _)) rfl rfl
  case reads =>
    refine ⟨_, exec_ok (nodeRead_body htree hlt), toNat_weight_words _, ?kind, ?children,
      fun k hk h4 => setRes_zero _ s k hk h4⟩
    case kind =>
      refine (toNat_packed _ _ (by decide) (by decide)).trans ?_
      rw [BitVec.toNat_ofBool]
      rfl
    case children => exact toNat_packed _ _ (by decide) (by decide)

end Sys2Proof.Machine
end

section
/-! SUPPORT. The errors each command can raise are those of its row (rules R281, R282, R289), and a command that raises
none leaves ERR, ERRCODE and ERRINFO alone (R288). -/

namespace Sys2Proof.Machine

/-! ## Bodies that raise errors of a row only -/

/-- Every error `x` raises has its (ERRCODE, ERRINFO) pair in `row` (R289). -/
def RaisesOnly {α : Type} (row : List (BitVec 4 × BitVec 8)) (x : Except Cause α) : Prop :=
  ∀ c, x = .error c → (errorCode c, errorInfo c) ∈ row

section
variable {α β : Type} {row : List (BitVec 4 × BitVec 8)}

theorem RaisesOnly.ok (a : α) : RaisesOnly row (.ok a) := nofun

theorem RaisesOnly.bind {x : Except Cause α} {f : α → Except Cause β} (hx : RaisesOnly row x)
    (hf : ∀ a, RaisesOnly row (f a)) : RaisesOnly row (x >>= f) := fun c h =>
  (bind_error_iff.mp h).elim (hx c) fun ⟨a, _, ha⟩ => hf a c ha

/-- A test whose error is in the row, then a body that raises errors of the row. -/
theorem RaisesOnly.require {p : Prop} [Decidable p] {e : Cause} {f : Unit → Except Cause β}
    (he : (errorCode e, errorInfo e) ∈ row) (hf : RaisesOnly row (f ())) :
    RaisesOnly row (Machine.require p e >>= f) := fun c h =>
  (require_bind_error_iff.mp h).elim (fun ⟨_, hc⟩ => hc ▸ he) fun ⟨_, hc⟩ => hf c hc

theorem RaisesOnly.ite {p : Prop} [Decidable p] {x y : Except Cause α} (hx : RaisesOnly row x)
    (hy : RaisesOnly row y) : RaisesOnly row (if p then x else y) := by
  split
  · exact hx
  · exact hy

/-- The writer's one error is OUT_OVER (R185). -/
theorem bwWriteBits_raisesOnly (h : (6, 2) ∈ row) (bits : List Bool) (s : State) :
    RaisesOnly row (bwWriteBits bits s) := fun _ hc => bwWriteBits_err hc ▸ h

theorem brReadBit_raisesOnly (h : (4, 0) ∈ row) (s : State) : RaisesOnly row (brReadBit s) :=
  fun _ hc => brReadBit_err hc ▸ h

end

/-! ## COMPRESS and DECOMPRESS -/

/-- Past its size test COMPRESS only writes codes (R213). -/
theorem compressFull_raisesOnly (s : State) : RaisesOnly (errorsOf .compress) (compressFull s) := by
  rw [compressFull_eq, foldlM_bwWriteCode]
  exact .require (by decide) (.bind (bwWriteBits_raisesOnly (by decide) _ _) fun _ => .ok _)

theorem parseEntries_raisesOnly (s : State) (n : Nat) : RaisesOnly (errorsOf .decompress) (parseEntries s n) := by
  intro c h
  rcases entries_err h with rfl | rfl
  · decide
  · decide

theorem decodeLoop_raisesOnly (left k : Nat) (s : State) :
    RaisesOnly (errorsOf .decompress) (decodeLoop left k s) := by
  intro c h
  rcases decodeLoop_err h with rfl | rfl | rfl
  · decide
  · decide
  · decide

/-- Stages 3 and 4 of DECOMPRESS: tests 11 to 16 (R248). -/
theorem decompressPayload_raisesOnly (n : Nat) (l : SymFreqs) (s : State) :
    RaisesOnly (errorsOf .decompress) (decompressPayload n l s) := by
  rw [decompressPayload_eq]
  exact .require (by decide) <| .require (by decide) <| .require (by decide) <| .require (by decide) <|
    .bind (decodeLoop_raisesOnly _ _ _) fun _ => .require (by decide) (.ok _)

/-- Stages 1 and 2 of DECOMPRESS after the flag byte, and what follows (R233). -/
theorem decompressFull_raisesOnly (n : Nat) (s : State) :
    RaisesOnly (errorsOf .decompress) (decompressFull n s) := by
  rw [decompressFull_eq]
  exact .require (by decide) <| .require (by decide) <| .require (by decide) <|
    .bind (parseEntries_raisesOnly _ _) fun l => decompressPayload_raisesOnly n l s

theorem decompress_raisesOnly (s : State) : RaisesOnly (errorsOf .decompress) (bodyOf .decompress s) := by
  rw [decompress_eq]
  exact .require (by decide) <| .require (by decide) <| .require (by decide) <| .require (by decide) <|
    .ite (.require (by decide) (.ok _)) (decompressFull_raisesOnly _ _)

/-! ## Every command -/

/-- Rule R289's table, row by row: what a command raises, its row lists. -/
theorem body_raisesOnly (i : Instr) (s : State) : RaisesOnly (errorsOf i) (bodyOf i s) := by
  cases i with
  | nop | clear | tblRead _ => exact .ok _
  | freqBuild | codeGen | bwInit | bwFinish => exact .require (by decide) (.ok _)
  | treeBuild | brInit => exact .require (by decide) (.require (by decide) (.ok _))
  | nodeRead _ =>
    show RaisesOnly [(7, 2), (7, 7)] _
    exact .require (by decide) (.require (by decide) (.ok _))
  | bwWriteBit b =>
    show RaisesOnly [(7, 4), (6, 2)] _
    exact .require (by decide) (.require (by decide) (.ok _))
  | bwWriteCode sym =>
    show RaisesOnly [(7, 4), (7, 3), (7, 6), (6, 2)] _
    exact .require (by decide) <| .require (by decide) <| .require (by decide) <|
      bwWriteBits_raisesOnly (by decide) _ _
  | brReadBit => exact .require (by decide) (.bind (brReadBit_raisesOnly (by decide) s) fun _ => .ok _)
  | brDecodeSym =>
    refine .require (by decide) (.require (by decide) (.bind (fun c h => ?_) fun _ => .ok _))
    rcases walkSymbol_err h with rfl | rfl
    · decide
    · decide
  | compress =>
    rw [compress_eq]
    exact .require (by decide) (.ite (.ok _) (compressFull_raisesOnly _))
  | decompress => exact decompress_raisesOnly s

/-- Settles O17: a body that ends keeps the error registers (`body_kept`), and one that raises is error entry with an
error of its row (`body_raisesOnly`). -/
theorem commandsEndOrRaiseAListedError : Obligations.CommandsEndOrRaiseAListedError := by
  intro i s
  obtain ⟨t, ht⟩ := exec_next i s
  refine ⟨t, ht, ?_⟩
  rw [exec_eq_runBody] at ht
  rcases runBody_cases ht with hbody | ⟨c, hbody, -⟩
  · have kept := body_kept hbody
    exact .inl ⟨kept.err, kept.errCode, kept.errInfo⟩
  · exact .inr ⟨_, body_raisesOnly i s c hbody, raises_of_body hbody rfl rfl⟩

end Sys2Proof.Machine
end

section
/-! SUPPORT. The commands that leave OUT alone (rule R329). -/

namespace Sys2Proof.Machine

/-- OUT and OUT_LEN of `t` are those of `s` (R329). -/
structure OutKept (s t : State) : Prop where
  outBuf : t.outBuf = s.outBuf
  outLen : t.outLen = s.outLen

theorem OutKept.of_onlyReader {s t : State} (h : onlyReader s t) : OutKept s t := by
  rw [show t = _ from h]
  exact ⟨rfl, rfl⟩

/-- RES is no part of OUT. -/
theorem OutKept.setRes {s t : State} (h : OutKept s t) (vals : List Word) : OutKept s (setRes vals t) :=
  ⟨h.outBuf, h.outLen⟩

/-- Settles O21: of the commands that rule R329 lists, each has an effect on RES, on the tables or on the reader only. -/
theorem outIsKeptByCommandsThatDoNotWriteIt : Obligations.OutIsKeptByCommandsThatDoNotWriteIt := by
  intro i s t hexec _ ht hlisted
  have he := effect_of_body (body_ok_of hexec ht)
  have kept : OutKept s t := by
    cases i with
    | nop | tblRead _ | nodeRead _ | freqBuild | treeBuild | codeGen | brInit =>
      obtain rfl := he
      exact ⟨rfl, rfl⟩
    | brReadBit =>
      obtain ⟨b, u, hu, rfl⟩ := he
      exact (OutKept.of_onlyReader hu).setRes _
    | brDecodeSym =>
      obtain ⟨sym, n, u, hu, rfl⟩ := he
      exact (OutKept.of_onlyReader hu).setRes _
    | clear | bwInit | bwWriteBit _ | bwWriteCode _ | bwFinish | compress | decompress => exact hlisted.elim
  exact ⟨congrFun (outAt_congr kept.outBuf), kept.outLen⟩

end Sys2Proof.Machine
end
